-- ==== Sys2Proof/Word.lean ====
section
/-! DEFINITION. The unsigned words of the block: u8, u32 and u64 of spec/00_scope.md rule R10. -/

namespace Sys2Proof

/-- `u8` (R10): an input byte, a pixel channel, a header byte. Bit 7 is the most significant (R9). -/
abbrev Byte := BitVec 8

/-- `u32` (R10): the header's width and height, and the pixel port's word (R39). -/
abbrev Word32 := BitVec 32

/-- `u64` (R10): `total_pixels`, `pixels_written` and `in_count` (R24, R25, R30). -/
abbrev Word64 := BitVec 64

end Sys2Proof
end

