-- ==== Sys2Proof/Syntax.lean ====
section
/-! DEFINITION. The instructions: one constructor for each row of spec/opcode_table.json. -/

namespace Sys2Proof

/-- The block's instructions (R2): the six chunk kinds of R70 with their RAW field values (R75; the biases are
taken off at reconstruction), and the 14-byte header operation of R121. -/
inductive Instr where
  /-- INDEX: one byte, a cache slot number (R71, R174). -/
  | index (idx : BitVec 6)
  /-- DIFF: one byte, three deltas stored plus 2 (R71, R175). -/
  | diff (dr dg db : BitVec 2)
  /-- LUMA: two bytes, the green delta stored plus 32, and the red and blue deltas less the green one, each
  stored plus 8 (R71, R176). -/
  | luma (dg : BitVec 6) (drDg dbDg : BitVec 4)
  /-- RUN: one byte, the run length less 1 (R71, R200). -/
  | run (length : BitVec 6)
  /-- RGB: four bytes, three channels verbatim (R71, R172). -/
  | rgb (r g b : Byte)
  /-- RGBA: five bytes, four channels verbatim (R71, R173). -/
  | rgba (r g b a : Byte)
  /-- HDR: fourteen bytes, the magic and then these four fields (R59, R121). -/
  | hdr (width height : Word32) (channels colorspace : Byte)
  deriving DecidableEq, Repr

end Sys2Proof
end

