-- ==== Sys2Proof/WellFormed.lean ====
section
/-! DEFINITION. Which terms of `Instr` are instructions of a legal stream. -/

namespace Sys2Proof

/-- A Run from a stream has a raw length of 0..61: 62 and 63 are the bit patterns of the RGB and RGBA tags, so
such a Run has no encoding (R76, R80). -/
def Instr.runLengthOk (length : BitVec 6) : Bool := decide (length.toNat ≤ 61)

/-- The channel byte must be exactly 3 or 4 (R125). -/
def Instr.channelsOk (c : Byte) : Bool := decide (c = 3 ∨ c = 4)

/-- The colorspace byte must be exactly 0 or 1 (R126). -/
def Instr.colorspaceOk (s : Byte) : Bool := decide (s = 0 ∨ s = 1)

/-- The checks on an instruction as syntax. Every other field admits every value of its width (R78, R123, R124).
A header with an illegal channel or colorspace byte is decodable and not well formed: running it raises
`InvalidFormat` (R125, R126; log 9). -/
def Instr.wellFormed : Instr → Bool
  | .index _ => true
  | .diff _ _ _ => true
  | .luma _ _ _ => true
  | .run length => Instr.runLengthOk length
  | .rgb _ _ _ => true
  | .rgba _ _ _ _ => true
  | .hdr _ _ channels colorspace => Instr.channelsOk channels && Instr.colorspaceOk colorspace

end Sys2Proof
end

