-- ==== Sys2Proof/Decode.lean ====
section
/-! DEFINITION. The byte-level decoder and the encoder, both from spec/30_encoding.md rules R71, R77 and R81 and
spec/20_memory.md rule R59. The machine itself decodes through the bit source (Machine/TagPayload.lean,
Machine/Header.lean); R109 says that the two agree, and that is a statement about this model. -/

namespace Sys2Proof

/-- Bits `lo + len − 1` down to `lo` of a byte as an unsigned number, bit 0 the least significant: `v[hi:lo]` of
R9 with `hi = lo + len − 1`; 0 when `len` is 0. -/
def byteBits (v : Byte) (lo len : Nat) : Nat := v.toNat / 2 ^ lo % 2 ^ len

/-- Why a byte string starts with no instruction. -/
inductive DecodeError where
  /-- The bytes end before the instruction does (R151, R130). -/
  | truncated
  /-- The first four bytes are not "qoif" (R122). -/
  | badMagic
  deriving DecidableEq, Repr

/-- The ASCII bytes of "qoif" (R59, R122). -/
def magicBytes : List Byte := [0x71, 0x6F, 0x69, 0x66]

/-- Four bytes as a big-endian u32, the first the most significant (R52). -/
def beWord (b0 b1 b2 b3 : Byte) : Word32 := b0 ++ b1 ++ b2 ++ b3

/-- The four bytes of a u32, most significant first (R52). -/
def beBytes (w : Word32) : List Byte :=
  [w.extractLsb' 24 8, w.extractLsb' 16 8, w.extractLsb' 8 8, w.extractLsb' 0 8]

/-- How many bytes the chunk takes that starts with this byte (R79). -/
def chunkLength (b0 : Byte) : Nat :=
  if b0 = 0xFF then 5
  else if b0 = 0xFE then 4
  else if b0.extractLsb' 6 2 = (0b10 : BitVec 2) then 2
  else 1

/-- The chunk a byte string starts with, and the bytes after it. The 8-bit tags come before the 2-bit tag `11`
(R72); every first byte selects a kind (R77, R78). -/
def decodeChunk : List Byte → Except DecodeError (Instr × List Byte)
  | [] => .error .truncated
  | b0 :: rest =>
    if b0 = 0xFE then
      match rest with
      | r :: g :: b :: tail => .ok (.rgb r g b, tail)
      | _ => .error .truncated
    else if b0 = 0xFF then
      match rest with
      | r :: g :: b :: a :: tail => .ok (.rgba r g b a, tail)
      | _ => .error .truncated
    else if b0.extractLsb' 6 2 = (0b00 : BitVec 2) then
      .ok (.index (b0.extractLsb' 0 6), rest)
    else if b0.extractLsb' 6 2 = (0b01 : BitVec 2) then
      .ok (.diff (b0.extractLsb' 4 2) (b0.extractLsb' 2 2) (b0.extractLsb' 0 2), rest)
    else if b0.extractLsb' 6 2 = (0b10 : BitVec 2) then
      match rest with
      | b1 :: tail => .ok (.luma (b0.extractLsb' 0 6) (b1.extractLsb' 4 4) (b1.extractLsb' 0 4), tail)
      | _ => .error .truncated
    else .ok (.run (b0.extractLsb' 0 6), rest)

/-- The header a byte string starts with, and the bytes after it: the layout of R59. The magic alone makes the
bytes a header (opcode_table.json: the mask covers the first four bytes); an illegal channel or colorspace byte
is decoded, and running it raises `InvalidFormat` (log 9). -/
def decodeHeader : List Byte → Except DecodeError (Instr × List Byte)
  | m0 :: m1 :: m2 :: m3 :: fields =>
    if [m0, m1, m2, m3] = magicBytes then
      match fields with
      | w0 :: w1 :: w2 :: w3 :: h0 :: h1 :: h2 :: h3 :: c :: cs :: tail =>
        .ok (.hdr (beWord w0 w1 w2 w3) (beWord h0 h1 h2 h3) c cs, tail)
      | _ => .error .truncated
    else .error .badMagic
  | _ => .error .truncated

/-- Is the instruction the header (R120: phase HEADER) rather than a chunk (R140: phase DECODING)? -/
def Instr.isHeader : Instr → Bool
  | .hdr _ _ _ _ => true
  | .index _ | .diff _ _ _ | .luma _ _ _ | .run _ | .rgb _ _ _ | .rgba _ _ _ _ => false

/-- The decoder of the phase in which the instruction `i` can stand: the same bytes are read as a header in
phase HEADER and as a chunk in phase DECODING. -/
def decodeAs (i : Instr) (bytes : List Byte) : Except DecodeError (Instr × List Byte) :=
  if i.isHeader then decodeHeader bytes else decodeChunk bytes

/-- The bytes of an instruction: `Encode` of R81 for the chunks, the layout of R59 for the header. A Run of raw
length 62 or 63 has no encoding (R80); the formula's bytes for it are those of another chunk's tag. -/
def encode : Instr → List Byte
  | .index idx => [(0b00 : BitVec 2) ++ idx]
  | .diff dr dg db => [(0b01 : BitVec 2) ++ dr ++ dg ++ db]
  | .luma dg drDg dbDg => [(0b10 : BitVec 2) ++ dg, drDg ++ dbDg]
  | .run length => [(0b11 : BitVec 2) ++ length]
  | .rgb r g b => [0xFE, r, g, b]
  | .rgba r g b a => [0xFF, r, g, b, a]
  | .hdr width height channels colorspace =>
    magicBytes ++ beBytes width ++ beBytes height ++ [channels, colorspace]

/-- The length of an instruction in bytes, as spec/opcode_table.json gives it (R74, R59). -/
def Instr.byteLength : Instr → Nat
  | .index _ => 1
  | .diff _ _ _ => 1
  | .luma _ _ _ => 2
  | .run _ => 1
  | .rgb _ _ _ => 4
  | .rgba _ _ _ _ => 5
  | .hdr _ _ _ _ => 14

/-- Byte `k` of a number, counting from the least significant. -/
def numberByte (w k : Nat) : Byte := BitVec.ofNat 8 (w / 256 ^ k)

/-- The first `n` bytes of a number, least significant first: how spec/opcode_table.json numbers the bytes of a
chunk (the first byte is bits 7..0). -/
def numberBytes (n w : Nat) : List Byte := (List.range n).map (numberByte w)

/-- Is this numbered word the table's HDR row? It is the only row longer than five bytes, and no other row of four
bytes has a low byte other than 0xFE; its 32-bit match is the magic, read as one big-endian number or byte by byte
(log 11). -/
def isHeaderWord (nbits w : Nat) : Bool :=
  decide (nbits = 112) ||
    (decide (nbits = 32) && (decide (w % 2 ^ 32 = 0x716F6966) || decide (w % 2 ^ 32 = 0x66696F71)))

/-- The 14 bytes of a numbered HDR word. The table's HDR row has the magic as ONE 32-bit number in bits 31..0
with its first byte on top, so its words are big-endian fields: magic 31..0, width 63..32, height 95..64,
channels 103..96, colorspace 111..104. A word numbered byte by byte (first byte in bits 7..0) is taken so
(log 11). -/
def headerWordBytes (w : Nat) : List Byte :=
  if w % 2 ^ 32 = 0x716F6966 then
    beBytes (BitVec.ofNat 32 w) ++ beBytes (BitVec.ofNat 32 (w / 2 ^ 32)) ++
      beBytes (BitVec.ofNat 32 (w / 2 ^ 64)) ++ [numberByte w 12, numberByte w 13]
  else numberBytes 14 w

/-- The bytes of a numbered chunk word: the first byte is bits 7..0, up to the longest chunk. -/
def chunkWordBytes (w : Nat) : List Byte := numberBytes 5 w

/-- The instruction the decoder reads from an instruction's bits as spec/opcode_table.json numbers them; bits
above `nbits` are 0. -/
def decodeTableWord (nbits w : Nat) : Option Instr :=
  let word := w % 2 ^ nbits
  let result :=
    if isHeaderWord nbits word then decodeHeader (headerWordBytes word)
    else decodeChunk (chunkWordBytes word)
  match result with
  | .ok (i, _) => some i
  | .error _ => none

end Sys2Proof
end

