-- ==== Sys2Proof/Config.lean ====
section
/-! DEFINITION. What an implementation fixes, and the free values. -/

namespace Sys2Proof

/-- The default of the parameter `MAX_PIXELS` (R8, I8): 2^64 − 1, which never raises `AllocationFailure`
(R253). The parameter itself is data of the state (`Env.maxPixels`). -/
def Config.defaultMaxPixels : Word64 := 0xFFFFFFFFFFFFFFFF

/-- FREE VALUE, safe: what `px_data` carries while `px_valid` is 0 (R40, I3 "any value"), indexed by how many
pixels have been transferred. It has no body, so nothing can be proved of its value (log 6). -/
opaque Config.pxDataIdle : Nat → Word32

end Sys2Proof
end

