-- ==== Sys2Proof/Machine/State.lean ====
section
/-! DEFINITION. The state of the block, as plain data: every element of spec/10_state.md rule R20, and beside it
what R41 calls the parameters of the step relation. -/

namespace Sys2Proof.Machine

/-- Where the decode is (R21). -/
inductive Phase where
  | idle | header | decoding | done | error
  deriving DecidableEq, Repr

/-- The error that ended the decode (R22, R250): NONE, `UnexpectedEndOfInput`, `InvalidFormat`,
`AllocationFailure`. -/
inductive ErrCode where
  | none | eoi | fmt | alloc
  deriving DecidableEq, Repr

/-- A pixel: four 8-bit channels (R7, R26). -/
structure Pixel where
  r : Byte
  g : Byte
  b : Byte
  a : Byte
  deriving DecidableEq, Repr

/-- `{0,0,0,0}`: the initial content of every cache slot (R27). -/
def Pixel.transparent : Pixel := ⟨0, 0, 0, 0⟩

/-- `{0,0,0,255}`: the previous pixel before any chunk (R26). -/
def Pixel.opaqueBlack : Pixel := ⟨0, 0, 0, 255⟩

/-- A cache slot number (R27: "with i a 6-bit number"). -/
abbrev Slot := BitVec 6

/-- The chunk latch's value: six kinds with raw fields (R31). -/
inductive Chunk where
  | index (idx : BitVec 6)
  | diff (dr dg db : BitVec 2)
  | luma (dg : BitVec 6) (drDg dbDg : BitVec 4)
  | run (length : BitVec 6)
  | rgb (r g b : Byte)
  | rgba (r g b a : Byte)
  deriving DecidableEq, Repr

/-- The only byte space the block reaches (R50): the input stream, "a finite list of bytes" (R41), the byte at
offset k being its k-th. Any list is in canonical form: equal streams are equal lists (log 1). -/
abbrev Memory := List Byte

/-- One sample of the control inputs `rst` and `start` (R37), and the byte stream the host has positioned for a
decode that this `start` begins (R283 step 3); no stream means that the host goes on with the rest of the
present one (R285). `rst` applies at any time (R280): `cut` is how many bytes the step it cuts short had taken
(log 20). -/
structure Ctl where
  rst : Bool
  start : Bool
  stream : Option Memory
  cut : Nat
  deriving DecidableEq, Repr

/-- The host's side, the model's own part of the state: the parameters of the step relation (R41) and the
control inputs (R37). -/
structure Env where
  /-- The bytes of the present decode from its offset 0 (R41, R101). -/
  input : Memory
  /-- After the listed bytes the host signals the end of the stream (R38 `in_eos`); if not, it never answers
  (R292). -/
  inEos : Bool
  /-- The host takes the pixels the coming step emits (R39 `px_ready`); if not, it never takes one (R293). -/
  pxReady : Bool
  /-- The parameter `MAX_PIXELS` (R8, R41, I8). -/
  maxPixels : Word64
  /-- The samples of `rst` and `start`, one for each coming step, the next one first; past its end both are
  low (log 2). -/
  ctl : List Ctl
  /-- How many bytes the step that waits for the host has taken: the host's stream has moved past them (R57), and
  `in_count` moves past them when the step completes (log 4, log 20). 0 where no step waits. -/
  held : Nat
  deriving DecidableEq, Repr

/-- The state of the block (R20) and of its host's side (R41). -/
structure State where
  /-- R21. -/
  phase : Phase
  /-- R22. -/
  errCode : ErrCode
  /-- R23. -/
  hdrWidth : Word32
  /-- R23. -/
  hdrHeight : Word32
  /-- R23. -/
  hdrChannels : Byte
  /-- R23. -/
  hdrColorspace : Byte
  /-- R23. -/
  hdrValid : Bool
  /-- R24. -/
  totalPixels : Word64
  /-- R25. -/
  pixelsWritten : Word64
  /-- R26. -/
  prev : Pixel
  /-- R27. -/
  cache : Vector Pixel 64
  /-- R28: the byte the bit source reads from. -/
  bsBuf : Byte
  /-- R28: how many low bits of `bsBuf` are unread, 0..8. -/
  bsCnt : Fin 9
  /-- R29: the checkpointed `bsBuf`. -/
  ckBuf : Byte
  /-- R29: the checkpointed `bsCnt`. -/
  ckCnt : Fin 9
  /-- R30, R34: the bytes taken in this decode, and so the offset of the next one. -/
  inCount : Word64
  /-- R31: the chunk handed to the reconstructor. -/
  chunk : Chunk
  /-- R32: the pixels emitted in this decode, oldest first. -/
  out : List Pixel
  /-- R41, R37: the host's side. -/
  env : Env
  deriving DecidableEq, Repr

/-- Why a step stops. Neither is raised by any step from a state whose bit source holds no bits (R108); both are
SAFE: the machine stops where the rules give no meaning. -/
inductive Fault where
  /-- Raised by `readBits` for a width outside 1..8 (R103: "must fault, not return a value"; I5). Safe. -/
  | readBitsWidth
  /-- Raised by `restore` after a byte was fetched since the checkpoint (R105: "must not restore across a fetch";
  I6). Safe. -/
  | restoreAcrossFetch
  deriving DecidableEq, Repr

/-- Why an instruction has no meaning. -/
inductive Refusal where
  /-- Raised by `exec`'s arm of an instruction that is not modelled. No arm raises it: all seven rows have their
  meaning. Safe. -/
  | notModelled (mnemonic : String)
  deriving DecidableEq, Repr

/-- The host's side right after reset: an empty stream whose end is signalled, a host that takes pixels, the
default `MAX_PIXELS` (R8), both control inputs low, no step that waits (DESIGN CHOICE, log 12, log 4, log 20). -/
def Env.reset : Env where
  input := []
  inEos := true
  pxReady := true
  maxPixels := Config.defaultMaxPixels
  ctl := []
  held := 0

/-- The state right after reset: the values of R40. The chunk latch, which R40 leaves unspecified, is Index{0}
(DESIGN CHOICE, log 5); nothing reads it. -/
def State.reset : State where
  phase := .idle
  errCode := .none
  hdrWidth := 0
  hdrHeight := 0
  hdrChannels := 0
  hdrColorspace := 0
  hdrValid := false
  totalPixels := 0
  pixelsWritten := 0
  prev := .opaqueBlack
  cache := Vector.replicate 64 .transparent
  bsBuf := 0
  bsCnt := 0
  ckBuf := 0
  ckCnt := 0
  inCount := 0
  chunk := .index 0
  out := []
  env := .reset

end Sys2Proof.Machine
end

