-- ==== Sys2Proof/Machine/Ops.lean ====
section
/-! DEFINITION. The shared operations: the input stream, the bit source (R100 to R105), raising an error (R254)
and leaving one (R220, R280), the colour cache (R27), emitting (R224) and the end of a chunk step (R221). -/

namespace Sys2Proof.Machine

/-! ### The input stream -/

/-- The input byte at an offset, if the stream has one (R51). -/
def Memory.read (m : Memory) (offset : Nat) : Option Byte := m[offset]?

/-- A stream of 2^64 bytes or more is outside the model (R30), so that `in_count` does not wrap (log 13). -/
def Memory.wf (m : Memory) : Bool := decide (m.length < 2 ^ 64)

/-- The stream as cells of (offset, byte), offsets rising from 0. -/
def Memory.cells (m : Memory) : List Host.Cell := m.zipIdx.map fun c => (c.2, c.1)

/-! ### What an operation inside a step answers -/

/-- How an internal operation ends: with a value, by raising an error (the state is the one after the raise), by
waiting for a host that does not answer (the state is the one it waits in), or without a meaning. -/
inductive Ret (α : Type) where
  | ok (value : α) (s : State)
  | raised (s : State)
  | waits (s : State)
  | fault (f : Fault)
  deriving Repr

/-- Sequence: nothing after a raise runs (R12). -/
def Ret.andThen {α β : Type} (r : Ret α) (next : α → State → Ret β) : Ret β :=
  match r with
  | .ok value s => next value s
  | .raised s => .raised s
  | .waits s => .waits s
  | .fault f => .fault f

/-- The state while a step waits that began in `before` and waits in `t` (R292, R293): the step has not happened,
so the block's elements stay as they were (R294, I7; log 4), and the bytes it has taken are held (R57; log 20). -/
def waitAt (before t : State) : State :=
  { before with env := { before.env with held := t.inCount.toNat - before.inCount.toNat } }

/-- The state in which a step that waited is run again, from its first byte (log 4). -/
def resumed (s : State) : State := { s with env := { s.env with held := 0 } }

/-- The step's outcome from an operation started in state `before`: an error is a next state (R222); while the
host does not answer the step waits (R292). -/
def Ret.into {α : Type} (r : Ret α) (before : State)
    (next : α → State → Host.Outcome State Fault Refusal) : Host.Outcome State Fault Refusal :=
  match r with
  | .ok value s => next value s
  | .raised s => .next s
  | .waits s => .next (waitAt before s)
  | .fault f => .fault f

/-! ### Raising an error -/

/-- `raise E` (R254): the phase and the code change and nothing else does. -/
def raiseError (e : ErrCode) (s : State) : State := { s with phase := .error, errCode := e }

/-! ### The bit source -/

/-- `FetchByte()` (R101): the next byte of the stream, or `UnexpectedEndOfInput` with `in_count` unchanged when
the host has signalled the end; a host that never answers leaves the block waiting (R292). -/
def fetchByte (s : State) : Ret Byte :=
  match Memory.read s.env.input s.inCount.toNat with
  | some b => .ok b { s with inCount := s.inCount + 1 }
  | none => if s.env.inEos then .raised (raiseError .eoi s) else .waits s

/-- `ReadBits(n)` (R102): the next n bits, most significant first, zero-extended to a byte; n outside 1..8 has no
meaning (R103). -/
def readBits (n : Nat) (s : State) : Ret Byte :=
  if n = 0 ∨ 8 < n then .fault .readBitsWidth
  else
    let k := s.bsCnt.val
    if n ≤ k then
      .ok (BitVec.ofNat 8 (byteBits s.bsBuf (k - n) n)) { s with bsCnt := Fin.ofNat 9 (k - n) }
    else
      (fetchByte s).andThen fun b t =>
        .ok (BitVec.ofNat 8 (byteBits s.bsBuf 0 k * 2 ^ (n - k) + byteBits b (8 - (n - k)) (n - k)))
          { t with bsBuf := b, bsCnt := Fin.ofNat 9 (8 - (n - k)) }

/-- `Checkpoint()` (R104). -/
def checkpoint (s : State) : State := { s with ckBuf := s.bsBuf, ckCnt := s.bsCnt }

/-- `Restore()` (R105). `ckInCount` is the value `in_count` had at the last `Checkpoint()`; it is no state of the
hardware, so the caller carries it. A restore across a fetch has no meaning (I6; log 14). -/
def restore (ckInCount : Word64) (s : State) : Ret Unit :=
  if s.inCount = ckInCount then .ok () { s with bsBuf := s.ckBuf, bsCnt := s.ckCnt }
  else .fault .restoreAcrossFetch

/-! ### The colour cache -/

/-- `cache[i]` (R27). -/
def readSlot (i : Slot) (s : State) : Pixel := s.cache[i.toNat]'i.isLt

/-- `cache[i] <- p` (R27): the whole slot is replaced. -/
def writeSlot (i : Slot) (p : Pixel) (s : State) : State :=
  { s with cache := s.cache.set i.toNat p i.isLt }

/-! ### Emitting, and the end of a chunk step -/

/-- `Emit(p)` (R224). -/
def emit (p : Pixel) (s : State) : State :=
  { s with out := s.out ++ [p], pixelsWritten := s.pixelsWritten + 1 }

/-- `Emit(p)`, m times (R200). -/
def emitMany (m : Nat) (p : Pixel) (s : State) : State :=
  match m with
  | 0 => s
  | k + 1 => emitMany k p (emit p s)

/-- `chunk <- c` (R221). -/
def latchChunk (c : Chunk) (s : State) : State := { s with chunk := c }

/-- The end of a chunk step (R221, R226): the decode is done when every pixel is written. -/
def checkDone (s : State) : State :=
  if s.pixelsWritten = s.totalPixels then { s with phase := .done } else s

/-! ### Starting a decode, and reset: the only ways out of an ended decode (R260) -/

/-- The bytes of the stream the host has not given yet, when the step under way has taken `taken` bytes beyond
`in_count`: a byte taken is never given again (R57), so the stream never goes back (R285). -/
def streamAfter (taken : Nat) (s : State) : Memory := s.env.input.drop (s.inCount.toNat + taken)

/-- The stream of the next decode: the one the host positions (R283 step 3), or else the bytes it has not yet
given, whose first becomes offset 0 (R285; log 8). -/
def nextStream (stream : Option Memory) (s : State) : Memory :=
  match stream with
  | some m => m
  | none => streamAfter s.env.held s

/-- `Start()` (R220). The chunk latch is not among what it sets. -/
def start (stream : Option Memory) (s : State) : State :=
  { s with
    phase := .header
    errCode := .none
    hdrWidth := 0
    hdrHeight := 0
    hdrChannels := 0
    hdrColorspace := 0
    hdrValid := false
    totalPixels := 0
    pixelsWritten := 0
    inCount := 0
    out := []
    prev := .opaqueBlack
    cache := Vector.replicate 64 .transparent
    bsBuf := 0
    bsCnt := 0
    ckBuf := 0
    ckCnt := 0
    env := { s.env with input := nextStream stream s, held := 0 } }

/-- `rst` (R280) when the step under way has taken `taken` bytes: every element takes its value of R40; the host's
side stays, and its stream stands at the first byte not taken (R285; log 8). -/
def applyReset (taken : Nat) (s : State) : State :=
  { State.reset with env := { s.env with input := streamAfter taken s, held := 0 } }

end Sys2Proof.Machine
end

