-- ==== Sys2Proof/Machine/Header.lean ====
section
/-! DEFINITION. The header front end (spec/41_header.md): reading the 14 bytes through the bit source with the
checks of R121 in its order, and the meaning of HDR. -/

namespace Sys2Proof.Machine

/-- `hdr_width <- w` (R121, R123). -/
def setWidth (w : Word32) (s : State) : State := { s with hdrWidth := w }

/-- `hdr_height <- h` (R121, R124). -/
def setHeight (h : Word32) (s : State) : State := { s with hdrHeight := h }

/-- `hdr_channels <- c`, then the check of R125. -/
def setChannels (c : Byte) (s : State) : Ret Unit :=
  let t := { s with hdrChannels := c }
  if Instr.channelsOk c then .ok () t else .raised (raiseError .fmt t)

/-- `hdr_colorspace <- s`, then the check of R126. -/
def setColorspace (cs : Byte) (s : State) : Ret Unit :=
  let t := { s with hdrColorspace := cs }
  if Instr.colorspaceOk cs then .ok () t else .raised (raiseError .fmt t)

/-- The pixel count of a header: width × height in 64 bits (R24). -/
def pixelCount (w h : Word32) : Word64 := w.setWidth 64 * h.setWidth 64

/-- Acceptance (R121, R127): the pixel count, its check against `MAX_PIXELS`, and the phase that follows. -/
def acceptHeader (w h : Word32) (s : State) : State :=
  let t := { s with totalPixels := pixelCount w h }
  if s.env.maxPixels < pixelCount w h then raiseError .alloc t
  else { t with hdrValid := true, phase := if pixelCount w h = 0 then .done else .decoding }

/-- Four `ReadBits(8)`, the first the most significant byte (R52, R121). -/
def readWord32 (s : State) : Ret Word32 :=
  (readBits 8 s).andThen fun b0 s =>
  (readBits 8 s).andThen fun b1 s =>
  (readBits 8 s).andThen fun b2 s =>
  (readBits 8 s).andThen fun b3 s => .ok (beWord b0 b1 b2 b3) s

/-- The four magic bytes, all read before they are compared (R122). -/
def readMagic (s : State) : Ret Unit :=
  (readBits 8 s).andThen fun m0 s =>
  (readBits 8 s).andThen fun m1 s =>
  (readBits 8 s).andThen fun m2 s =>
  (readBits 8 s).andThen fun m3 s =>
    if [m0, m1, m2, m3] = magicBytes then .ok () s else .raised (raiseError .fmt s)

/-- The reads of `HDR` (R121), each field written and checked right after it is read (R130, R258). -/
def fetchHeader (s : State) : Ret Instr :=
  (readMagic s).andThen fun _ s =>
  (readWord32 s).andThen fun w s =>
  (readWord32 (setWidth w s)).andThen fun h s =>
  (readBits 8 (setHeight h s)).andThen fun c s =>
  (setChannels c s).andThen fun _ s =>
  (readBits 8 s).andThen fun cs s =>
  (setColorspace cs s).andThen fun _ s => .ok (.hdr w h c cs) s

/-- HDR (R121) on operands that are in: the four fields with their checks, then acceptance. -/
def execHdr (w h : Word32) (c cs : Byte) (s : State) : Host.Outcome State Fault Refusal :=
  ((setChannels c (setHeight h (setWidth w s))).andThen fun _ t => setColorspace cs t).into s
    fun _ t => .next (acceptHeader w h t)

end Sys2Proof.Machine
end

