-- ==== Sys2Proof/Machine/Operands.lean ====
section
/-! DEFINITION. How a chunk's raw fields and the previous pixel become values: biases (R75), channel sums (R177),
the hash (R170) and the run count (R200). -/

namespace Sys2Proof.Machine

/-- `a +₈ d`: the sum in the integers, then mod 256 (R10, R177). -/
def addDelta (a : Byte) (d : Int) : Byte := BitVec.ofInt 8 (a.toNat + d)

/-- A Diff field's delta: bias −2 (R75, R175). -/
def diffDelta (f : BitVec 2) : Int := f.toNat - 2

/-- Luma's green delta `ddg`: bias −32 (R75, R176). -/
def lumaGreenDelta (dg : BitVec 6) : Int := dg.toNat - 32

/-- Luma's red or blue delta: bias −8, plus the green delta, in the integers (R75, R176). -/
def lumaSideDelta (side : BitVec 4) (dg : BitVec 6) : Int := (side.toNat - 8) + lumaGreenDelta dg

/-- `hash(p)`: (3r + 5g + 7b + 11a) mod 64 on the channels as unsigned integers (R170). -/
def pixelHash (p : Pixel) : Slot :=
  BitVec.ofNat 6 (p.r.toNat * 3 + p.g.toNat * 5 + p.b.toNat * 7 + p.a.toNat * 11)

/-- How many copies a Run asks for: the raw length plus 1 (R75, R200). -/
def runCount (length : BitVec 6) : Nat := length.toNat + 1

/-- The pixels still owed, `total_pixels − pixels_written` (R200). -/
def owedPixels (s : State) : Nat := s.totalPixels.toNat - s.pixelsWritten.toNat

/-- How many copies a Run emits: clipped to the pixels still owed (R200, R203). -/
def runEmits (length : BitVec 6) (s : State) : Nat := min (runCount length) (owedPixels s)

end Sys2Proof.Machine
end

