-- ==== Sys2Proof/Machine/Reconstruct.lean ====
section
/-! DEFINITION. The colour-cache pixel reconstructor (spec/43_reconstruct.md): the meanings of the five
single-pixel chunks. Each runs in the state in which the chunk's bytes are taken: it latches the chunk, applies
it, and ends the chunk step (R221). -/

namespace Sys2Proof.Machine

/-- `Produce(p, w)` (R171): the cache if `w` says so, one pixel emitted, and the new previous pixel. -/
def produce (p : Pixel) (w : Bool) (s : State) : State :=
  let t := emit p (if w then writeSlot (pixelHash p) p s else s)
  { t with prev := p }

/-- A single-pixel chunk step (R221): latch, produce, test for the end. -/
def chunkStep (c : Chunk) (p : Pixel) (w : Bool) (s : State) : Host.Outcome State Fault Refusal :=
  .next (checkDone (produce p w (latchChunk c s)))

/-- RGB (R172): alpha carried over from `prev`. -/
def execRgb (r g b : Byte) (s : State) : Host.Outcome State Fault Refusal :=
  chunkStep (.rgb r g b) ⟨r, g, b, s.prev.a⟩ true s

/-- RGBA (R173): the pixel verbatim. -/
def execRgba (r g b a : Byte) (s : State) : Host.Outcome State Fault Refusal :=
  chunkStep (.rgba r g b a) ⟨r, g, b, a⟩ true s

/-- INDEX (R174): the slot verbatim, and no cache write. -/
def execIndex (idx : BitVec 6) (s : State) : Host.Outcome State Fault Refusal :=
  chunkStep (.index idx) (readSlot idx s) false s

/-- DIFF (R175): three deltas of −2..1 on `prev`, mod 256. -/
def execDiff (dr dg db : BitVec 2) (s : State) : Host.Outcome State Fault Refusal :=
  chunkStep (.diff dr dg db)
    ⟨addDelta s.prev.r (diffDelta dr), addDelta s.prev.g (diffDelta dg),
      addDelta s.prev.b (diffDelta db), s.prev.a⟩ true s

/-- LUMA (R176): the green delta, and red and blue deltas relative to it, on `prev`, mod 256. -/
def execLuma (dg : BitVec 6) (drDg dbDg : BitVec 4) (s : State) : Host.Outcome State Fault Refusal :=
  chunkStep (.luma dg drDg dbDg)
    ⟨addDelta s.prev.r (lumaSideDelta drDg dg), addDelta s.prev.g (lumaGreenDelta dg),
      addDelta s.prev.b (lumaSideDelta dbDg dg), s.prev.a⟩ true s

end Sys2Proof.Machine
end

