-- ==== Sys2Proof/Machine/Run.lean ====
section
/-! DEFINITION. The run-length expander (spec/44_run_expander.md): the meaning of RUN. -/

namespace Sys2Proof.Machine

/-- `Apply(Run)` (R200): the copies of `prev`, clipped to the pixels owed (R203), then the cache refresh that R201
requires; `prev` is not written. -/
def applyRun (length : BitVec 6) (s : State) : State :=
  writeSlot (pixelHash s.prev) s.prev (emitMany (runEmits length s) s.prev s)

/-- RUN (R200, R221): latch, expand, test for the end. -/
def execRun (length : BitVec 6) (s : State) : Host.Outcome State Fault Refusal :=
  .next (checkDone (applyRun length (latchChunk (.run length) s)))

end Sys2Proof.Machine
end

