-- ==== Sys2Proof/Machine/Flags.lean ====
section
/-! DEFINITION. The block has no condition flags. Its status outputs (R35) are functions of the state; its port
outputs are in Machine/Ports.lean. -/

namespace Sys2Proof.Machine

/-- `busy` (R35). -/
def busy (s : State) : Bool := decide (s.phase = .header ∨ s.phase = .decoding)

/-- `done` (R35). -/
def doneOut (s : State) : Bool := decide (s.phase = .done)

/-- `error` (R35). -/
def errorOut (s : State) : Bool := decide (s.phase = .error)

/-- The number of an error code (R22, R250). -/
def errNumber : ErrCode → BitVec 2
  | .none => 0
  | .eoi => 1
  | .fmt => 2
  | .alloc => 3

/-- The status outputs, one field for each row of R35's table. -/
structure Status where
  busy : Bool
  done : Bool
  error : Bool
  errCode : BitVec 2
  hdrValid : Bool
  hdrWidth : Word32
  hdrHeight : Word32
  hdrChannels : Byte
  hdrColorspace : Byte
  totalPixels : Word64
  pixelsWritten : Word64
  bytesConsumed : Word64
  deriving DecidableEq, Repr

/-- What the status outputs show (R35). -/
def status (s : State) : Status where
  busy := busy s
  done := doneOut s
  error := errorOut s
  errCode := errNumber s.errCode
  hdrValid := s.hdrValid
  hdrWidth := s.hdrWidth
  hdrHeight := s.hdrHeight
  hdrChannels := s.hdrChannels
  hdrColorspace := s.hdrColorspace
  totalPixels := s.totalPixels
  pixelsWritten := s.pixelsWritten
  bytesConsumed := s.inCount

end Sys2Proof.Machine
end

