-- ==== Sys2Proof/Machine/TagPayload.lean ====
section
/-! DEFINITION. The chunk tag decoder and the payload extractor (spec/42_tag_payload.md), bit by bit through the
bit source. -/

namespace Sys2Proof.Machine

/-- A chunk's kind, as the tag decoder names it (R141). -/
inductive ChunkKind where
  | index | diff | luma | run | rgb | rgba
  deriving DecidableEq, Repr

/-- `DecodeTag()` (R141): two bits; for `11` a checkpoint, six more bits, and a restore unless they are one of the
two super-tags. -/
def decodeTag (s : State) : Ret ChunkKind :=
  (readBits 2 s).andThen fun t s =>
    if t = 0b00 then .ok .index s
    else if t = 0b01 then .ok .diff s
    else if t = 0b10 then .ok .luma s
    else
      let ckInCount := s.inCount
      (readBits 6 (checkpoint s)).andThen fun x s =>
        if x = 0b111110 then .ok .rgb s
        else if x = 0b111111 then .ok .rgba s
        else (restore ckInCount s).andThen fun _ s => .ok .run s

/-- Payload of INDEX (R144). -/
def payloadIndex (s : State) : Ret Instr :=
  (readBits 6 s).andThen fun idx s => .ok (.index (idx.setWidth 6)) s

/-- Payload of DIFF (R145). -/
def payloadDiff (s : State) : Ret Instr :=
  (readBits 2 s).andThen fun dr s =>
  (readBits 2 s).andThen fun dg s =>
  (readBits 2 s).andThen fun db s => .ok (.diff (dr.setWidth 2) (dg.setWidth 2) (db.setWidth 2)) s

/-- Payload of LUMA (R146). -/
def payloadLuma (s : State) : Ret Instr :=
  (readBits 6 s).andThen fun dg s =>
  (readBits 4 s).andThen fun drDg s =>
  (readBits 4 s).andThen fun dbDg s => .ok (.luma (dg.setWidth 6) (drDg.setWidth 4) (dbDg.setWidth 4)) s

/-- Payload of RGB (R147). -/
def payloadRgb (s : State) : Ret Instr :=
  (readBits 8 s).andThen fun r s =>
  (readBits 8 s).andThen fun g s =>
  (readBits 8 s).andThen fun b s => .ok (.rgb r g b) s

/-- Payload of RGBA (R148). -/
def payloadRgba (s : State) : Ret Instr :=
  (readBits 8 s).andThen fun r s =>
  (readBits 8 s).andThen fun g s =>
  (readBits 8 s).andThen fun b s =>
  (readBits 8 s).andThen fun a s => .ok (.rgba r g b a) s

/-- Payload of RUN (R149): the six bits the restore made readable again. -/
def payloadRun (s : State) : Ret Instr :=
  (readBits 6 s).andThen fun length s => .ok (.run (length.setWidth 6)) s

/-- `ExtractPayload(kind)` (R143): one arm for each kind. -/
def extractPayload (kind : ChunkKind) (s : State) : Ret Instr :=
  match kind with
  | .index => payloadIndex s
  | .diff => payloadDiff s
  | .luma => payloadLuma s
  | .run => payloadRun s
  | .rgb => payloadRgb s
  | .rgba => payloadRgba s

/-- `DecodeChunk()` (R140). -/
def fetchChunk (s : State) : Ret Instr :=
  (decodeTag s).andThen fun kind s => extractPayload kind s

end Sys2Proof.Machine
end

