-- ==== Sys2Proof/Machine/Driver.lean ====
section
/-! DEFINITION. The decode driver (spec/45_driver.md): the block's step, the control inputs around it, and the
placing of one instruction where the next step fetches. -/

namespace Sys2Proof.Machine

/-- A chunk whose bytes are taken runs, or waits: every chunk emits a pixel, so a host that takes none leaves the
block waiting (R293; log 4). -/
def execWhenReady (before : State) (i : Instr) (t : State) : Host.Outcome State Fault Refusal :=
  if t.env.pxReady then exec i t else .next (waitAt before t)

/-- `Step()` (R221) with the control inputs low: the header in HEADER, one chunk in DECODING; in IDLE, DONE and
ERROR the block waits and its state stays as it is (R221; log 3). -/
def blockStep (s : State) : Host.Outcome State Fault Refusal :=
  match s.phase with
  | .header => (fetchHeader (resumed s)).into (resumed s) fun i t => exec i t
  | .decoding => (fetchChunk (resumed s)).into (resumed s) fun i t => execWhenReady (resumed s) i t
  | .idle | .done | .error => .next s

/-- How many bytes an operation that began in `before` takes until it completes, raises or waits. -/
def Ret.taken {α : Type} (r : Ret α) (before : State) : Nat :=
  match r with
  | .ok _ t | .raised t | .waits t => t.inCount.toNat - before.inCount.toNat
  | .fault _ => 0

/-- How many bytes the block's step takes (R34). -/
def stepTakes (s : State) : Nat :=
  match s.phase with
  | .header => (fetchHeader (resumed s)).taken (resumed s)
  | .decoding => (fetchChunk (resumed s)).taken (resumed s)
  | .idle | .done | .error => 0

/-- How many bytes the step under way has taken when an `rst` arrives: those it holds while it waits, or those the
sample says it had taken, which are at most all it takes (R280; log 20). -/
def cutTaken (cut : Nat) (s : State) : Nat := max s.env.held (min cut (stepTakes s))

/-- One sample of the control inputs before the block's own step: `rst` wins over everything (R259, R280); `start`
acts only when no decode runs (R220); both are otherwise without effect. -/
def controlStep (c : Ctl) (s : State) : Host.Outcome State Fault Refusal :=
  if c.rst then .next (applyReset (cutTaken c.cut s) s)
  else if c.start && !busy s then .next (start c.stream s)
  else blockStep s

/-- The samples of the control inputs that are left. -/
def setCtl (ctl : List Ctl) (s : State) : State := { s with env := { s.env with ctl := ctl } }

/-- One step: the next sample of the control inputs is used up, and both are low when none is left (log 2). -/
def driverStep (s : State) : Host.Outcome State Fault Refusal :=
  match s.env.ctl with
  | [] => blockStep s
  | c :: rest => controlStep c (setCtl rest s)

/-- The host's side for a step that must run: both control inputs low, the end of the stream signalled, pixels
taken, no step that waits, and these bytes as the stream. -/
def readyEnv (bytes : Memory) (e : Env) : Env :=
  { e with input := bytes, inEos := true, pxReady := true, ctl := [], held := 0 }

/-- The machine in phase HEADER with a header at offset 0 of its stream: what `Start()` leaves (R220). -/
def placeHeader (bytes : List Byte) (s : State) : State :=
  let t := start none s
  { t with env := readyEnv bytes t.env }

/-- The header of an 8 × 8 image, 4 channels, colorspace 0. -/
def probeHeader : Instr := .hdr 8 8 4 0

/-- The machine in phase DECODING, 64 pixels owed, as it stands after the header of an 8 × 8 image, with a chunk
at offset 14 of its stream (R70). -/
def placeFirstChunk (bytes : List Byte) (s : State) : State :=
  let t := start none s
  { t with
    phase := .decoding
    hdrWidth := 8
    hdrHeight := 8
    hdrChannels := 4
    hdrColorspace := 0
    hdrValid := true
    totalPixels := 64
    inCount := 14
    env := readyEnv (encode probeHeader ++ bytes) t.env }

/-- The machine with a chunk where it fetches next: in a running decode the bytes from `in_count` on, otherwise a
decode that has just taken its header. -/
def placeChunk (bytes : List Byte) (s : State) : State :=
  if s.phase = .decoding ∧ s.pixelsWritten < s.totalPixels ∧ s.inCount.toNat ≤ s.env.input.length then
    { s with bsCnt := 0, env := readyEnv (s.env.input.take s.inCount.toNat ++ bytes) s.env }
  else placeFirstChunk bytes s

/-- An instruction's bits, numbered as spec/opcode_table.json numbers them, where the next step fetches (log 11,
log 12). -/
def placeWord (nbits w : Nat) (s : State) : State :=
  let word := w % 2 ^ nbits
  if isHeaderWord nbits word then placeHeader (headerWordBytes word) s
  else placeChunk (chunkWordBytes word) s

end Sys2Proof.Machine
end

