-- ==== Sys2Proof/Machine/Step.lean ====
section
/-! DEFINITION. The step of the machine. -/

namespace Sys2Proof.Machine

/-- One step (R221, with the control inputs of R259). -/
def step (s : State) : Host.Outcome State Fault Refusal := driverStep s

/-- The state with that instruction stored where `step` fetches its next instruction, so that the very next step
runs it: its bits are numbered as spec/opcode_table.json numbers them (log 11, log 12). -/
def State.withFetchWord (s : State) (nbits w : Nat) : State := placeWord nbits w s

end Sys2Proof.Machine
end

