-- ==== Sys2Proof/Machine/Ports.lean ====
section
/-! DEFINITION. The port outputs (R38, R39): functions of the state between two steps, while a step waits for its
host among them. -/

namespace Sys2Proof.Machine

/-- The port word of a pixel: r in bits 31..24, g in 23..16, b in 15..8, a in 7..0 (R39). -/
def pxWord (p : Pixel) : Word32 := p.r ++ p.g ++ p.b ++ p.a

/-- The words the pixel port has carried in this decode, in order: one transfer for each `Emit` (R32, R39). -/
def pxTransfers (s : State) : List Word32 := s.out.map pxWord

/-- The first pixel that an instruction emits in this state (R224). -/
def firstPixel (i : Instr) (s : State) : Option Pixel :=
  match exec i s with
  | .next t => t.out[s.out.length]?
  | .fault _ | .refused _ => none

/-- The pixel that waits for the host (R293): the step holds every byte of its chunk, so what it waits for is no
byte, and the chunk's first pixel is next. -/
def waitingPixel (s : State) : Option Pixel :=
  match s.phase with
  | .decoding =>
    match fetchChunk (resumed s) with
    | .ok i t => if t.inCount.toNat - s.inCount.toNat = s.env.held then firstPixel i t else none
    | .raised _ | .waits _ | .fault _ => none
  | .idle | .header | .done | .error => none

/-- `in_ready` (R38), raised only while a `FetchByte()` waits: what a busy block does next is fetch a byte, unless a
pixel waits (R293); in every other phase it takes no input (R227, R255, R281). DEDUCED (log 7). -/
def inReady (s : State) : Bool := busy s && (waitingPixel s).isNone

/-- `px_valid` (R39): a pixel waits for the host; every other pixel of a step has been transferred (R204). DEDUCED
(log 7). -/
def pxValid (s : State) : Bool := (waitingPixel s).isSome

/-- `px_data` (R39): the pixel that waits; any value while `px_valid` is 0 (R40, I3). -/
def pxData (s : State) : Word32 :=
  match waitingPixel s with
  | some p => pxWord p
  | none => Config.pxDataIdle s.out.length

end Sys2Proof.Machine
end

