-- ==== Sys2Proof/Safety.lean ====
section
/-! DEFINITION. The terms in which claims about the block are made: what the end of a decode shows (R231), a whole
decode as one function (R233), the state in which an instruction's bytes are taken, and the invariant of the step
boundaries. -/

namespace Sys2Proof.Machine

/-! ### The end of a decode -/

/-- The decode has ended (R231). -/
def ended (s : State) : Bool := decide (s.phase = .done ∨ s.phase = .error)

/-- What is observed at the end of a decode: R231's list, and nothing else of the state. -/
structure Obs where
  phase : Phase
  errCode : ErrCode
  out : List Pixel
  hdrValid : Bool
  hdrWidth : Word32
  hdrHeight : Word32
  hdrChannels : Byte
  hdrColorspace : Byte
  totalPixels : Word64
  inCount : Word64
  deriving DecidableEq, Repr

/-- The observation of a state (R231). -/
def observe (s : State) : Obs where
  phase := s.phase
  errCode := s.errCode
  out := s.out
  hdrValid := s.hdrValid
  hdrWidth := s.hdrWidth
  hdrHeight := s.hdrHeight
  hdrChannels := s.hdrChannels
  hdrColorspace := s.hdrColorspace
  totalPixels := s.totalPixels
  inCount := s.inCount

/-- The image of a decode: its pixels when it ends in DONE, and nothing otherwise (R256). -/
def image (s : State) : Option (List Pixel) := if s.phase = .done then some s.out else none

/-- A host that meets its duties during the coming steps and leaves both control inputs low: it answers every byte
request (R292) and takes every pixel (R293). -/
def hostServes (s : State) : Prop := s.env.ctl = [] ∧ s.env.inEos = true ∧ s.env.pxReady = true

/-! ### A whole decode (R233) -/

/-- The state a decode of `input` begins in, `Start()` taken after reset: phase HEADER, offset 0 (R220, R233). -/
def startState (input : Memory) (maxPixels : Word64) : State :=
  start (some input) { State.reset with env := { Env.reset with maxPixels := maxPixels } }

/-- `Decode(input, MAX_PIXELS)` (R233): steps from `startState`, enough of them for every decode to end (R230: one
header step and at most one chunk step for each byte, and one that finds no byte). -/
def decodeAll (input : Memory) (maxPixels : Word64) : Host.Outcome State Fault Refusal :=
  Host.Core.run Sys2Proof.core (input.length + 1) (startState input maxPixels)

/-! ### Taking an instruction's bytes -/

/-- The checkpoint an instruction's fetch leaves: a first byte `11xxxxxx` is checkpointed with six bits unread
(R108, R141). -/
def checkpointOf (i : Instr) (s : State) : Byte × Fin 9 :=
  match i with
  | .index _ => (s.ckBuf, s.ckCnt)
  | .diff _ _ _ => (s.ckBuf, s.ckCnt)
  | .luma _ _ _ => (s.ckBuf, s.ckCnt)
  | .run length => ((0b11 : BitVec 2) ++ length, 6)
  | .rgb _ _ _ => (0xFE, 6)
  | .rgba _ _ _ _ => (0xFF, 6)
  | .hdr _ _ _ _ => (s.ckBuf, s.ckCnt)

/-- The state with an instruction's bytes taken and nothing else done: `in_count` has moved by its length (R34),
the bit source holds its last byte with no bit unread (R102, R108), and the checkpoint is that of its tag (R141). -/
def afterFetch (i : Instr) (s : State) : State :=
  { s with
    inCount := s.inCount + BitVec.ofNat 64 i.byteLength
    bsBuf := (encode i).getLastD 0
    bsCnt := 0
    ckBuf := (checkpointOf i s).1
    ckCnt := (checkpointOf i s).2 }

/-- The bytes of the stream that are not taken yet. -/
def pendingBytes (s : State) : List Byte := s.env.input.drop s.inCount.toNat

/-- The bytes of the stream the host has not given yet: those after what is taken and what a step that waits
holds (R57, R285). -/
def ungivenBytes (s : State) : List Byte := streamAfter s.env.held s

/-- Phase and instruction fit: the header in HEADER (R120), a chunk in DECODING (R140). -/
def standsIn (i : Instr) (s : State) : Prop :=
  s.phase = if i.isHeader then .header else .decoding

/-! ### The bits of the stream (R53, R102) -/

/-- The low `n` bits of a byte, the most significant of them first. -/
def lowBits (v : Byte) (n : Nat) : List Bool := ((List.range n).map v.getLsbD).reverse

/-- Every bit not read yet, in stream order: the unread bits of the buffered byte, then the bytes not taken, each
most significant bit first (R28, R53). -/
def pendingBits (s : State) : List Bool :=
  lowBits s.bsBuf s.bsCnt.val ++ (pendingBytes s).flatMap fun b => lowBits b 8

/-! ### What reset, a start and an error leave -/

/-- The table of R40, row by row; the rows it leaves unspecified (`chunk`, `px_data`) are not constrained. -/
structure ResetValues (s : State) : Prop where
  phase : s.phase = .idle
  errCode : s.errCode = .none
  hdrWidth : s.hdrWidth = 0
  hdrHeight : s.hdrHeight = 0
  hdrChannels : s.hdrChannels = 0
  hdrColorspace : s.hdrColorspace = 0
  hdrValid : s.hdrValid = false
  totalPixels : s.totalPixels = 0
  pixelsWritten : s.pixelsWritten = 0
  inCount : s.inCount = 0
  prev : s.prev = ⟨0, 0, 0, 255⟩
  cache : ∀ i : Slot, readSlot i s = ⟨0, 0, 0, 0⟩
  bsBuf : s.bsBuf = 0
  ckBuf : s.ckBuf = 0
  bsCnt : s.bsCnt = 0
  ckCnt : s.ckCnt = 0
  out : s.out = []
  inReady : inReady s = false
  pxValid : pxValid s = false

/-- The assignments of `Start()`, row by row (R220). -/
structure StartValues (s : State) : Prop where
  phase : s.phase = .header
  errCode : s.errCode = .none
  hdrWidth : s.hdrWidth = 0
  hdrHeight : s.hdrHeight = 0
  hdrChannels : s.hdrChannels = 0
  hdrColorspace : s.hdrColorspace = 0
  hdrValid : s.hdrValid = false
  totalPixels : s.totalPixels = 0
  pixelsWritten : s.pixelsWritten = 0
  inCount : s.inCount = 0
  out : s.out = []
  prev : s.prev = ⟨0, 0, 0, 255⟩
  cache : ∀ i : Slot, readSlot i s = ⟨0, 0, 0, 0⟩
  bsBuf : s.bsBuf = 0
  bsCnt : s.bsCnt = 0
  ckBuf : s.ckBuf = 0
  ckCnt : s.ckCnt = 0

/-- The decode has ended in error `e` with `k` bytes taken: a row of R130's table. -/
def failedAt (e : ErrCode) (k : Nat) (t : State) : Prop :=
  t.phase = .error ∧ t.errCode = e ∧ t.inCount.toNat = k

/-! ### The invariant of the step boundaries -/

/-- The decode state as reset and `Start()` both leave it (R282, R220). -/
structure AtStart (s : State) : Prop where
  hdrWidth : s.hdrWidth = 0
  hdrHeight : s.hdrHeight = 0
  hdrChannels : s.hdrChannels = 0
  hdrColorspace : s.hdrColorspace = 0
  hdrValid : s.hdrValid = false
  totalPixels : s.totalPixels = 0
  pixelsWritten : s.pixelsWritten = 0
  inCount : s.inCount = 0
  out : s.out = []
  prev : s.prev = .opaqueBlack
  cache : s.cache = Vector.replicate 64 .transparent

/-- A header that was accepted (R121, R127). -/
structure HeaderAccepted (s : State) : Prop where
  channels : Instr.channelsOk s.hdrChannels = true
  colorspace : Instr.colorspaceOk s.hdrColorspace = true
  total : s.totalPixels = pixelCount s.hdrWidth s.hdrHeight
  limit : s.totalPixels ≤ s.env.maxPixels
  taken : 14 ≤ s.inCount.toNat

/-- The invariant of the step boundaries. -/
structure Inv (s : State) : Prop where
  /-- The model's streams are shorter than 2^64 bytes (R30). -/
  streamWf : Memory.wf s.env.input = true
  /-- So is every stream the host positions for a later decode (R30). -/
  ctlWf : ∀ c ∈ s.env.ctl, ∀ m, c.stream = some m → Memory.wf m = true
  /-- No byte past the end is taken (R101). -/
  taken : s.inCount.toNat ≤ s.env.input.length
  /-- The bytes held are bytes of the step under way; no bytes are held where none is (R292, R293). -/
  waiting : s.env.held ≤ stepTakes s
  /-- No bit is left over between steps (R42, R108). -/
  aligned : s.bsCnt = 0
  /-- `pixels_written` counts the pixels emitted (R25, R229). -/
  counted : s.pixelsWritten.toNat = s.out.length
  /-- No pixel too many (R229). -/
  bounded : s.pixelsWritten ≤ s.totalPixels
  /-- In DECODING a pixel is owed (R21, R229). -/
  owing : s.phase = .decoding → s.pixelsWritten < s.totalPixels
  /-- In DONE none is (R21, R225). -/
  complete : s.phase = .done → s.pixelsWritten = s.totalPixels
  /-- The error code is set in ERROR and only there (R22). -/
  errors : s.phase = .error ↔ s.errCode ≠ .none
  /-- A chunk is decoded, and a decode is done, only after an accepted header (R127, R228). -/
  accepted : s.phase = .decoding ∨ s.phase = .done → s.hdrValid = true
  /-- What an accepted header is (R127). -/
  header : s.hdrValid = true → HeaderAccepted s
  /-- In IDLE and HEADER nothing is decoded yet (R120, R281, R282). -/
  fresh : s.phase = .idle ∨ s.phase = .header → AtStart s
  /-- Every slot holds the never-written pixel or one that hashes to it (R178). -/
  slots : ∀ i : Slot, readSlot i s = .transparent ∨ pixelHash (readSlot i s) = i

end Sys2Proof.Machine
end

