-- ==== Sys2Proof/Certificates/Slice0/Obligations.lean ====
section
/-! DEFINITION. The statements for the provers. Each says in its docstring which rule of spec/ it formalises, or
which log entry (notes/assumptions/<n>.md) it rests on where it is the model's own choice. -/

open Sys2Proof Sys2Proof.Machine

/-! ### Reset, the control inputs, and the waiting phases -/

/-- R40: the reset values, in the state right after reset and in the state after an `rst` in any state. -/
def Obligations.ResetLeavesTheResetValues : Prop :=
  ResetValues State.reset ∧
  ∀ (s : State) (c : Ctl) (rest : List Ctl), s.env.ctl = c :: rest → c.rst = true →
    ∃ t, step s = .next t ∧ ResetValues t

/-- `rst` wins over `start` and over any step; `start` acts only when no decode is running, and is otherwise as if
it were low (derived; R259, R280, R220). R259 does not say what an `rst` leaves of the bytes a step had taken, nor the
chunk latch: those parts of `applyReset`, `cutTaken` and `start` are the model's log 20, log 8 and log 5. -/
def Obligations.RstWinsAndStartActsOnlyWhenNoDecodeRuns : Prop :=
  ∀ (s : State) (c : Ctl) (rest : List Ctl), s.env.ctl = c :: rest →
    (c.rst = true → step s = .next (applyReset (cutTaken c.cut (setCtl rest s)) (setCtl rest s))) ∧
    (c.rst = false → c.start = true → s.phase ≠ .header → s.phase ≠ .decoding →
      step s = .next (start c.stream (setCtl rest s))) ∧
    (c.rst = false → c.start = true → s.phase = .header ∨ s.phase = .decoding →
      step s = step (setCtl (⟨false, false, none, 0⟩ :: rest) s))

/-- R220: in IDLE, DONE and ERROR a `start` sets the decode state; in HEADER and DECODING it is ignored: the step
is the one taken with `start` low. -/
def Obligations.StartSetsTheDecodeState : Prop :=
  ∀ (s : State) (c : Ctl) (rest : List Ctl), s.env.ctl = c :: rest → c.rst = false → c.start = true →
    (s.phase = .idle ∨ s.phase = .done ∨ s.phase = .error → ∃ t, step s = .next t ∧ StartValues t) ∧
    (s.phase = .header ∨ s.phase = .decoding →
      step s = step (setCtl (⟨false, false, none, 0⟩ :: rest) s))

/-- The stream a new decode reads (derived; R285 and R283 step 3; the model's log 8): the stream the host has
positioned, or the bytes the host has not given yet, whose first becomes offset 0. An `rst` leaves the bytes after
those already taken: all before `in_count`, and of the step under way those it holds while it waits, or those its
sample says it had taken, at most all it takes (R57; the model's log 20). -/
def Obligations.NewDecodesReadTheHostsNextBytes : Prop :=
  ∀ (s : State) (c : Ctl) (rest : List Ctl), s.env.ctl = c :: rest →
    (c.rst = true → ∃ t, step s = .next t ∧ t.inCount = 0 ∧ t.env.held = 0 ∧ t.env.ctl = rest ∧
      t.env.input = s.env.input.drop
        (s.inCount.toNat + max s.env.held (min c.cut (stepTakes (setCtl rest s))))) ∧
    (c.rst = false → c.start = true → s.phase ≠ .header → s.phase ≠ .decoding →
      ∃ t, step s = .next t ∧ t.inCount = 0 ∧ t.env.held = 0 ∧ t.env.ctl = rest ∧
        (c.stream = none → t.env.input = ungivenBytes s) ∧
        (∀ m, c.stream = some m → t.env.input = m))

/-- In IDLE, DONE and ERROR, with both control inputs low, nothing changes (R221 "there is no step: the block is
quiescent"; the model's log 3 answers this with the same state). -/
def Obligations.QuiescentPhasesWait : Prop :=
  ∀ s : State, s.env.ctl = [] → s.phase = .idle ∨ s.phase = .done ∨ s.phase = .error → step s = .next s

/-- R260: there is no return from an error. ERROR is left only by `start`, which begins a new decode and clears
`err_code`, or by `rst`; otherwise nothing runs in it. -/
def Obligations.ErrorIsLeftOnlyByStartOrRst : Prop :=
  ∀ s : State, s.phase = .error → ∃ t, step s = .next t ∧
    ((∃ c rest, s.env.ctl = c :: rest ∧ c.rst = true ∧ t.phase = .idle ∧ t.errCode = .none) ∨
     (∃ c rest, s.env.ctl = c :: rest ∧ c.rst = false ∧ c.start = true ∧ t.phase = .header ∧ t.errCode = .none) ∨
     (t = { s with env := { s.env with ctl := s.env.ctl.tail } } ∧
       ∀ c rest, s.env.ctl = c :: rest → c.rst = false ∧ c.start = false))

/-! ### The bit source -/

/-- R101: `FetchByte()` takes the byte at `in_count`, or raises `UnexpectedEndOfInput` with `in_count` unchanged. -/
def Obligations.FetchByteTakesTheNextByte : Prop :=
  ∀ s : State,
    (∀ h : s.inCount.toNat < s.env.input.length,
      fetchByte s = .ok (s.env.input[s.inCount.toNat]'h) { s with inCount := s.inCount + 1 }) ∧
    (s.env.input.length ≤ s.inCount.toNat → s.env.inEos = true →
      fetchByte s = .raised { s with phase := .error, errCode := .eoi })

/-- R102: both branches of `ReadBits(n)` and its error. -/
def Obligations.ReadBitsFollowsItsTwoBranches : Prop :=
  ∀ (n : Nat) (s : State), 1 ≤ n → n ≤ 8 →
    (n ≤ s.bsCnt.val →
      readBits n s = .ok (BitVec.ofNat 8 (s.bsBuf.toNat / 2 ^ (s.bsCnt.val - n) % 2 ^ n))
        { s with bsCnt := Fin.ofNat 9 (s.bsCnt.val - n) }) ∧
    (s.bsCnt.val < n → ∀ b, s.env.input[s.inCount.toNat]? = some b →
      readBits n s = .ok
        (BitVec.ofNat 8 (s.bsBuf.toNat % 2 ^ s.bsCnt.val * 2 ^ (n - s.bsCnt.val) +
          b.toNat / 2 ^ (8 - (n - s.bsCnt.val))))
        { s with inCount := s.inCount + 1, bsBuf := b, bsCnt := Fin.ofNat 9 (8 - (n - s.bsCnt.val)) }) ∧
    (s.bsCnt.val < n → s.env.input[s.inCount.toNat]? = none → s.env.inEos = true →
      readBits n s = .raised { s with phase := .error, errCode := .eoi })

/-- The same operation as a stream of bits (derived; R53 and R102 "the next `n` bits, most-significant-bit
first"): the value's low n bits are the next n of the stream, its other bits are 0, and exactly those n bits are
gone; with fewer than n bits left and the end signalled it raises. -/
def Obligations.ReadBitsReturnsTheNextBitsOfTheStream : Prop :=
  ∀ (n : Nat) (s : State), 1 ≤ n → n ≤ 8 → Memory.wf s.env.input = true →
    (n ≤ (pendingBits s).length →
      ∃ v t, readBits n s = .ok v t ∧ v.toNat < 2 ^ n ∧ lowBits v n = (pendingBits s).take n ∧
        pendingBits t = (pendingBits s).drop n ∧
        t = { s with bsBuf := t.bsBuf, bsCnt := t.bsCnt, inCount := t.inCount }) ∧
    ((pendingBits s).length < n → s.env.inEos = true →
      readBits n s = .raised { s with phase := .error, errCode := .eoi })

/-- R103: a width outside 1..8 has no meaning, and this block never asks for one: no step from a step boundary
stops so. -/
def Obligations.ReadBitsOutsideOneToEightFaults : Prop :=
  (∀ (n : Nat) (s : State), n = 0 ∨ 8 < n → readBits n s = .fault .readBitsWidth) ∧
  ∀ s : State, Memory.wf s.env.input = true → s.bsCnt = 0 → step s ≠ .fault .readBitsWidth

/-- R104 and R105: `Checkpoint` saves the buffered byte and count; `Restore` brings back the saved ones when no
byte was taken since, and otherwise has no meaning; no step from a step boundary stops so. -/
def Obligations.RestoreBringsBackTheCheckpoint : Prop :=
  (∀ (s : State) (ckInCount : Word64),
    checkpoint s = { s with ckBuf := s.bsBuf, ckCnt := s.bsCnt } ∧
    (s.inCount = ckInCount → restore ckInCount s = .ok () { s with bsBuf := s.ckBuf, bsCnt := s.ckCnt }) ∧
    (s.inCount ≠ ckInCount → restore ckInCount s = .fault .restoreAcrossFetch)) ∧
  ∀ s : State, Memory.wf s.env.input = true → s.bsCnt = 0 → step s ≠ .fault .restoreAcrossFetch

/-- From a step boundary every step answers a next state and ends at one: it never faults or refuses, and leaves
no bit unread (derived; R108). -/
def Obligations.StepsCompleteAndLeaveNoBitUnread : Prop :=
  ∀ s : State, Memory.wf s.env.input = true → s.bsCnt = 0 → ∃ t, step s = .next t ∧ t.bsCnt = 0

/-! ### The header -/

/-- HDR on legal operands within the limit: its whole effect (derived; R121, R127). -/
def Obligations.HdrAcceptsALegalHeader : Prop :=
  ∀ (w h : Word32) (c cs : Byte) (s : State), c = 3 ∨ c = 4 → cs = 0 ∨ cs = 1 →
    w.setWidth 64 * h.setWidth 64 ≤ s.env.maxPixels →
    exec (.hdr w h c cs) s = .next { s with
      hdrWidth := w, hdrHeight := h, hdrChannels := c, hdrColorspace := cs,
      totalPixels := w.setWidth 64 * h.setWidth 64, hdrValid := true,
      phase := if w = 0 ∨ h = 0 then .done else .decoding }

/-- HDR on operands it does not accept: which error, and what is written before it (derived; R121, R125 to
R127). -/
def Obligations.HdrRaisesOnIllegalFields : Prop :=
  ∀ (w h : Word32) (c cs : Byte) (s : State),
    (c ≠ 3 → c ≠ 4 →
      exec (.hdr w h c cs) s = .next { s with
        hdrWidth := w, hdrHeight := h, hdrChannels := c, phase := .error, errCode := .fmt }) ∧
    (c = 3 ∨ c = 4 → cs ≠ 0 → cs ≠ 1 →
      exec (.hdr w h c cs) s = .next { s with
        hdrWidth := w, hdrHeight := h, hdrChannels := c, hdrColorspace := cs, phase := .error,
        errCode := .fmt }) ∧
    (c = 3 ∨ c = 4 → cs = 0 ∨ cs = 1 → s.env.maxPixels < w.setWidth 64 * h.setWidth 64 →
      exec (.hdr w h c cs) s = .next { s with
        hdrWidth := w, hdrHeight := h, hdrChannels := c, hdrColorspace := cs,
        totalPixels := w.setWidth 64 * h.setWidth 64, phase := .error, errCode := .alloc })

/-- R127: bytes 0 to 13 of a legal header are taken, exactly 14 of them; the pixel count is set; above
`MAX_PIXELS` it raises `AllocationFailure`, otherwise the header is valid and the phase follows the count. Width
and height are the big-endian values as encoded. -/
def Obligations.HeaderStepAcceptsExactlyFourteenBytes : Prop :=
  ∀ (s : State) (w h : Word32) (c cs : Byte) (rest : List Byte),
    s.env.ctl = [] → s.phase = .header → s.bsCnt = 0 → Memory.wf s.env.input = true →
    c = 3 ∨ c = 4 → cs = 0 ∨ cs = 1 →
    pendingBytes s = encode (.hdr w h c cs) ++ rest →
    ∃ t, step s = .next t ∧ t.inCount = s.inCount + 14 ∧ pendingBytes t = rest ∧
      t.hdrWidth = w ∧ t.hdrHeight = h ∧ t.hdrChannels = c ∧ t.hdrColorspace = cs ∧
      t.totalPixels.toNat = w.toNat * h.toNat ∧
      (s.env.maxPixels.toNat < w.toNat * h.toNat → t.phase = .error ∧ t.errCode = .alloc) ∧
      (w.toNat * h.toNat ≤ s.env.maxPixels.toNat → t.hdrValid = true ∧ t.errCode = s.errCode ∧
        t.phase = if w.toNat * h.toNat = 0 then .done else .decoding)

/-- The seven ways a header fails, with the bytes taken and the error code of each (derived: the spec's own
inference R130). -/
def Obligations.HeaderFailuresTakeTheTabledBytes : Prop :=
  ∀ s : State, s.env.ctl = [] → s.env.inEos = true → s.phase = .header → s.bsCnt = 0 → s.inCount = 0 →
    Memory.wf s.env.input = true →
    ∃ t, step s = .next t ∧
      (s.env.input.length < 4 → failedAt .eoi s.env.input.length t) ∧
      (4 ≤ s.env.input.length → s.env.input.take 4 ≠ [0x71, 0x6F, 0x69, 0x66] → failedAt .fmt 4 t) ∧
      (s.env.input.take 4 = [0x71, 0x6F, 0x69, 0x66] →
        (s.env.input.length < 13 → failedAt .eoi s.env.input.length t) ∧
        (∀ c, s.env.input[12]? = some c → c ≠ 3 → c ≠ 4 → failedAt .fmt 13 t) ∧
        (∀ c, s.env.input[12]? = some c → c = 3 ∨ c = 4 →
          (s.env.input.length = 13 → failedAt .eoi 13 t) ∧
          (∀ cs, s.env.input[13]? = some cs → cs ≠ 0 → cs ≠ 1 → failedAt .fmt 14 t))) ∧
      (∀ w h c cs rest, s.env.input = encode (.hdr w h c cs) ++ rest → c = 3 ∨ c = 4 → cs = 0 ∨ cs = 1 →
        s.env.maxPixels.toNat < w.toNat * h.toNat → failedAt .alloc 14 t)

/-- A zero width or height is legal; the decode goes straight to DONE, reads no chunk byte and emits no pixel,
whatever follows in the stream (derived: the spec's own inference R128). -/
def Obligations.ZeroSizedImageIsDoneAfterTheHeader : Prop :=
  ∀ (w h : Word32) (c cs : Byte) (rest : List Byte) (maxPixels : Word64),
    c = 3 ∨ c = 4 → cs = 0 ∨ cs = 1 → w = 0 ∨ h = 0 →
    Memory.wf (encode (.hdr w h c cs) ++ rest) = true →
    ∃ t, decodeAll (encode (.hdr w h c cs) ++ rest) maxPixels = .next t ∧
      t.phase = .done ∧ t.errCode = .none ∧ t.out = [] ∧ t.inCount = 14 ∧ t.totalPixels = 0

/-- The channel count and the colorspace do not change how any chunk decodes (R129): two streams that differ in
those two header bytes only, both legal, decode to the same pixels, end and position. -/
def Obligations.ChannelsAndColorspaceDoNotChangeDecoding : Prop :=
  ∀ (w h : Word32) (c cs c' cs' : Byte) (rest : List Byte) (maxPixels : Word64),
    c = 3 ∨ c = 4 → cs = 0 ∨ cs = 1 → c' = 3 ∨ c' = 4 → cs' = 0 ∨ cs' = 1 →
    Memory.wf (encode (.hdr w h c cs) ++ rest) = true →
    ∃ t t', decodeAll (encode (.hdr w h c cs) ++ rest) maxPixels = .next t ∧
      decodeAll (encode (.hdr w h c' cs') ++ rest) maxPixels = .next t' ∧
      t'.out = t.out ∧ t'.phase = t.phase ∧ t'.errCode = t.errCode ∧ t'.inCount = t.inCount ∧
      t'.prev = t.prev ∧ t'.cache = t.cache

/-- R24: the pixel count is the product in the integers, it fits, and no chunk writes it. -/
def Obligations.PixelCountIsTheExactProduct : Prop :=
  (∀ w h : Word32, (pixelCount w h).toNat = w.toNat * h.toNat ∧
    (pixelCount w h).toNat ≤ 2 ^ 64 - 2 ^ 33 + 1) ∧
  (∀ (w h : Word32) (s : State), (acceptHeader w h s).totalPixels = pixelCount w h) ∧
  ∀ (i : Instr) (s t : State), i.isHeader = false → exec i s = .next t → t.totalPixels = s.totalPixels

/-! ### Encoding, tag decoder, payload extractor -/

/-- All 256 first bytes, the kind each selects and the bytes its chunk takes (derived: the spec's own inference
R77, from the tags and fields of R71). -/
def Obligations.FirstByteSelectsTheKind : Prop :=
  ∀ (b0 b1 b2 b3 b4 : Byte) (rest : List Byte),
    (b0.toNat ≤ 0x3F → decodeChunk (b0 :: rest) = .ok (.index (BitVec.ofNat 6 b0.toNat), rest)) ∧
    (0x40 ≤ b0.toNat → b0.toNat ≤ 0x7F → decodeChunk (b0 :: rest) =
      .ok (.diff (BitVec.ofNat 2 (b0.toNat / 16)) (BitVec.ofNat 2 (b0.toNat / 4)) (BitVec.ofNat 2 b0.toNat),
        rest)) ∧
    (0x80 ≤ b0.toNat → b0.toNat ≤ 0xBF → decodeChunk (b0 :: b1 :: rest) =
      .ok (.luma (BitVec.ofNat 6 b0.toNat) (BitVec.ofNat 4 (b1.toNat / 16)) (BitVec.ofNat 4 b1.toNat), rest)) ∧
    (0xC0 ≤ b0.toNat → b0.toNat ≤ 0xFD →
      decodeChunk (b0 :: rest) = .ok (.run (BitVec.ofNat 6 b0.toNat), rest)) ∧
    (b0 = 0xFE → decodeChunk (b0 :: b1 :: b2 :: b3 :: rest) = .ok (.rgb b1 b2 b3, rest)) ∧
    (b0 = 0xFF → decodeChunk (b0 :: b1 :: b2 :: b3 :: b4 :: rest) = .ok (.rgba b1 b2 b3 b4, rest))

/-- Decoding what was encoded gives the instruction back and leaves the bytes after it, for every well-formed
instruction and every operand (derived; R80, R81, R59). -/
def Obligations.DecodingUndoesEncoding : Prop :=
  ∀ (i : Instr) (rest : List Byte), i.wellFormed = true → decodeAs i (encode i ++ rest) = .ok (i, rest)

/-- Encoding what was decoded gives the bytes back, so no bit of a chunk or header is dropped; and what the chunk
decoder gives is well formed (derived; R152, R76, R59). -/
def Obligations.EncodingUndoesDecoding : Prop :=
  ∀ (bytes rest : List Byte) (i : Instr),
    (decodeChunk bytes = .ok (i, rest) → i.isHeader = false ∧ i.wellFormed = true ∧ bytes = encode i ++ rest) ∧
    (decodeHeader bytes = .ok (i, rest) → i.isHeader = true ∧ bytes = encode i ++ rest)

/-- R80: different chunks have different byte strings, a byte string starts one chunk at most, and a Run of raw
length 62 or 63 has no encoding. -/
def Obligations.EncodingIsInjective : Prop :=
  (∀ (i j : Instr) (restI restJ : List Byte), i.isHeader = false → j.isHeader = false →
    i.wellFormed = true → j.wellFormed = true →
    encode i ++ restI = encode j ++ restJ → i = j ∧ restI = restJ) ∧
  ∀ (length : BitVec 6) (bytes rest : List Byte), 62 ≤ length.toNat →
    decodeChunk bytes ≠ .ok (.run length, rest)

/-- The tag decoder and payload extractor, reading bit by bit with checkpoint and restore, take the same bytes and
give the same chunk as the first-byte map; on a short stream they take every byte and raise (derived; R109, R152,
R141 to R149). -/
def Obligations.BitSourceDecodesAsTheByteMap : Prop :=
  ∀ s : State, Memory.wf s.env.input = true → s.bsCnt = 0 →
    (∀ i rest, decodeChunk (pendingBytes s) = .ok (i, rest) →
      fetchChunk s = .ok i (afterFetch i s) ∧ pendingBytes (afterFetch i s) = rest) ∧
    (∀ e, decodeChunk (pendingBytes s) = .error e → s.env.inEos = true →
      ∃ t, fetchChunk s = .raised t ∧ t.phase = .error ∧ t.errCode = .eoi ∧ t.bsCnt = 0 ∧
        t.inCount.toNat = max s.env.input.length s.inCount.toNat)

/-- A stream that ends inside a chunk, with k bytes of it left, takes those k bytes and raises
`UnexpectedEndOfInput`; a chunk of one byte can only fail at k = 0 (derived: the spec's own inference R151). -/
def Obligations.TruncatedChunkTakesWhatIsLeftAndRaises : Prop :=
  ∀ s : State, s.env.ctl = [] → s.env.inEos = true → s.phase = .decoding → s.bsCnt = 0 →
    Memory.wf s.env.input = true →
    (pendingBytes s = [] → ∃ t, step s = .next t ∧ t.phase = .error ∧ t.errCode = .eoi ∧
      t.inCount = s.inCount) ∧
    (∀ b0 tail, pendingBytes s = b0 :: tail → tail.length + 1 < chunkLength b0 →
      ∃ t, step s = .next t ∧ t.phase = .error ∧ t.errCode = .eoi ∧
        t.inCount.toNat = s.inCount.toNat + (tail.length + 1))

/-- R150: a first byte `11xxxxxx` other than the two super-tags decodes as `Run{xxxxxx}` and takes that one byte;
after the tag the same six bits are readable again. -/
def Obligations.RunRewindRereadsItsSixBits : Prop :=
  ∀ (s : State) (x : BitVec 6) (rest : List Byte), Memory.wf s.env.input = true → s.bsCnt = 0 →
    x ≠ 0b111110 → x ≠ 0b111111 → pendingBytes s = ((0b11 : BitVec 2) ++ x) :: rest →
    (∃ t u, decodeTag s = .ok .run t ∧ t.bsCnt = 6 ∧ t.inCount = s.inCount + 1 ∧
      readBits 6 t = .ok (x.setWidth 8) u ∧ u.inCount = s.inCount + 1) ∧
    ∃ t, fetchChunk s = .ok (.run x) t ∧ t.inCount = s.inCount + 1 ∧ t.bsCnt = 0

/-- The source's worked examples, one word for each kind, and the header of R121's example. -/
def Obligations.WordsDecodeAsTheSpecWritesThem : Prop :=
  decodeChunk [0xFE, 0x01, 0x02, 0x03] = .ok (.rgb 1 2 3, []) ∧
  decodeChunk [0xFF, 0x01, 0x02, 0x03, 0x04] = .ok (.rgba 1 2 3 4, []) ∧
  decodeChunk [0x35] = .ok (.index 53, []) ∧
  decodeChunk [0x4D] = .ok (.diff 0 3 1, []) ∧
  decodeChunk [0xAD, 0xAE] = .ok (.luma 0x2D 0xA 0xE, []) ∧
  decodeChunk [0xD6] = .ok (.run 0x16, []) ∧
  decodeHeader [0x71, 0x6F, 0x69, 0x66, 0, 0, 0, 2, 0, 0, 0, 3, 4, 0] = .ok (.hdr 2 3 4 0, [])

/-! ### The chunks -/

/-- R172: RGB keeps the previous alpha, writes the cache at the new pixel's hash, appends one pixel and makes it
the previous one. The chunk latch and the test for the end are R221's. -/
def Obligations.RgbProducesItsPixelWithThePreviousAlpha : Prop :=
  ∀ (r g b : Byte) (s : State), ∀ p : Pixel, p = ⟨r, g, b, s.prev.a⟩ →
    exec (.rgb r g b) s = .next { s with
      chunk := .rgb r g b, cache := s.cache.set (pixelHash p).toNat p (pixelHash p).isLt, out := s.out ++ [p],
      pixelsWritten := s.pixelsWritten + 1, prev := p,
      phase := if s.pixelsWritten + 1 = s.totalPixels then .done else s.phase }

/-- R173: RGBA takes all four channels from the payload. -/
def Obligations.RgbaProducesItsPixel : Prop :=
  ∀ (r g b a : Byte) (s : State), ∀ p : Pixel, p = ⟨r, g, b, a⟩ →
    exec (.rgba r g b a) s = .next { s with
      chunk := .rgba r g b a, cache := s.cache.set (pixelHash p).toNat p (pixelHash p).isLt, out := s.out ++ [p],
      pixelsWritten := s.pixelsWritten + 1, prev := p,
      phase := if s.pixelsWritten + 1 = s.totalPixels then .done else s.phase }

/-- R174: INDEX repeats the slot verbatim and does not write the cache. -/
def Obligations.IndexProducesTheSlotWithoutACacheWrite : Prop :=
  ∀ (idx : BitVec 6) (s : State),
    exec (.index idx) s = .next { s with
      chunk := .index idx, out := s.out ++ [s.cache[idx.toNat]'idx.isLt],
      pixelsWritten := s.pixelsWritten + 1, prev := s.cache[idx.toNat]'idx.isLt,
      phase := if s.pixelsWritten + 1 = s.totalPixels then .done else s.phase }

/-- R175: DIFF adds deltas of −2..1 to the previous pixel's colours mod 256 and keeps its alpha. -/
def Obligations.DiffAddsItsDeltasModulo256 : Prop :=
  ∀ (dr dg db : BitVec 2) (s : State) (p : Pixel),
    p.r = BitVec.ofInt 8 (s.prev.r.toNat + ((dr.toNat : Int) - 2)) →
    p.g = BitVec.ofInt 8 (s.prev.g.toNat + ((dg.toNat : Int) - 2)) →
    p.b = BitVec.ofInt 8 (s.prev.b.toNat + ((db.toNat : Int) - 2)) →
    p.a = s.prev.a →
    exec (.diff dr dg db) s = .next { s with
      chunk := .diff dr dg db, cache := s.cache.set (pixelHash p).toNat p (pixelHash p).isLt, out := s.out ++ [p],
      pixelsWritten := s.pixelsWritten + 1, prev := p,
      phase := if s.pixelsWritten + 1 = s.totalPixels then .done else s.phase }

/-- R176: LUMA adds the green delta −32..31 to green, and that delta plus −8..7 to red and blue, mod 256, and keeps
the alpha. -/
def Obligations.LumaAddsItsDeltasModulo256 : Prop :=
  ∀ (dg : BitVec 6) (drDg dbDg : BitVec 4) (s : State) (p : Pixel),
    p.r = BitVec.ofInt 8 (s.prev.r.toNat + (((drDg.toNat : Int) - 8) + ((dg.toNat : Int) - 32))) →
    p.g = BitVec.ofInt 8 (s.prev.g.toNat + ((dg.toNat : Int) - 32)) →
    p.b = BitVec.ofInt 8 (s.prev.b.toNat + (((dbDg.toNat : Int) - 8) + ((dg.toNat : Int) - 32))) →
    p.a = s.prev.a →
    exec (.luma dg drDg dbDg) s = .next { s with
      chunk := .luma dg drDg dbDg, cache := s.cache.set (pixelHash p).toNat p (pixelHash p).isLt, out := s.out ++ [p],
      pixelsWritten := s.pixelsWritten + 1, prev := p,
      phase := if s.pixelsWritten + 1 = s.totalPixels then .done else s.phase }

/-- R200: RUN appends min(length + 1, pixels owed) copies of the previous pixel, then writes the cache at its hash,
and leaves the previous pixel; for every raw length 0..63. -/
def Obligations.RunRepeatsThePreviousPixel : Prop :=
  ∀ (length : BitVec 6) (s : State) (m : Nat),
    m = min (length.toNat + 1) (s.totalPixels.toNat - s.pixelsWritten.toNat) →
    exec (.run length) s = .next { s with
      chunk := .run length, cache := s.cache.set (pixelHash s.prev).toNat s.prev (pixelHash s.prev).isLt,
      out := s.out ++ List.replicate m s.prev, pixelsWritten := s.pixelsWritten + BitVec.ofNat 64 m,
      phase := if s.pixelsWritten + BitVec.ofNat 64 m = s.totalPixels then .done else s.phase }

/-- The hash is the weighted sum mod 64, on unsigned integers, and the sum is at most 6630; formed in any width of
6 bits or more with wrap-around, and in 8-bit wrapping arithmetic, it gives the same six bits (derived: the formula
is R170's; the clauses on the widths are the spec's own inference in R170, "[derived: from this formula]"). -/
def Obligations.HashIsTheWeightedSumModulo64 : Prop :=
  ∀ p : Pixel,
    (pixelHash p).toNat = (p.r.toNat * 3 + p.g.toNat * 5 + p.b.toNat * 7 + p.a.toNat * 11) % 64 ∧
    (∀ n : Nat, 6 ≤ n →
      (pixelHash p).toNat = (p.r.toNat * 3 + p.g.toNat * 5 + p.b.toNat * 7 + p.a.toNat * 11) % 2 ^ n % 64) ∧
    p.r.toNat * 3 + p.g.toNat * 5 + p.b.toNat * 7 + p.a.toNat * 11 ≤ 6630 ∧
    pixelHash p = (p.r * 3 + p.g * 5 + p.b * 7 + p.a * 11).setWidth 6

/-- A channel sum is taken mod 256 in the integers, result 0..255 (derived; R177). -/
def Obligations.ChannelSumsWrapModulo256 : Prop :=
  ∀ (a : Byte) (d : Int), ((addDelta a d).toNat : Int) = (a.toNat + d) % 256

/-- Forming Luma's red and blue deltas in 8 bits with wrap gives the same channel as forming them in the integers
(derived; R176, corner cases). -/
def Obligations.LumaDeltasMayBeFormedInEightBits : Prop :=
  ∀ (a : Byte) (side : BitVec 4) (dg : BitVec 6),
    addDelta a (lumaSideDelta side dg) = a + ((side.setWidth 8 - 8) + (dg.setWidth 8 - 32)) ∧
    -40 ≤ lumaSideDelta side dg ∧ lumaSideDelta side dg ≤ 38

/-- After a chunk that writes the cache the slot at the new previous pixel's hash holds that pixel and every other
slot is as before; after an INDEX every slot is as before, and the slot at the emitted pixel's hash holds it except
when a never-written slot other than 0 was named (derived; R178, R181, for a cache whose slots hold the initial
pixel or one that hashes to them). -/
def Obligations.CacheHoldsTheLastPixelOfEachHash : Prop :=
  ∀ (i : Instr) (s t : State), i.isHeader = false → exec i s = .next t →
    (∀ k : Slot, readSlot k s = ⟨0, 0, 0, 0⟩ ∨ pixelHash (readSlot k s) = k) →
    (∀ k : Slot, readSlot k t = ⟨0, 0, 0, 0⟩ ∨ pixelHash (readSlot k t) = k) ∧
    (∀ k : Slot, k ≠ pixelHash t.prev → readSlot k t = readSlot k s) ∧
    (∀ idx, i = .index idx → t.cache = s.cache ∧
      (readSlot (pixelHash t.prev) t = t.prev ∨ (readSlot idx s = ⟨0, 0, 0, 0⟩ ∧ idx ≠ 0))) ∧
    ((∀ idx, i ≠ .index idx) → readSlot (pixelHash t.prev) t = t.prev)

/-- RGB, DIFF, LUMA and RUN keep the alpha of the previous pixel, RGBA sets it from the payload, INDEX takes it
from the slot, and no other instruction changes it (derived: the spec's own inference R179). -/
def Obligations.AlphaChangesOnlyByRgbaAndIndex : Prop :=
  ∀ (i : Instr) (s t : State), exec i s = .next t →
    t.prev.a = match i with
      | .rgba _ _ _ a => a
      | .index idx => (readSlot idx s).a
      | .rgb _ _ _ | .diff _ _ _ | .luma _ _ _ | .run _ | .hdr _ _ _ _ => s.prev.a

/-- The frame of the six chunks (derived; R33, R171, R200): they write `chunk`, `prev` (but RUN), the cache slot at
the new previous pixel's hash (but INDEX), `pixels_written`, `out`, and the phase only to DONE. The error code, the
header registers, `total_pixels`, the bit source and its checkpoint, `in_count`, the host's side and every byte of
the input stream are as before; earlier pixels stay in `out`. -/
def Obligations.ChunksChangeNothingElse : Prop :=
  ∀ (i : Instr) (s t : State), i.isHeader = false → exec i s = .next t →
    t.errCode = s.errCode ∧ t.hdrWidth = s.hdrWidth ∧ t.hdrHeight = s.hdrHeight ∧
    t.hdrChannels = s.hdrChannels ∧ t.hdrColorspace = s.hdrColorspace ∧ t.hdrValid = s.hdrValid ∧
    t.totalPixels = s.totalPixels ∧ t.bsBuf = s.bsBuf ∧ t.bsCnt = s.bsCnt ∧ t.ckBuf = s.ckBuf ∧
    t.ckCnt = s.ckCnt ∧ t.inCount = s.inCount ∧ t.env = s.env ∧
    (t.phase = s.phase ∨ t.phase = .done) ∧
    (∀ k : Slot, k ≠ pixelHash t.prev → readSlot k t = readSlot k s) ∧
    (∀ idx, i = .index idx → t.cache = s.cache) ∧
    (∀ length, i = .run length → t.prev = s.prev) ∧
    (∃ new, t.out = s.out ++ new ∧ ∀ p ∈ new, p = t.prev) ∧
    ∀ offset : Nat, Memory.read t.env.input offset = Memory.read s.env.input offset

/-- The frame of HDR (derived; R33, R120): it writes the header registers, `total_pixels`, the phase and the error
code. The pixels, the cache, the previous pixel, the chunk latch, the bit source and its checkpoint, `in_count`,
the host's side and every byte of the input stream are as before. -/
def Obligations.HdrChangesNothingElse : Prop :=
  ∀ (w h : Word32) (c cs : Byte) (s t : State), exec (.hdr w h c cs) s = .next t →
    t.pixelsWritten = s.pixelsWritten ∧ t.out = s.out ∧ t.prev = s.prev ∧ t.cache = s.cache ∧
    t.chunk = s.chunk ∧ t.bsBuf = s.bsBuf ∧ t.bsCnt = s.bsCnt ∧ t.ckBuf = s.ckBuf ∧ t.ckCnt = s.ckCnt ∧
    t.inCount = s.inCount ∧ t.env = s.env ∧
    (t.phase = .error ∨ t.phase = .done ∨ t.phase = .decoding) ∧
    (t.phase = .error → t.hdrValid = s.hdrValid ∧ (t.errCode = .fmt ∨ t.errCode = .alloc)) ∧
    (t.phase ≠ .error → t.errCode = s.errCode ∧ t.hdrValid = true) ∧
    ∀ offset : Nat, Memory.read t.env.input offset = Memory.read s.env.input offset

/-- R203: a run longer than the pixels still owed emits only those, still refreshes the cache, and reaches DONE. -/
def Obligations.RunOverrunIsClipped : Prop :=
  ∀ (length : BitVec 6) (s : State), s.pixelsWritten < s.totalPixels →
    s.totalPixels.toNat - s.pixelsWritten.toNat < length.toNat + 1 →
    ∃ t, exec (.run length) s = .next t ∧ t.phase = .done ∧ t.pixelsWritten = s.totalPixels ∧
      t.out = s.out ++ List.replicate (s.totalPixels.toNat - s.pixelsWritten.toNat) s.prev ∧
      readSlot (pixelHash s.prev) t = s.prev ∧ t.prev = s.prev

/-- A run as the first chunk of a decode repeats {0,0,0,255} and writes it to slot 53 (derived: the spec's own
inference R202). -/
def Obligations.FirstRunRepeatsOpaqueBlack : Prop :=
  ∀ (length : BitVec 6) (s : State), s.prev = ⟨0, 0, 0, 255⟩ →
    length.toNat + 1 ≤ s.totalPixels.toNat - s.pixelsWritten.toNat →
    ∃ t, exec (.run length) s = .next t ∧
      t.out = s.out ++ List.replicate (length.toNat + 1) ⟨0, 0, 0, 255⟩ ∧
      readSlot 53 t = ⟨0, 0, 0, 255⟩ ∧ t.prev = ⟨0, 0, 0, 255⟩

/-- Of several runs in a row each emits its copies and writes the same slot with the same pixel; the second write
changes nothing; raw lengths 62 and 63 are defined too (derived: the spec's own inference R205). -/
def Obligations.SecondRunInARowLeavesTheCache : Prop :=
  ∀ (length length' : BitVec 6) (s : State), ∃ t u,
    exec (.run length) s = .next t ∧ exec (.run length') t = .next u ∧
    u.cache = t.cache ∧ readSlot (pixelHash s.prev) u = s.prev ∧ u.prev = s.prev ∧
    u.out = s.out ++ List.replicate (runEmits length s + runEmits length' t) s.prev

/-! ### The driver -/

/-- The step runs the decoded instruction: where the bytes not taken decode, in the phase they stand in, to a
well-formed instruction, the step is `exec` of it in the state with its bytes taken (derived; R120, R140, R221; a
host that takes pixels, both control inputs low). A step that waited before runs from its first byte (R294; the model's log
4): `resumed s` is `s` with no byte held. -/
def Obligations.StepRunsTheDecodedInstruction : Prop :=
  ∀ (s : State) (i : Instr) (rest : List Byte), s.env.ctl = [] → s.env.pxReady = true →
    Memory.wf s.env.input = true → s.bsCnt = 0 → standsIn i s → i.wellFormed = true →
    decodeAs i (pendingBytes s) = .ok (i, rest) →
    step s = exec i (afterFetch i (resumed s))

/-- The invariant of the step boundaries holds right after reset. -/
def Obligations.InvariantHoldsAtReset : Prop := Inv State.reset

/-- Every step keeps the invariant of the step boundaries: streams below 2^64 bytes (R30), no byte past the end
taken (R101), none held but by a step that waits (R292), no bit left unread (R108), the pixel counts and what each phase says of them (R21, R229), the error
code in ERROR only (R22), an accepted header behind every chunk (R127), nothing decoded in IDLE and HEADER (R220),
and every cache slot initial or at its pixel's hash (R178). -/
def Obligations.EveryStepKeepsTheInvariant : Prop :=
  ∀ s t : State, Inv s → step s = .next t → Inv t

/-- Every decode ends, given a host that answers and takes pixels: from any state of a running decode, in at most
one step for each byte not taken and one more, DONE or ERROR is reached (derived; R230, R294). -/
def Obligations.EveryDecodeEnds : Prop :=
  ∀ s : State, Inv s → hostServes s → s.phase = .header ∨ s.phase = .decoding →
    ∃ k t, k ≤ (pendingBytes s).length + 1 ∧ Host.Core.run Sys2Proof.core k s = .next t ∧ ended t = true

/-- A decode ends in exactly one of two ways: DONE, no error code, exactly `total_pixels` pixels of a valid header;
or ERROR with an error code (derived; R228, R225). -/
def Obligations.DecodeEndsInExactlyOneOfTwoWays : Prop :=
  ∀ (input : Memory) (maxPixels : Word64), Memory.wf input = true →
    ∃ t, decodeAll input maxPixels = .next t ∧
      ((t.phase = .done ∧ t.errCode = .none ∧ t.out.length = t.totalPixels.toNat ∧ t.hdrValid = true ∧
          t.totalPixels.toNat = t.hdrWidth.toNat * t.hdrHeight.toNat) ∨
       (t.phase = .error ∧ t.errCode ≠ .none))

/-- Two decodes of the same byte stream with the same `MAX_PIXELS`, started in any two states in which no decode
runs, show the same at every step from the start on, and so at their ends (derived: the spec's own inference
R232). -/
def Obligations.DecodesDoNotDependOnThePast : Prop :=
  ∀ (s s' : State) (input : Memory), Memory.wf input = true →
    s.env.ctl = [⟨false, true, some input, 0⟩] → s'.env.ctl = [⟨false, true, some input, 0⟩] →
    busy s = false → busy s' = false → s.env.maxPixels = s'.env.maxPixels →
    s.env.inEos = true → s'.env.inEos = true → s.env.pxReady = true → s'.env.pxReady = true →
    ∀ k : Nat, ∃ t t', Host.Core.run Sys2Proof.core (k + 1) s = .next t ∧
      Host.Core.run Sys2Proof.core (k + 1) s' = .next t' ∧ observe t = observe t'

/-- R227: in DONE the block takes no input; and a decode that ends in DONE ends in the same way, with the same bytes
taken, whatever bytes follow the last chunk. -/
def Obligations.BytesAfterTheLastChunkAreNotRead : Prop :=
  (∀ s : State, s.phase = .done → inReady s = false ∧ (s.env.ctl = [] → step s = .next s)) ∧
  ∀ (input extra : Memory) (maxPixels : Word64) (t : State), Memory.wf (input ++ extra) = true →
    decodeAll input maxPixels = .next t → t.phase = .done →
    ∃ t', decodeAll (input ++ extra) maxPixels = .next t' ∧ observe t' = observe t

/-- A chunk step that raises changes only the phase, the error code, `in_count` and the bit source, and it no longer
waits: no pixel of the failing chunk is emitted, and the bytes taken stay taken (derived; R222, R254). -/
def Obligations.FailingChunkEmitsNothing : Prop :=
  ∀ s t : State, s.env.ctl = [] → s.phase = .decoding → s.bsCnt = 0 → Memory.wf s.env.input = true →
    step s = .next t → t.phase = .error →
    t = { resumed s with phase := .error, errCode := .eoi, inCount := t.inCount, bsBuf := t.bsBuf,
                         bsCnt := t.bsCnt, ckBuf := t.ckBuf, ckCnt := t.ckCnt }

/-- `InvalidFormat` and `AllocationFailure` are raised only while the header is read, and inside a chunk only
`UnexpectedEndOfInput` (derived; R251 to R253, R258). -/
def Obligations.ChunksRaiseOnlyEndOfInput : Prop :=
  ∀ s t : State, s.bsCnt = 0 → Memory.wf s.env.input = true → step s = .next t →
    (t.errCode = .fmt ∨ t.errCode = .alloc → s.phase = .header ∨ t.errCode = s.errCode) ∧
    (s.phase = .decoding → s.errCode = .none → t.errCode = .none ∨ (t.errCode = .eoi ∧ t.phase = .error))

/-- With the default `MAX_PIXELS` the header never raises `AllocationFailure` (derived; R253). -/
def Obligations.DefaultLimitNeverRaisesAllocationFailure : Prop :=
  ∀ s t : State, s.bsCnt = 0 → Memory.wf s.env.input = true → s.env.maxPixels = 0xFFFFFFFFFFFFFFFF →
    s.errCode ≠ .alloc → step s = .next t → t.errCode ≠ .alloc

/-- R65: a pixel emitted is never withdrawn: without `rst` or a `start` that acts, the pixels so far stay in `out`
and in the port's history, in order, whether or not the step raises. -/
def Obligations.EmittedPixelsAreNeverWithdrawn : Prop :=
  ∀ s t : State, s.bsCnt = 0 → Memory.wf s.env.input = true → s.env.ctl = [] → step s = .next t →
    s.out <+: t.out ∧ pxTransfers s <+: pxTransfers t

/-- What the status outputs show; at most one of busy, done and error is 1, and none in IDLE (derived: the rows are
R35's table; the last clauses are the spec's own inference in R35, "[derived: from rule R21 and this table]"). -/
def Obligations.StatusOutputsFollowThePhase : Prop :=
  ∀ s : State,
    ((status s).busy = true ↔ s.phase = .header ∨ s.phase = .decoding) ∧
    ((status s).done = true ↔ s.phase = .done) ∧
    ((status s).error = true ↔ s.phase = .error) ∧
    (status s).errCode = (match s.errCode with | .none => 0 | .eoi => 1 | .fmt => 2 | .alloc => 3) ∧
    (status s).hdrValid = s.hdrValid ∧ (status s).hdrWidth = s.hdrWidth ∧ (status s).hdrHeight = s.hdrHeight ∧
    (status s).hdrChannels = s.hdrChannels ∧ (status s).hdrColorspace = s.hdrColorspace ∧
    (status s).totalPixels = s.totalPixels ∧ (status s).pixelsWritten = s.pixelsWritten ∧
    (status s).bytesConsumed = s.inCount ∧
    ¬((status s).busy = true ∧ (status s).done = true) ∧ ¬((status s).busy = true ∧ (status s).error = true) ∧
    ¬((status s).done = true ∧ (status s).error = true) ∧
    (s.phase = .idle → (status s).busy = false ∧ (status s).done = false ∧ (status s).error = false) ∧
    status State.reset = ⟨false, false, false, 0, false, 0, 0, 0, 0, 0, 0, 0⟩

/-- The pixel port's word holds r in bits 31..24, g in 23..16, b in 15..8 and a in 7..0, and carries one word for
each pixel of `out` in order (derived; R39). -/
def Obligations.PortWordsHoldTheChannelsInOrder : Prop :=
  (∀ p : Pixel, (pxWord p).extractLsb' 24 8 = p.r ∧ (pxWord p).extractLsb' 16 8 = p.g ∧
    (pxWord p).extractLsb' 8 8 = p.b ∧ (pxWord p).extractLsb' 0 8 = p.a) ∧
  ∀ (s : State) (p : Pixel), pxTransfers (emit p s) = pxTransfers s ++ [pxWord p]

/-- A host that never answers leaves the block where it is (derived; R292, R293, I7; the model's log 4 and log 20):
with the stream used up inside a chunk and no end signalled, and with a whole chunk but a host that takes no pixel.
Every element of the block is as before, and stays so at every later step; what is held are the bytes taken: all that
are left, or the chunk's. -/
def Obligations.BlockWaitsForAHostThatNeverAnswers : Prop :=
  ∀ s : State, s.env.ctl = [] → s.phase = .decoding → s.bsCnt = 0 → Memory.wf s.env.input = true →
    (∀ e, decodeChunk (pendingBytes s) = .error e → s.env.inEos = false → ∀ k : Nat,
      Host.Core.run Sys2Proof.core (k + 1) s =
        .next { s with env := { s.env with held := (pendingBytes s).length } }) ∧
    (∀ i rest, decodeChunk (pendingBytes s) = .ok (i, rest) → s.env.pxReady = false → ∀ k : Nat,
      Host.Core.run Sys2Proof.core (k + 1) s = .next { s with env := { s.env with held := i.byteLength } })

/-- Each DECODING step with a pixel owed either raises or takes at least one byte and emits at least one pixel
(derived; R230, R34). -/
def Obligations.ChunkStepsMakeProgress : Prop :=
  ∀ s t : State, s.env.ctl = [] → s.env.inEos = true → s.env.pxReady = true → s.phase = .decoding →
    s.bsCnt = 0 → Memory.wf s.env.input = true → s.pixelsWritten < s.totalPixels → step s = .next t →
    t.phase = .error ∨
      (∃ b0 tail, pendingBytes s = b0 :: tail ∧ t.inCount.toNat = s.inCount.toNat + chunkLength b0 ∧
        s.out.length < t.out.length)

/-- The block never rewinds the host's stream and never skips ahead (derived; R285, R57; the model's log 8 and log
20). At every step but a `start` for which the host positions a stream: the bytes the host has not given after the
step are those it had not given before it, less `k` more bytes that the step took. With those held before they are at
most all that the step takes, and exactly those when no control input comes. So too when the step waits for the
host, when an `rst` follows a wait or cuts the step short, and when a `start` goes on with the present stream. -/
def Obligations.TakenBytesAreNeverGivenAgain : Prop :=
  ∀ s t : State, Inv s → step s = .next t →
    (∀ c rest, s.env.ctl = c :: rest →
      c.stream = none ∨ c.start = false ∨ c.rst = true ∨ s.phase = .header ∨ s.phase = .decoding) →
    ∃ k, ungivenBytes t = (ungivenBytes s).drop k ∧ s.env.held + k ≤ stepTakes s ∧
      (s.env.ctl = [] → s.env.held + k = stepTakes s)

/-- The port outputs between two steps (derived; R38, R39, R293, R227, R255, R281; the model's log 7, and log 20 for
the bytes held). With no decode running the block asks for no byte and offers no pixel; it never does both at once. A
running decode in which no step waits, and a wait for a byte, ask for a byte and offer no pixel. A wait for the host
to take a pixel asks for no byte and offers the first pixel that the chunk emits. -/
def Obligations.PortsFollowWhatTheBlockWaitsFor : Prop :=
  (∀ s : State, s.phase = .idle ∨ s.phase = .done ∨ s.phase = .error → inReady s = false ∧ pxValid s = false) ∧
  (∀ s : State, inReady s = true → pxValid s = false) ∧
  ∀ s : State, Memory.wf s.env.input = true → s.bsCnt = 0 →
    (s.env.held = 0 → s.phase = .header ∨ s.phase = .decoding → inReady s = true ∧ pxValid s = false) ∧
    (s.phase = .header → inReady s = true ∧ pxValid s = false) ∧
    (s.env.ctl = [] → s.phase = .decoding →
      (∀ e, decodeChunk (pendingBytes s) = .error e → s.env.inEos = false →
        ∃ t, step s = .next t ∧ inReady t = true ∧ pxValid t = false) ∧
      (∀ i rest, decodeChunk (pendingBytes s) = .ok (i, rest) → s.env.pxReady = false →
        s.pixelsWritten < s.totalPixels →
        ∃ t u p new, step s = .next t ∧ exec i (afterFetch i (resumed s)) = .next u ∧
          u.out = s.out ++ p :: new ∧ inReady t = false ∧ pxValid t = true ∧ pxData t = pxWord p))
end

