-- ==== Sys2Proof/Laws/State.lean ====
section
/-! SUPPORT. One lemma for each field of each named update of the state, true by definition. -/

namespace Sys2Proof.Machine

/-! ### raiseError (R254) -/

@[simp] theorem raiseError_phase (e : ErrCode) (s : State) : (raiseError e s).phase = .error := rfl
@[simp] theorem raiseError_errCode (e : ErrCode) (s : State) : (raiseError e s).errCode = e := rfl
@[simp] theorem raiseError_hdrWidth (e : ErrCode) (s : State) : (raiseError e s).hdrWidth = s.hdrWidth := rfl
@[simp] theorem raiseError_hdrHeight (e : ErrCode) (s : State) : (raiseError e s).hdrHeight = s.hdrHeight := rfl
@[simp] theorem raiseError_hdrChannels (e : ErrCode) (s : State) : (raiseError e s).hdrChannels = s.hdrChannels := rfl
@[simp] theorem raiseError_hdrColorspace (e : ErrCode) (s : State) : (raiseError e s).hdrColorspace = s.hdrColorspace := rfl
@[simp] theorem raiseError_hdrValid (e : ErrCode) (s : State) : (raiseError e s).hdrValid = s.hdrValid := rfl
@[simp] theorem raiseError_totalPixels (e : ErrCode) (s : State) : (raiseError e s).totalPixels = s.totalPixels := rfl
@[simp] theorem raiseError_pixelsWritten (e : ErrCode) (s : State) : (raiseError e s).pixelsWritten = s.pixelsWritten := rfl
@[simp] theorem raiseError_prev (e : ErrCode) (s : State) : (raiseError e s).prev = s.prev := rfl
@[simp] theorem raiseError_cache (e : ErrCode) (s : State) : (raiseError e s).cache = s.cache := rfl
@[simp] theorem raiseError_bsBuf (e : ErrCode) (s : State) : (raiseError e s).bsBuf = s.bsBuf := rfl
@[simp] theorem raiseError_bsCnt (e : ErrCode) (s : State) : (raiseError e s).bsCnt = s.bsCnt := rfl
@[simp] theorem raiseError_ckBuf (e : ErrCode) (s : State) : (raiseError e s).ckBuf = s.ckBuf := rfl
@[simp] theorem raiseError_ckCnt (e : ErrCode) (s : State) : (raiseError e s).ckCnt = s.ckCnt := rfl
@[simp] theorem raiseError_inCount (e : ErrCode) (s : State) : (raiseError e s).inCount = s.inCount := rfl
@[simp] theorem raiseError_chunk (e : ErrCode) (s : State) : (raiseError e s).chunk = s.chunk := rfl
@[simp] theorem raiseError_out (e : ErrCode) (s : State) : (raiseError e s).out = s.out := rfl
@[simp] theorem raiseError_env (e : ErrCode) (s : State) : (raiseError e s).env = s.env := rfl

/-! ### checkpoint (R104) -/

@[simp] theorem checkpoint_phase (s : State) : (checkpoint s).phase = s.phase := rfl
@[simp] theorem checkpoint_errCode (s : State) : (checkpoint s).errCode = s.errCode := rfl
@[simp] theorem checkpoint_hdrWidth (s : State) : (checkpoint s).hdrWidth = s.hdrWidth := rfl
@[simp] theorem checkpoint_hdrHeight (s : State) : (checkpoint s).hdrHeight = s.hdrHeight := rfl
@[simp] theorem checkpoint_hdrChannels (s : State) : (checkpoint s).hdrChannels = s.hdrChannels := rfl
@[simp] theorem checkpoint_hdrColorspace (s : State) : (checkpoint s).hdrColorspace = s.hdrColorspace := rfl
@[simp] theorem checkpoint_hdrValid (s : State) : (checkpoint s).hdrValid = s.hdrValid := rfl
@[simp] theorem checkpoint_totalPixels (s : State) : (checkpoint s).totalPixels = s.totalPixels := rfl
@[simp] theorem checkpoint_pixelsWritten (s : State) : (checkpoint s).pixelsWritten = s.pixelsWritten := rfl
@[simp] theorem checkpoint_prev (s : State) : (checkpoint s).prev = s.prev := rfl
@[simp] theorem checkpoint_cache (s : State) : (checkpoint s).cache = s.cache := rfl
@[simp] theorem checkpoint_bsBuf (s : State) : (checkpoint s).bsBuf = s.bsBuf := rfl
@[simp] theorem checkpoint_bsCnt (s : State) : (checkpoint s).bsCnt = s.bsCnt := rfl
@[simp] theorem checkpoint_ckBuf (s : State) : (checkpoint s).ckBuf = s.bsBuf := rfl
@[simp] theorem checkpoint_ckCnt (s : State) : (checkpoint s).ckCnt = s.bsCnt := rfl
@[simp] theorem checkpoint_inCount (s : State) : (checkpoint s).inCount = s.inCount := rfl
@[simp] theorem checkpoint_chunk (s : State) : (checkpoint s).chunk = s.chunk := rfl
@[simp] theorem checkpoint_out (s : State) : (checkpoint s).out = s.out := rfl
@[simp] theorem checkpoint_env (s : State) : (checkpoint s).env = s.env := rfl

/-! ### writeSlot (R27) -/

@[simp] theorem writeSlot_phase (i : Slot) (p : Pixel) (s : State) : (writeSlot i p s).phase = s.phase := rfl
@[simp] theorem writeSlot_errCode (i : Slot) (p : Pixel) (s : State) : (writeSlot i p s).errCode = s.errCode := rfl
@[simp] theorem writeSlot_hdrWidth (i : Slot) (p : Pixel) (s : State) : (writeSlot i p s).hdrWidth = s.hdrWidth := rfl
@[simp] theorem writeSlot_hdrHeight (i : Slot) (p : Pixel) (s : State) : (writeSlot i p s).hdrHeight = s.hdrHeight := rfl
@[simp] theorem writeSlot_hdrChannels (i : Slot) (p : Pixel) (s : State) : (writeSlot i p s).hdrChannels = s.hdrChannels := rfl
@[simp] theorem writeSlot_hdrColorspace (i : Slot) (p : Pixel) (s : State) : (writeSlot i p s).hdrColorspace = s.hdrColorspace := rfl
@[simp] theorem writeSlot_hdrValid (i : Slot) (p : Pixel) (s : State) : (writeSlot i p s).hdrValid = s.hdrValid := rfl
@[simp] theorem writeSlot_totalPixels (i : Slot) (p : Pixel) (s : State) : (writeSlot i p s).totalPixels = s.totalPixels := rfl
@[simp] theorem writeSlot_pixelsWritten (i : Slot) (p : Pixel) (s : State) : (writeSlot i p s).pixelsWritten = s.pixelsWritten := rfl
@[simp] theorem writeSlot_prev (i : Slot) (p : Pixel) (s : State) : (writeSlot i p s).prev = s.prev := rfl
@[simp] theorem writeSlot_cache (i : Slot) (p : Pixel) (s : State) : (writeSlot i p s).cache = s.cache.set i.toNat p i.isLt := rfl
@[simp] theorem writeSlot_bsBuf (i : Slot) (p : Pixel) (s : State) : (writeSlot i p s).bsBuf = s.bsBuf := rfl
@[simp] theorem writeSlot_bsCnt (i : Slot) (p : Pixel) (s : State) : (writeSlot i p s).bsCnt = s.bsCnt := rfl
@[simp] theorem writeSlot_ckBuf (i : Slot) (p : Pixel) (s : State) : (writeSlot i p s).ckBuf = s.ckBuf := rfl
@[simp] theorem writeSlot_ckCnt (i : Slot) (p : Pixel) (s : State) : (writeSlot i p s).ckCnt = s.ckCnt := rfl
@[simp] theorem writeSlot_inCount (i : Slot) (p : Pixel) (s : State) : (writeSlot i p s).inCount = s.inCount := rfl
@[simp] theorem writeSlot_chunk (i : Slot) (p : Pixel) (s : State) : (writeSlot i p s).chunk = s.chunk := rfl
@[simp] theorem writeSlot_out (i : Slot) (p : Pixel) (s : State) : (writeSlot i p s).out = s.out := rfl
@[simp] theorem writeSlot_env (i : Slot) (p : Pixel) (s : State) : (writeSlot i p s).env = s.env := rfl

/-! ### emit (R224) -/

@[simp] theorem emit_phase (p : Pixel) (s : State) : (emit p s).phase = s.phase := rfl
@[simp] theorem emit_errCode (p : Pixel) (s : State) : (emit p s).errCode = s.errCode := rfl
@[simp] theorem emit_hdrWidth (p : Pixel) (s : State) : (emit p s).hdrWidth = s.hdrWidth := rfl
@[simp] theorem emit_hdrHeight (p : Pixel) (s : State) : (emit p s).hdrHeight = s.hdrHeight := rfl
@[simp] theorem emit_hdrChannels (p : Pixel) (s : State) : (emit p s).hdrChannels = s.hdrChannels := rfl
@[simp] theorem emit_hdrColorspace (p : Pixel) (s : State) : (emit p s).hdrColorspace = s.hdrColorspace := rfl
@[simp] theorem emit_hdrValid (p : Pixel) (s : State) : (emit p s).hdrValid = s.hdrValid := rfl
@[simp] theorem emit_totalPixels (p : Pixel) (s : State) : (emit p s).totalPixels = s.totalPixels := rfl
@[simp] theorem emit_pixelsWritten (p : Pixel) (s : State) : (emit p s).pixelsWritten = s.pixelsWritten + 1 := rfl
@[simp] theorem emit_prev (p : Pixel) (s : State) : (emit p s).prev = s.prev := rfl
@[simp] theorem emit_cache (p : Pixel) (s : State) : (emit p s).cache = s.cache := rfl
@[simp] theorem emit_bsBuf (p : Pixel) (s : State) : (emit p s).bsBuf = s.bsBuf := rfl
@[simp] theorem emit_bsCnt (p : Pixel) (s : State) : (emit p s).bsCnt = s.bsCnt := rfl
@[simp] theorem emit_ckBuf (p : Pixel) (s : State) : (emit p s).ckBuf = s.ckBuf := rfl
@[simp] theorem emit_ckCnt (p : Pixel) (s : State) : (emit p s).ckCnt = s.ckCnt := rfl
@[simp] theorem emit_inCount (p : Pixel) (s : State) : (emit p s).inCount = s.inCount := rfl
@[simp] theorem emit_chunk (p : Pixel) (s : State) : (emit p s).chunk = s.chunk := rfl
@[simp] theorem emit_out (p : Pixel) (s : State) : (emit p s).out = s.out ++ [p] := rfl
@[simp] theorem emit_env (p : Pixel) (s : State) : (emit p s).env = s.env := rfl

/-! ### latchChunk (R221) -/

@[simp] theorem latchChunk_phase (c : Chunk) (s : State) : (latchChunk c s).phase = s.phase := rfl
@[simp] theorem latchChunk_errCode (c : Chunk) (s : State) : (latchChunk c s).errCode = s.errCode := rfl
@[simp] theorem latchChunk_hdrWidth (c : Chunk) (s : State) : (latchChunk c s).hdrWidth = s.hdrWidth := rfl
@[simp] theorem latchChunk_hdrHeight (c : Chunk) (s : State) : (latchChunk c s).hdrHeight = s.hdrHeight := rfl
@[simp] theorem latchChunk_hdrChannels (c : Chunk) (s : State) : (latchChunk c s).hdrChannels = s.hdrChannels := rfl
@[simp] theorem latchChunk_hdrColorspace (c : Chunk) (s : State) : (latchChunk c s).hdrColorspace = s.hdrColorspace := rfl
@[simp] theorem latchChunk_hdrValid (c : Chunk) (s : State) : (latchChunk c s).hdrValid = s.hdrValid := rfl
@[simp] theorem latchChunk_totalPixels (c : Chunk) (s : State) : (latchChunk c s).totalPixels = s.totalPixels := rfl
@[simp] theorem latchChunk_pixelsWritten (c : Chunk) (s : State) : (latchChunk c s).pixelsWritten = s.pixelsWritten := rfl
@[simp] theorem latchChunk_prev (c : Chunk) (s : State) : (latchChunk c s).prev = s.prev := rfl
@[simp] theorem latchChunk_cache (c : Chunk) (s : State) : (latchChunk c s).cache = s.cache := rfl
@[simp] theorem latchChunk_bsBuf (c : Chunk) (s : State) : (latchChunk c s).bsBuf = s.bsBuf := rfl
@[simp] theorem latchChunk_bsCnt (c : Chunk) (s : State) : (latchChunk c s).bsCnt = s.bsCnt := rfl
@[simp] theorem latchChunk_ckBuf (c : Chunk) (s : State) : (latchChunk c s).ckBuf = s.ckBuf := rfl
@[simp] theorem latchChunk_ckCnt (c : Chunk) (s : State) : (latchChunk c s).ckCnt = s.ckCnt := rfl
@[simp] theorem latchChunk_inCount (c : Chunk) (s : State) : (latchChunk c s).inCount = s.inCount := rfl
@[simp] theorem latchChunk_chunk (c : Chunk) (s : State) : (latchChunk c s).chunk = c := rfl
@[simp] theorem latchChunk_out (c : Chunk) (s : State) : (latchChunk c s).out = s.out := rfl
@[simp] theorem latchChunk_env (c : Chunk) (s : State) : (latchChunk c s).env = s.env := rfl

/-! ### setWidth (R123) -/

@[simp] theorem setWidth_phase (w : Word32) (s : State) : (setWidth w s).phase = s.phase := rfl
@[simp] theorem setWidth_errCode (w : Word32) (s : State) : (setWidth w s).errCode = s.errCode := rfl
@[simp] theorem setWidth_hdrWidth (w : Word32) (s : State) : (setWidth w s).hdrWidth = w := rfl
@[simp] theorem setWidth_hdrHeight (w : Word32) (s : State) : (setWidth w s).hdrHeight = s.hdrHeight := rfl
@[simp] theorem setWidth_hdrChannels (w : Word32) (s : State) : (setWidth w s).hdrChannels = s.hdrChannels := rfl
@[simp] theorem setWidth_hdrColorspace (w : Word32) (s : State) : (setWidth w s).hdrColorspace = s.hdrColorspace := rfl
@[simp] theorem setWidth_hdrValid (w : Word32) (s : State) : (setWidth w s).hdrValid = s.hdrValid := rfl
@[simp] theorem setWidth_totalPixels (w : Word32) (s : State) : (setWidth w s).totalPixels = s.totalPixels := rfl
@[simp] theorem setWidth_pixelsWritten (w : Word32) (s : State) : (setWidth w s).pixelsWritten = s.pixelsWritten := rfl
@[simp] theorem setWidth_prev (w : Word32) (s : State) : (setWidth w s).prev = s.prev := rfl
@[simp] theorem setWidth_cache (w : Word32) (s : State) : (setWidth w s).cache = s.cache := rfl
@[simp] theorem setWidth_bsBuf (w : Word32) (s : State) : (setWidth w s).bsBuf = s.bsBuf := rfl
@[simp] theorem setWidth_bsCnt (w : Word32) (s : State) : (setWidth w s).bsCnt = s.bsCnt := rfl
@[simp] theorem setWidth_ckBuf (w : Word32) (s : State) : (setWidth w s).ckBuf = s.ckBuf := rfl
@[simp] theorem setWidth_ckCnt (w : Word32) (s : State) : (setWidth w s).ckCnt = s.ckCnt := rfl
@[simp] theorem setWidth_inCount (w : Word32) (s : State) : (setWidth w s).inCount = s.inCount := rfl
@[simp] theorem setWidth_chunk (w : Word32) (s : State) : (setWidth w s).chunk = s.chunk := rfl
@[simp] theorem setWidth_out (w : Word32) (s : State) : (setWidth w s).out = s.out := rfl
@[simp] theorem setWidth_env (w : Word32) (s : State) : (setWidth w s).env = s.env := rfl

/-! ### setHeight (R124) -/

@[simp] theorem setHeight_phase (h : Word32) (s : State) : (setHeight h s).phase = s.phase := rfl
@[simp] theorem setHeight_errCode (h : Word32) (s : State) : (setHeight h s).errCode = s.errCode := rfl
@[simp] theorem setHeight_hdrWidth (h : Word32) (s : State) : (setHeight h s).hdrWidth = s.hdrWidth := rfl
@[simp] theorem setHeight_hdrHeight (h : Word32) (s : State) : (setHeight h s).hdrHeight = h := rfl
@[simp] theorem setHeight_hdrChannels (h : Word32) (s : State) : (setHeight h s).hdrChannels = s.hdrChannels := rfl
@[simp] theorem setHeight_hdrColorspace (h : Word32) (s : State) : (setHeight h s).hdrColorspace = s.hdrColorspace := rfl
@[simp] theorem setHeight_hdrValid (h : Word32) (s : State) : (setHeight h s).hdrValid = s.hdrValid := rfl
@[simp] theorem setHeight_totalPixels (h : Word32) (s : State) : (setHeight h s).totalPixels = s.totalPixels := rfl
@[simp] theorem setHeight_pixelsWritten (h : Word32) (s : State) : (setHeight h s).pixelsWritten = s.pixelsWritten := rfl
@[simp] theorem setHeight_prev (h : Word32) (s : State) : (setHeight h s).prev = s.prev := rfl
@[simp] theorem setHeight_cache (h : Word32) (s : State) : (setHeight h s).cache = s.cache := rfl
@[simp] theorem setHeight_bsBuf (h : Word32) (s : State) : (setHeight h s).bsBuf = s.bsBuf := rfl
@[simp] theorem setHeight_bsCnt (h : Word32) (s : State) : (setHeight h s).bsCnt = s.bsCnt := rfl
@[simp] theorem setHeight_ckBuf (h : Word32) (s : State) : (setHeight h s).ckBuf = s.ckBuf := rfl
@[simp] theorem setHeight_ckCnt (h : Word32) (s : State) : (setHeight h s).ckCnt = s.ckCnt := rfl
@[simp] theorem setHeight_inCount (h : Word32) (s : State) : (setHeight h s).inCount = s.inCount := rfl
@[simp] theorem setHeight_chunk (h : Word32) (s : State) : (setHeight h s).chunk = s.chunk := rfl
@[simp] theorem setHeight_out (h : Word32) (s : State) : (setHeight h s).out = s.out := rfl
@[simp] theorem setHeight_env (h : Word32) (s : State) : (setHeight h s).env = s.env := rfl

/-! ### setCtl (R37) -/

@[simp] theorem setCtl_phase (ctl : List Ctl) (s : State) : (setCtl ctl s).phase = s.phase := rfl
@[simp] theorem setCtl_errCode (ctl : List Ctl) (s : State) : (setCtl ctl s).errCode = s.errCode := rfl
@[simp] theorem setCtl_hdrWidth (ctl : List Ctl) (s : State) : (setCtl ctl s).hdrWidth = s.hdrWidth := rfl
@[simp] theorem setCtl_hdrHeight (ctl : List Ctl) (s : State) : (setCtl ctl s).hdrHeight = s.hdrHeight := rfl
@[simp] theorem setCtl_hdrChannels (ctl : List Ctl) (s : State) : (setCtl ctl s).hdrChannels = s.hdrChannels := rfl
@[simp] theorem setCtl_hdrColorspace (ctl : List Ctl) (s : State) : (setCtl ctl s).hdrColorspace = s.hdrColorspace := rfl
@[simp] theorem setCtl_hdrValid (ctl : List Ctl) (s : State) : (setCtl ctl s).hdrValid = s.hdrValid := rfl
@[simp] theorem setCtl_totalPixels (ctl : List Ctl) (s : State) : (setCtl ctl s).totalPixels = s.totalPixels := rfl
@[simp] theorem setCtl_pixelsWritten (ctl : List Ctl) (s : State) : (setCtl ctl s).pixelsWritten = s.pixelsWritten := rfl
@[simp] theorem setCtl_prev (ctl : List Ctl) (s : State) : (setCtl ctl s).prev = s.prev := rfl
@[simp] theorem setCtl_cache (ctl : List Ctl) (s : State) : (setCtl ctl s).cache = s.cache := rfl
@[simp] theorem setCtl_bsBuf (ctl : List Ctl) (s : State) : (setCtl ctl s).bsBuf = s.bsBuf := rfl
@[simp] theorem setCtl_bsCnt (ctl : List Ctl) (s : State) : (setCtl ctl s).bsCnt = s.bsCnt := rfl
@[simp] theorem setCtl_ckBuf (ctl : List Ctl) (s : State) : (setCtl ctl s).ckBuf = s.ckBuf := rfl
@[simp] theorem setCtl_ckCnt (ctl : List Ctl) (s : State) : (setCtl ctl s).ckCnt = s.ckCnt := rfl
@[simp] theorem setCtl_inCount (ctl : List Ctl) (s : State) : (setCtl ctl s).inCount = s.inCount := rfl
@[simp] theorem setCtl_chunk (ctl : List Ctl) (s : State) : (setCtl ctl s).chunk = s.chunk := rfl
@[simp] theorem setCtl_out (ctl : List Ctl) (s : State) : (setCtl ctl s).out = s.out := rfl
@[simp] theorem setCtl_env (ctl : List Ctl) (s : State) : (setCtl ctl s).env = { s.env with ctl := ctl } := rfl

/-! ### start (R220) -/

@[simp] theorem start_phase (stream : Option Memory) (s : State) : (start stream s).phase = .header := rfl
@[simp] theorem start_errCode (stream : Option Memory) (s : State) : (start stream s).errCode = .none := rfl
@[simp] theorem start_hdrWidth (stream : Option Memory) (s : State) : (start stream s).hdrWidth = 0 := rfl
@[simp] theorem start_hdrHeight (stream : Option Memory) (s : State) : (start stream s).hdrHeight = 0 := rfl
@[simp] theorem start_hdrChannels (stream : Option Memory) (s : State) : (start stream s).hdrChannels = 0 := rfl
@[simp] theorem start_hdrColorspace (stream : Option Memory) (s : State) : (start stream s).hdrColorspace = 0 := rfl
@[simp] theorem start_hdrValid (stream : Option Memory) (s : State) : (start stream s).hdrValid = false := rfl
@[simp] theorem start_totalPixels (stream : Option Memory) (s : State) : (start stream s).totalPixels = 0 := rfl
@[simp] theorem start_pixelsWritten (stream : Option Memory) (s : State) : (start stream s).pixelsWritten = 0 := rfl
@[simp] theorem start_prev (stream : Option Memory) (s : State) : (start stream s).prev = .opaqueBlack := rfl
@[simp] theorem start_cache (stream : Option Memory) (s : State) : (start stream s).cache = Vector.replicate 64 .transparent := rfl
@[simp] theorem start_bsBuf (stream : Option Memory) (s : State) : (start stream s).bsBuf = 0 := rfl
@[simp] theorem start_bsCnt (stream : Option Memory) (s : State) : (start stream s).bsCnt = 0 := rfl
@[simp] theorem start_ckBuf (stream : Option Memory) (s : State) : (start stream s).ckBuf = 0 := rfl
@[simp] theorem start_ckCnt (stream : Option Memory) (s : State) : (start stream s).ckCnt = 0 := rfl
@[simp] theorem start_inCount (stream : Option Memory) (s : State) : (start stream s).inCount = 0 := rfl
@[simp] theorem start_chunk (stream : Option Memory) (s : State) : (start stream s).chunk = s.chunk := rfl
@[simp] theorem start_out (stream : Option Memory) (s : State) : (start stream s).out = [] := rfl
@[simp] theorem start_env (stream : Option Memory) (s : State) : (start stream s).env = { s.env with input := nextStream stream s, held := 0 } := rfl

/-! ### resumed (R292) -/

@[simp] theorem resumed_phase (s : State) : (resumed s).phase = s.phase := rfl
@[simp] theorem resumed_errCode (s : State) : (resumed s).errCode = s.errCode := rfl
@[simp] theorem resumed_hdrWidth (s : State) : (resumed s).hdrWidth = s.hdrWidth := rfl
@[simp] theorem resumed_hdrHeight (s : State) : (resumed s).hdrHeight = s.hdrHeight := rfl
@[simp] theorem resumed_hdrChannels (s : State) : (resumed s).hdrChannels = s.hdrChannels := rfl
@[simp] theorem resumed_hdrColorspace (s : State) : (resumed s).hdrColorspace = s.hdrColorspace := rfl
@[simp] theorem resumed_hdrValid (s : State) : (resumed s).hdrValid = s.hdrValid := rfl
@[simp] theorem resumed_totalPixels (s : State) : (resumed s).totalPixels = s.totalPixels := rfl
@[simp] theorem resumed_pixelsWritten (s : State) : (resumed s).pixelsWritten = s.pixelsWritten := rfl
@[simp] theorem resumed_prev (s : State) : (resumed s).prev = s.prev := rfl
@[simp] theorem resumed_cache (s : State) : (resumed s).cache = s.cache := rfl
@[simp] theorem resumed_bsBuf (s : State) : (resumed s).bsBuf = s.bsBuf := rfl
@[simp] theorem resumed_bsCnt (s : State) : (resumed s).bsCnt = s.bsCnt := rfl
@[simp] theorem resumed_ckBuf (s : State) : (resumed s).ckBuf = s.ckBuf := rfl
@[simp] theorem resumed_ckCnt (s : State) : (resumed s).ckCnt = s.ckCnt := rfl
@[simp] theorem resumed_inCount (s : State) : (resumed s).inCount = s.inCount := rfl
@[simp] theorem resumed_chunk (s : State) : (resumed s).chunk = s.chunk := rfl
@[simp] theorem resumed_out (s : State) : (resumed s).out = s.out := rfl
@[simp] theorem resumed_env (s : State) : (resumed s).env = { s.env with held := 0 } := rfl

/-! ### applyReset (R280) -/

@[simp] theorem applyReset_phase (taken : Nat) (s : State) : (applyReset taken s).phase = .idle := rfl
@[simp] theorem applyReset_errCode (taken : Nat) (s : State) : (applyReset taken s).errCode = .none := rfl
@[simp] theorem applyReset_hdrWidth (taken : Nat) (s : State) : (applyReset taken s).hdrWidth = 0 := rfl
@[simp] theorem applyReset_hdrHeight (taken : Nat) (s : State) : (applyReset taken s).hdrHeight = 0 := rfl
@[simp] theorem applyReset_hdrChannels (taken : Nat) (s : State) : (applyReset taken s).hdrChannels = 0 := rfl
@[simp] theorem applyReset_hdrColorspace (taken : Nat) (s : State) : (applyReset taken s).hdrColorspace = 0 := rfl
@[simp] theorem applyReset_hdrValid (taken : Nat) (s : State) : (applyReset taken s).hdrValid = false := rfl
@[simp] theorem applyReset_totalPixels (taken : Nat) (s : State) : (applyReset taken s).totalPixels = 0 := rfl
@[simp] theorem applyReset_pixelsWritten (taken : Nat) (s : State) : (applyReset taken s).pixelsWritten = 0 := rfl
@[simp] theorem applyReset_prev (taken : Nat) (s : State) : (applyReset taken s).prev = .opaqueBlack := rfl
@[simp] theorem applyReset_cache (taken : Nat) (s : State) : (applyReset taken s).cache = Vector.replicate 64 .transparent := rfl
@[simp] theorem applyReset_bsBuf (taken : Nat) (s : State) : (applyReset taken s).bsBuf = 0 := rfl
@[simp] theorem applyReset_bsCnt (taken : Nat) (s : State) : (applyReset taken s).bsCnt = 0 := rfl
@[simp] theorem applyReset_ckBuf (taken : Nat) (s : State) : (applyReset taken s).ckBuf = 0 := rfl
@[simp] theorem applyReset_ckCnt (taken : Nat) (s : State) : (applyReset taken s).ckCnt = 0 := rfl
@[simp] theorem applyReset_inCount (taken : Nat) (s : State) : (applyReset taken s).inCount = 0 := rfl
@[simp] theorem applyReset_chunk (taken : Nat) (s : State) : (applyReset taken s).chunk = .index 0 := rfl
@[simp] theorem applyReset_out (taken : Nat) (s : State) : (applyReset taken s).out = [] := rfl
@[simp] theorem applyReset_env (taken : Nat) (s : State) : (applyReset taken s).env = { s.env with input := streamAfter taken s, held := 0 } := rfl

/-! ### afterFetch (R34) -/

@[simp] theorem afterFetch_phase (i : Instr) (s : State) : (afterFetch i s).phase = s.phase := rfl
@[simp] theorem afterFetch_errCode (i : Instr) (s : State) : (afterFetch i s).errCode = s.errCode := rfl
@[simp] theorem afterFetch_hdrWidth (i : Instr) (s : State) : (afterFetch i s).hdrWidth = s.hdrWidth := rfl
@[simp] theorem afterFetch_hdrHeight (i : Instr) (s : State) : (afterFetch i s).hdrHeight = s.hdrHeight := rfl
@[simp] theorem afterFetch_hdrChannels (i : Instr) (s : State) : (afterFetch i s).hdrChannels = s.hdrChannels := rfl
@[simp] theorem afterFetch_hdrColorspace (i : Instr) (s : State) : (afterFetch i s).hdrColorspace = s.hdrColorspace := rfl
@[simp] theorem afterFetch_hdrValid (i : Instr) (s : State) : (afterFetch i s).hdrValid = s.hdrValid := rfl
@[simp] theorem afterFetch_totalPixels (i : Instr) (s : State) : (afterFetch i s).totalPixels = s.totalPixels := rfl
@[simp] theorem afterFetch_pixelsWritten (i : Instr) (s : State) : (afterFetch i s).pixelsWritten = s.pixelsWritten := rfl
@[simp] theorem afterFetch_prev (i : Instr) (s : State) : (afterFetch i s).prev = s.prev := rfl
@[simp] theorem afterFetch_cache (i : Instr) (s : State) : (afterFetch i s).cache = s.cache := rfl
@[simp] theorem afterFetch_bsBuf (i : Instr) (s : State) : (afterFetch i s).bsBuf = (encode i).getLastD 0 := rfl
@[simp] theorem afterFetch_bsCnt (i : Instr) (s : State) : (afterFetch i s).bsCnt = 0 := rfl
@[simp] theorem afterFetch_ckBuf (i : Instr) (s : State) : (afterFetch i s).ckBuf = (checkpointOf i s).1 := rfl
@[simp] theorem afterFetch_ckCnt (i : Instr) (s : State) : (afterFetch i s).ckCnt = (checkpointOf i s).2 := rfl
@[simp] theorem afterFetch_inCount (i : Instr) (s : State) : (afterFetch i s).inCount = s.inCount + BitVec.ofNat 64 i.byteLength := rfl
@[simp] theorem afterFetch_chunk (i : Instr) (s : State) : (afterFetch i s).chunk = s.chunk := rfl
@[simp] theorem afterFetch_out (i : Instr) (s : State) : (afterFetch i s).out = s.out := rfl
@[simp] theorem afterFetch_env (i : Instr) (s : State) : (afterFetch i s).env = s.env := rfl

/-! ### waitAt (R292, R293) -/

@[simp] theorem waitAt_phase (s t : State) : (waitAt s t).phase = s.phase := rfl
@[simp] theorem waitAt_errCode (s t : State) : (waitAt s t).errCode = s.errCode := rfl
@[simp] theorem waitAt_hdrWidth (s t : State) : (waitAt s t).hdrWidth = s.hdrWidth := rfl
@[simp] theorem waitAt_hdrHeight (s t : State) : (waitAt s t).hdrHeight = s.hdrHeight := rfl
@[simp] theorem waitAt_hdrChannels (s t : State) : (waitAt s t).hdrChannels = s.hdrChannels := rfl
@[simp] theorem waitAt_hdrColorspace (s t : State) : (waitAt s t).hdrColorspace = s.hdrColorspace := rfl
@[simp] theorem waitAt_hdrValid (s t : State) : (waitAt s t).hdrValid = s.hdrValid := rfl
@[simp] theorem waitAt_totalPixels (s t : State) : (waitAt s t).totalPixels = s.totalPixels := rfl
@[simp] theorem waitAt_pixelsWritten (s t : State) : (waitAt s t).pixelsWritten = s.pixelsWritten := rfl
@[simp] theorem waitAt_prev (s t : State) : (waitAt s t).prev = s.prev := rfl
@[simp] theorem waitAt_cache (s t : State) : (waitAt s t).cache = s.cache := rfl
@[simp] theorem waitAt_bsBuf (s t : State) : (waitAt s t).bsBuf = s.bsBuf := rfl
@[simp] theorem waitAt_bsCnt (s t : State) : (waitAt s t).bsCnt = s.bsCnt := rfl
@[simp] theorem waitAt_ckBuf (s t : State) : (waitAt s t).ckBuf = s.ckBuf := rfl
@[simp] theorem waitAt_ckCnt (s t : State) : (waitAt s t).ckCnt = s.ckCnt := rfl
@[simp] theorem waitAt_inCount (s t : State) : (waitAt s t).inCount = s.inCount := rfl
@[simp] theorem waitAt_chunk (s t : State) : (waitAt s t).chunk = s.chunk := rfl
@[simp] theorem waitAt_out (s t : State) : (waitAt s t).out = s.out := rfl
@[simp] theorem waitAt_env (s t : State) :
    (waitAt s t).env = { s.env with held := t.inCount.toNat - s.inCount.toNat } := rfl

/-! ### checkDone (R226) -/

@[simp] theorem checkDone_phase (s : State) :
    (checkDone s).phase = if s.pixelsWritten = s.totalPixels then .done else s.phase := by
  unfold checkDone; split <;> rfl
@[simp] theorem checkDone_errCode (s : State) : (checkDone s).errCode = s.errCode := by unfold checkDone; split <;> rfl
@[simp] theorem checkDone_hdrWidth (s : State) : (checkDone s).hdrWidth = s.hdrWidth := by unfold checkDone; split <;> rfl
@[simp] theorem checkDone_hdrHeight (s : State) : (checkDone s).hdrHeight = s.hdrHeight := by unfold checkDone; split <;> rfl
@[simp] theorem checkDone_hdrChannels (s : State) : (checkDone s).hdrChannels = s.hdrChannels := by unfold checkDone; split <;> rfl
@[simp] theorem checkDone_hdrColorspace (s : State) : (checkDone s).hdrColorspace = s.hdrColorspace := by unfold checkDone; split <;> rfl
@[simp] theorem checkDone_hdrValid (s : State) : (checkDone s).hdrValid = s.hdrValid := by unfold checkDone; split <;> rfl
@[simp] theorem checkDone_totalPixels (s : State) : (checkDone s).totalPixels = s.totalPixels := by unfold checkDone; split <;> rfl
@[simp] theorem checkDone_pixelsWritten (s : State) : (checkDone s).pixelsWritten = s.pixelsWritten := by unfold checkDone; split <;> rfl
@[simp] theorem checkDone_prev (s : State) : (checkDone s).prev = s.prev := by unfold checkDone; split <;> rfl
@[simp] theorem checkDone_cache (s : State) : (checkDone s).cache = s.cache := by unfold checkDone; split <;> rfl
@[simp] theorem checkDone_bsBuf (s : State) : (checkDone s).bsBuf = s.bsBuf := by unfold checkDone; split <;> rfl
@[simp] theorem checkDone_bsCnt (s : State) : (checkDone s).bsCnt = s.bsCnt := by unfold checkDone; split <;> rfl
@[simp] theorem checkDone_ckBuf (s : State) : (checkDone s).ckBuf = s.ckBuf := by unfold checkDone; split <;> rfl
@[simp] theorem checkDone_ckCnt (s : State) : (checkDone s).ckCnt = s.ckCnt := by unfold checkDone; split <;> rfl
@[simp] theorem checkDone_inCount (s : State) : (checkDone s).inCount = s.inCount := by unfold checkDone; split <;> rfl
@[simp] theorem checkDone_chunk (s : State) : (checkDone s).chunk = s.chunk := by unfold checkDone; split <;> rfl
@[simp] theorem checkDone_out (s : State) : (checkDone s).out = s.out := by unfold checkDone; split <;> rfl
@[simp] theorem checkDone_env (s : State) : (checkDone s).env = s.env := by unfold checkDone; split <;> rfl

/-! ### emitMany (R200) -/

@[simp] theorem emitMany_phase (m : Nat) (p : Pixel) (s : State) : (emitMany m p s).phase = s.phase := by
  induction m generalizing s with
  | zero => rfl
  | succ k ih => simp [emitMany, ih]
@[simp] theorem emitMany_errCode (m : Nat) (p : Pixel) (s : State) : (emitMany m p s).errCode = s.errCode := by
  induction m generalizing s with
  | zero => rfl
  | succ k ih => simp [emitMany, ih]
@[simp] theorem emitMany_hdrWidth (m : Nat) (p : Pixel) (s : State) : (emitMany m p s).hdrWidth = s.hdrWidth := by
  induction m generalizing s with
  | zero => rfl
  | succ k ih => simp [emitMany, ih]
@[simp] theorem emitMany_hdrHeight (m : Nat) (p : Pixel) (s : State) : (emitMany m p s).hdrHeight = s.hdrHeight := by
  induction m generalizing s with
  | zero => rfl
  | succ k ih => simp [emitMany, ih]
@[simp] theorem emitMany_hdrChannels (m : Nat) (p : Pixel) (s : State) : (emitMany m p s).hdrChannels = s.hdrChannels := by
  induction m generalizing s with
  | zero => rfl
  | succ k ih => simp [emitMany, ih]
@[simp] theorem emitMany_hdrColorspace (m : Nat) (p : Pixel) (s : State) : (emitMany m p s).hdrColorspace = s.hdrColorspace := by
  induction m generalizing s with
  | zero => rfl
  | succ k ih => simp [emitMany, ih]
@[simp] theorem emitMany_hdrValid (m : Nat) (p : Pixel) (s : State) : (emitMany m p s).hdrValid = s.hdrValid := by
  induction m generalizing s with
  | zero => rfl
  | succ k ih => simp [emitMany, ih]
@[simp] theorem emitMany_totalPixels (m : Nat) (p : Pixel) (s : State) : (emitMany m p s).totalPixels = s.totalPixels := by
  induction m generalizing s with
  | zero => rfl
  | succ k ih => simp [emitMany, ih]
@[simp] theorem emitMany_pixelsWritten (m : Nat) (p : Pixel) (s : State) :
    (emitMany m p s).pixelsWritten = s.pixelsWritten + BitVec.ofNat 64 m := by
  induction m generalizing s with
  | zero => simp [emitMany]
  | succ k ih =>
    rw [emitMany, ih, emit_pixelsWritten, Nat.add_comm k 1, BitVec.ofNat_add, BitVec.add_assoc]
    rfl
@[simp] theorem emitMany_prev (m : Nat) (p : Pixel) (s : State) : (emitMany m p s).prev = s.prev := by
  induction m generalizing s with
  | zero => rfl
  | succ k ih => simp [emitMany, ih]
@[simp] theorem emitMany_cache (m : Nat) (p : Pixel) (s : State) : (emitMany m p s).cache = s.cache := by
  induction m generalizing s with
  | zero => rfl
  | succ k ih => simp [emitMany, ih]
@[simp] theorem emitMany_bsBuf (m : Nat) (p : Pixel) (s : State) : (emitMany m p s).bsBuf = s.bsBuf := by
  induction m generalizing s with
  | zero => rfl
  | succ k ih => simp [emitMany, ih]
@[simp] theorem emitMany_bsCnt (m : Nat) (p : Pixel) (s : State) : (emitMany m p s).bsCnt = s.bsCnt := by
  induction m generalizing s with
  | zero => rfl
  | succ k ih => simp [emitMany, ih]
@[simp] theorem emitMany_ckBuf (m : Nat) (p : Pixel) (s : State) : (emitMany m p s).ckBuf = s.ckBuf := by
  induction m generalizing s with
  | zero => rfl
  | succ k ih => simp [emitMany, ih]
@[simp] theorem emitMany_ckCnt (m : Nat) (p : Pixel) (s : State) : (emitMany m p s).ckCnt = s.ckCnt := by
  induction m generalizing s with
  | zero => rfl
  | succ k ih => simp [emitMany, ih]
@[simp] theorem emitMany_inCount (m : Nat) (p : Pixel) (s : State) : (emitMany m p s).inCount = s.inCount := by
  induction m generalizing s with
  | zero => rfl
  | succ k ih => simp [emitMany, ih]
@[simp] theorem emitMany_chunk (m : Nat) (p : Pixel) (s : State) : (emitMany m p s).chunk = s.chunk := by
  induction m generalizing s with
  | zero => rfl
  | succ k ih => simp [emitMany, ih]
@[simp] theorem emitMany_out (m : Nat) (p : Pixel) (s : State) :
    (emitMany m p s).out = s.out ++ List.replicate m p := by
  induction m generalizing s with
  | zero => simp [emitMany]
  | succ k ih => simp [emitMany, ih, List.replicate_succ]
@[simp] theorem emitMany_env (m : Nat) (p : Pixel) (s : State) : (emitMany m p s).env = s.env := by
  induction m generalizing s with
  | zero => rfl
  | succ k ih => simp [emitMany, ih]

/-! ### produce (R171) -/

@[simp] theorem produce_phase (p : Pixel) (w : Bool) (s : State) : (produce p w s).phase = s.phase := by cases w <;> rfl
@[simp] theorem produce_errCode (p : Pixel) (w : Bool) (s : State) : (produce p w s).errCode = s.errCode := by cases w <;> rfl
@[simp] theorem produce_hdrWidth (p : Pixel) (w : Bool) (s : State) : (produce p w s).hdrWidth = s.hdrWidth := by cases w <;> rfl
@[simp] theorem produce_hdrHeight (p : Pixel) (w : Bool) (s : State) : (produce p w s).hdrHeight = s.hdrHeight := by cases w <;> rfl
@[simp] theorem produce_hdrChannels (p : Pixel) (w : Bool) (s : State) : (produce p w s).hdrChannels = s.hdrChannels := by cases w <;> rfl
@[simp] theorem produce_hdrColorspace (p : Pixel) (w : Bool) (s : State) : (produce p w s).hdrColorspace = s.hdrColorspace := by cases w <;> rfl
@[simp] theorem produce_hdrValid (p : Pixel) (w : Bool) (s : State) : (produce p w s).hdrValid = s.hdrValid := by cases w <;> rfl
@[simp] theorem produce_totalPixels (p : Pixel) (w : Bool) (s : State) : (produce p w s).totalPixels = s.totalPixels := by cases w <;> rfl
@[simp] theorem produce_pixelsWritten (p : Pixel) (w : Bool) (s : State) : (produce p w s).pixelsWritten = s.pixelsWritten + 1 := by cases w <;> rfl
@[simp] theorem produce_prev (p : Pixel) (w : Bool) (s : State) : (produce p w s).prev = p := by cases w <;> rfl
@[simp] theorem produce_cache (p : Pixel) (w : Bool) (s : State) :
    (produce p w s).cache = (if w then writeSlot (pixelHash p) p s else s).cache := by cases w <;> rfl
@[simp] theorem produce_bsBuf (p : Pixel) (w : Bool) (s : State) : (produce p w s).bsBuf = s.bsBuf := by cases w <;> rfl
@[simp] theorem produce_bsCnt (p : Pixel) (w : Bool) (s : State) : (produce p w s).bsCnt = s.bsCnt := by cases w <;> rfl
@[simp] theorem produce_ckBuf (p : Pixel) (w : Bool) (s : State) : (produce p w s).ckBuf = s.ckBuf := by cases w <;> rfl
@[simp] theorem produce_ckCnt (p : Pixel) (w : Bool) (s : State) : (produce p w s).ckCnt = s.ckCnt := by cases w <;> rfl
@[simp] theorem produce_inCount (p : Pixel) (w : Bool) (s : State) : (produce p w s).inCount = s.inCount := by cases w <;> rfl
@[simp] theorem produce_chunk (p : Pixel) (w : Bool) (s : State) : (produce p w s).chunk = s.chunk := by cases w <;> rfl
@[simp] theorem produce_out (p : Pixel) (w : Bool) (s : State) : (produce p w s).out = s.out ++ [p] := by cases w <;> rfl
@[simp] theorem produce_env (p : Pixel) (w : Bool) (s : State) : (produce p w s).env = s.env := by cases w <;> rfl

/-! ### applyRun (R200) -/

@[simp] theorem applyRun_phase (length : BitVec 6) (s : State) :
    (applyRun length s).phase = s.phase := by simp [applyRun]
@[simp] theorem applyRun_errCode (length : BitVec 6) (s : State) :
    (applyRun length s).errCode = s.errCode := by simp [applyRun]
@[simp] theorem applyRun_hdrWidth (length : BitVec 6) (s : State) :
    (applyRun length s).hdrWidth = s.hdrWidth := by simp [applyRun]
@[simp] theorem applyRun_hdrHeight (length : BitVec 6) (s : State) :
    (applyRun length s).hdrHeight = s.hdrHeight := by simp [applyRun]
@[simp] theorem applyRun_hdrChannels (length : BitVec 6) (s : State) :
    (applyRun length s).hdrChannels = s.hdrChannels := by simp [applyRun]
@[simp] theorem applyRun_hdrColorspace (length : BitVec 6) (s : State) :
    (applyRun length s).hdrColorspace = s.hdrColorspace := by simp [applyRun]
@[simp] theorem applyRun_hdrValid (length : BitVec 6) (s : State) :
    (applyRun length s).hdrValid = s.hdrValid := by simp [applyRun]
@[simp] theorem applyRun_totalPixels (length : BitVec 6) (s : State) :
    (applyRun length s).totalPixels = s.totalPixels := by simp [applyRun]
@[simp] theorem applyRun_pixelsWritten (length : BitVec 6) (s : State) :
    (applyRun length s).pixelsWritten = s.pixelsWritten + BitVec.ofNat 64 (runEmits length s) := by simp [applyRun]
@[simp] theorem applyRun_prev (length : BitVec 6) (s : State) :
    (applyRun length s).prev = s.prev := by simp [applyRun]
@[simp] theorem applyRun_cache (length : BitVec 6) (s : State) :
    (applyRun length s).cache = s.cache.set (pixelHash s.prev).toNat s.prev (pixelHash s.prev).isLt := by simp [applyRun]
@[simp] theorem applyRun_bsBuf (length : BitVec 6) (s : State) :
    (applyRun length s).bsBuf = s.bsBuf := by simp [applyRun]
@[simp] theorem applyRun_bsCnt (length : BitVec 6) (s : State) :
    (applyRun length s).bsCnt = s.bsCnt := by simp [applyRun]
@[simp] theorem applyRun_ckBuf (length : BitVec 6) (s : State) :
    (applyRun length s).ckBuf = s.ckBuf := by simp [applyRun]
@[simp] theorem applyRun_ckCnt (length : BitVec 6) (s : State) :
    (applyRun length s).ckCnt = s.ckCnt := by simp [applyRun]
@[simp] theorem applyRun_inCount (length : BitVec 6) (s : State) :
    (applyRun length s).inCount = s.inCount := by simp [applyRun]
@[simp] theorem applyRun_chunk (length : BitVec 6) (s : State) :
    (applyRun length s).chunk = s.chunk := by simp [applyRun]
@[simp] theorem applyRun_out (length : BitVec 6) (s : State) :
    (applyRun length s).out = s.out ++ List.replicate (runEmits length s) s.prev := by simp [applyRun]
@[simp] theorem applyRun_env (length : BitVec 6) (s : State) :
    (applyRun length s).env = s.env := by simp [applyRun]

end Sys2Proof.Machine
end

