-- ==== Sys2Proof/Laws/Memory.lean ====
section
/-! SUPPORT. The input stream and the colour cache: reads, writes, and what they keep. -/

namespace Sys2Proof.Machine

/-! ### The stream -/

theorem pendingBytes_eq_nil_iff (s : State) : pendingBytes s = [] ↔ s.env.input.length ≤ s.inCount.toNat := by
  simp [pendingBytes]

/-- The head of what is pending is the byte at `in_count`. -/
theorem read_inCount_of_pending {s : State} {b : Byte} {rest : List Byte} (h : pendingBytes s = b :: rest) :
    Memory.read s.env.input s.inCount.toNat = some b := by
  have := congrArg List.head? h
  simpa [pendingBytes, Memory.read, List.head?_drop] using this

theorem read_inCount_of_ended {s : State} (h : pendingBytes s = []) :
    Memory.read s.env.input s.inCount.toNat = none := by
  simpa [pendingBytes, Memory.read] using h

/-- Taking a byte does not wrap `in_count` on a stream of fewer than 2^64 bytes (R30). -/
theorem inCount_succ_toNat {s : State} {b : Byte} {rest : List Byte} (wf : Memory.wf s.env.input = true)
    (h : pendingBytes s = b :: rest) : (s.inCount + 1).toNat = s.inCount.toNat + 1 := by
  have hl : s.inCount.toNat < s.env.input.length := by
    apply Nat.lt_of_not_le
    intro hle
    rw [(pendingBytes_eq_nil_iff s).2 hle] at h
    cases h
  have hw : s.env.input.length < 2 ^ 64 := by simpa [Memory.wf] using wf
  rw [BitVec.toNat_add]
  exact Nat.mod_eq_of_lt (by simpa using by omega)

/-- After the byte at `in_count` the rest is pending. -/
theorem drop_inCount_succ {s : State} {b : Byte} {rest : List Byte} (wf : Memory.wf s.env.input = true)
    (h : pendingBytes s = b :: rest) : s.env.input.drop (s.inCount + 1).toNat = rest := by
  have := congrArg List.tail h
  rw [inCount_succ_toNat wf h]
  simpa [pendingBytes, List.tail_drop] using this

/-- The cells of a stream list its bytes at rising offsets from 0, one byte each: the canonical form. -/
theorem cells_eq (m : Memory) : Memory.cells m = (List.range m.length).zip m := by
  simp only [Memory.cells, List.zipIdx_eq_zip_range', List.range_eq_range', List.zip_eq_zipWith, List.map_zipWith]
  rw [List.zipWith_comm]

/-- Reading is looking up a cell. -/
theorem mem_cells_iff (m : Memory) (offset : Nat) (b : Byte) :
    (offset, b) ∈ Memory.cells m ↔ Memory.read m offset = some b := by
  simp [Memory.cells, Memory.read, List.mem_zipIdx_iff_getElem?]

/-- The streams an operation leaves are the stream it found or a tail of it, so they stay below 2^64 bytes. -/
theorem streamAfter_wf {s : State} (taken : Nat) (wf : Memory.wf s.env.input = true) :
    Memory.wf (streamAfter taken s) = true := by
  simp only [Memory.wf, streamAfter, List.length_drop, decide_eq_true_eq] at wf ⊢
  omega

/-- A stream further on is a tail (R285). -/
theorem streamAfter_suffix {j k : Nat} (s : State) (h : j ≤ k) : streamAfter k s <:+ streamAfter j s := by
  obtain ⟨d, rfl⟩ := Nat.exists_eq_add_of_le h
  simpa [streamAfter, ← Nat.add_assoc] using List.drop_suffix d (s.env.input.drop (s.inCount.toNat + j))

theorem nextStream_wf {s : State} {stream : Option Memory} (wf : Memory.wf s.env.input = true)
    (hs : ∀ m, stream = some m → Memory.wf m = true) : Memory.wf (nextStream stream s) = true := by
  cases stream with
  | some m => exact hs m rfl
  | none => exact streamAfter_wf _ wf

theorem start_stream_wf {s : State} {stream : Option Memory} (wf : Memory.wf s.env.input = true)
    (hs : ∀ m, stream = some m → Memory.wf m = true) : Memory.wf (start stream s).env.input = true :=
  nextStream_wf wf hs

theorem applyReset_stream_wf {s : State} (taken : Nat) (wf : Memory.wf s.env.input = true) :
    Memory.wf (applyReset taken s).env.input = true := streamAfter_wf taken wf

/-- The reset stream is in canonical form. -/
theorem reset_stream_wf : Memory.wf State.reset.env.input = true := by decide

/-! ### The colour cache -/

@[simp] theorem readSlot_writeSlot_same (i : Slot) (p : Pixel) (s : State) : readSlot i (writeSlot i p s) = p := by
  simp [readSlot]

theorem readSlot_writeSlot_other {i j : Slot} (h : i ≠ j) (p : Pixel) (s : State) :
    readSlot j (writeSlot i p s) = readSlot j s := by
  have : i.toNat ≠ j.toNat := fun e => h (BitVec.eq_of_toNat_eq e)
  simp [readSlot, this]

/-- A slot depends on the cache alone. -/
theorem readSlot_congr {s t : State} (h : s.cache = t.cache) (i : Slot) : readSlot i s = readSlot i t := by
  simp [readSlot, h]

theorem readSlot_replicate {s : State} {p : Pixel} (h : s.cache = Vector.replicate 64 p) (i : Slot) :
    readSlot i s = p := by
  simp [readSlot, h]

end Sys2Proof.Machine
end

