-- ==== Sys2Proof/Laws/BitSource.lean ====
section
/-! SUPPORT. What the bit source's operations do, once for each (spec/40_bit_source.md). -/

namespace Sys2Proof.Machine

/-! ### Bits of a byte -/

@[simp] theorem byteBits_all (b : Byte) : BitVec.ofNat 8 (byteBits b 0 8) = b := by
  apply BitVec.eq_of_toNat_eq
  simpa [byteBits] using b.isLt

/-- A field read from a byte is that slice of the byte (R9). -/
@[simp] theorem field_of_byteBits (b : Byte) (lo len : Nat) :
    BitVec.ofNat len (byteBits b lo len) = b.extractLsb' lo len := by
  apply BitVec.eq_of_toNat_eq
  simp only [byteBits, BitVec.toNat_ofNat, BitVec.extractLsb'_toNat, Nat.shiftRight_eq_div_pow, Nat.mod_mod]

/-! ### FetchByte -/

theorem fetchByte_pending {s : State} {b : Byte} {rest : List Byte} (h : pendingBytes s = b :: rest) :
    fetchByte s = .ok b { s with inCount := s.inCount + 1 } := by
  simp [fetchByte, read_inCount_of_pending h]

theorem fetchByte_ended {s : State} (h : pendingBytes s = []) :
    fetchByte s = if s.env.inEos then .raised (raiseError .eoi s) else .waits s := by
  simp [fetchByte, read_inCount_of_ended h]

/-- All a fetch can do. -/
theorem fetchByte_cases (s : State) :
    (∃ b rest, pendingBytes s = b :: rest ∧ fetchByte s = .ok b { s with inCount := s.inCount + 1 }) ∨
    (pendingBytes s = [] ∧ s.env.inEos = true ∧ fetchByte s = .raised (raiseError .eoi s)) ∨
    (pendingBytes s = [] ∧ s.env.inEos = false ∧ fetchByte s = .waits s) := by
  cases hp : pendingBytes s with
  | nil => cases he : s.env.inEos <;> simp [fetchByte_ended hp, he]
  | cons b rest => exact .inl ⟨b, rest, rfl, fetchByte_pending hp⟩

/-! ### ReadBits -/

theorem readBits_held {n : Nat} {s : State} (h1 : 1 ≤ n) (h : n ≤ s.bsCnt.val) :
    readBits n s = .ok (BitVec.ofNat 8 (byteBits s.bsBuf (s.bsCnt.val - n) n))
      { s with bsCnt := Fin.ofNat 9 (s.bsCnt.val - n) } := by
  have h8 : ¬ (n = 0 ∨ 8 < n) := by have := s.bsCnt.isLt; omega
  simp [readBits, h8, h]

theorem readBits_fetched {n : Nat} {s : State} {b : Byte} {rest : List Byte} (h1 : 1 ≤ n) (h8 : n ≤ 8)
    (hc : s.bsCnt = 0) (h : pendingBytes s = b :: rest) :
    readBits n s = .ok (BitVec.ofNat 8 (byteBits b (8 - n) n))
      { s with inCount := s.inCount + 1, bsBuf := b, bsCnt := Fin.ofNat 9 (8 - n) } := by
  have hn : ¬ (n = 0 ∨ 8 < n) := by omega
  have hk : ¬ n ≤ s.bsCnt.val := by rw [hc]; simp; omega
  simp [readBits, hn, hc, Ret.andThen, fetchByte_pending h, byteBits, Nat.mod_one]
  omega

theorem readBits_ended {n : Nat} {s : State} (h1 : 1 ≤ n) (h8 : n ≤ 8)
    (hc : s.bsCnt = 0) (h : pendingBytes s = []) :
    readBits n s = if s.env.inEos then .raised (raiseError .eoi s) else .waits s := by
  have hn : ¬ (n = 0 ∨ 8 < n) := by omega
  have hk : ¬ n ≤ s.bsCnt.val := by rw [hc]; simp; omega
  cases he : s.env.inEos <;> simp [readBits, hn, hk, Ret.andThen, fetchByte_ended h, he]


/-! ### Whole bytes -/

/-- One whole byte taken from the stream: a `ReadBits(8)` at a byte boundary (R107). -/
def took (b : Byte) (s : State) : State := { s with inCount := s.inCount + 1, bsBuf := b, bsCnt := 0 }

/-- These whole bytes taken, one after another. -/
def tookAll : List Byte → State → State
  | [], s => s
  | b :: bs, s => tookAll bs (took b s)

@[simp] theorem took_bsCnt (b : Byte) (s : State) : (took b s).bsCnt = 0 := rfl
@[simp] theorem took_env (b : Byte) (s : State) : (took b s).env = s.env := rfl
@[simp] theorem tookAll_nil (s : State) : tookAll [] s = s := rfl
@[simp] theorem tookAll_cons (b : Byte) (bs : List Byte) (s : State) :
    tookAll (b :: bs) s = tookAll bs (took b s) := rfl
@[simp] theorem tookAll_env (bs : List Byte) (s : State) : (tookAll bs s).env = s.env := by
  induction bs generalizing s with
  | nil => rfl
  | cons b bs ih => simp [ih]

theorem pendingBytes_took {s : State} {b : Byte} {rest : List Byte} (wf : Memory.wf s.env.input = true)
    (h : pendingBytes s = b :: rest) : pendingBytes (took b s) = rest := drop_inCount_succ wf h

/-- `took` in closed form. -/
theorem tookAll_eq (bs : List Byte) (s : State) (h : bs ≠ []) :
    tookAll bs s = { s with
      inCount := s.inCount + BitVec.ofNat 64 bs.length, bsBuf := bs.getLastD 0, bsCnt := 0 } := by
  induction bs generalizing s with
  | nil => exact absurd rfl h
  | cons b bs ih =>
    cases bs with
    | nil => rfl
    | cons c cs =>
      rw [tookAll_cons, ih _ (by simp)]
      have e : s.inCount + 1 + BitVec.ofNat 64 (c :: cs).length =
          s.inCount + BitVec.ofNat 64 (b :: c :: cs).length := by
        rw [List.length_cons (a := b), Nat.add_comm _ 1, BitVec.ofNat_add, BitVec.add_assoc]; rfl
      simp only [took, e, List.getLastD_cons]

theorem readBits_byte {s : State} {b : Byte} {rest : List Byte} (hc : s.bsCnt = 0)
    (h : pendingBytes s = b :: rest) : readBits 8 s = .ok b (took b s) := by
  rw [readBits_fetched (n := 8) (by decide) (by decide) hc h]
  simp [took]

/-- How a read that finds no byte ends in this state (R101, R292). -/
def outOfBytes {α : Type} (s : State) : Ret α :=
  if s.env.inEos then .raised (raiseError .eoi s) else .waits s

@[simp] theorem outOfBytes_andThen {α β : Type} (s : State) (next : α → State → Ret β) :
    (outOfBytes s : Ret α).andThen next = outOfBytes s := by
  unfold outOfBytes; split <;> rfl

theorem readBits_byte_outOfBytes {s : State} (hc : s.bsCnt = 0) (h : pendingBytes s = []) :
    readBits 8 s = outOfBytes s := readBits_ended (by decide) (by decide) hc h

/-- One `ReadBits(8)` at a byte boundary, in sequence: the next byte, or the end of the stream. -/
theorem readByte_andThen {β : Type} {s : State} (hc : s.bsCnt = 0) (next : Byte → State → Ret β) :
    (readBits 8 s).andThen next =
      match pendingBytes s with
      | [] => outOfBytes s
      | b :: _ => next b (took b s) := by
  cases h : pendingBytes s with
  | nil => rw [readBits_byte_outOfBytes hc h]; simp
  | cons b rest => rw [readBits_byte hc h]; rfl

/-- Four `ReadBits(8)` in sequence at a byte boundary. -/
theorem readFour_andThen {β : Type} {s : State} (wf : Memory.wf s.env.input = true) (hc : s.bsCnt = 0)
    (next : Byte → Byte → Byte → Byte → State → Ret β) :
    ((readBits 8 s).andThen fun b0 s => (readBits 8 s).andThen fun b1 s => (readBits 8 s).andThen fun b2 s =>
      (readBits 8 s).andThen fun b3 s => next b0 b1 b2 b3 s) =
      match pendingBytes s with
      | b0 :: b1 :: b2 :: b3 :: _ => next b0 b1 b2 b3 (tookAll [b0, b1, b2, b3] s)
      | short => outOfBytes (tookAll short s) := by
  rw [readByte_andThen hc]
  cases h : pendingBytes s with
  | nil => rfl
  | cons b0 rest =>
    have h1 := pendingBytes_took wf h
    simp only [readByte_andThen (took_bsCnt b0 s), h1]
    cases rest with
    | nil => rfl
    | cons b1 rest =>
      have h2 := pendingBytes_took (s := took b0 s) wf h1
      simp only [readByte_andThen (took_bsCnt b1 _), h2]
      cases rest with
      | nil => rfl
      | cons b2 rest =>
        have h3 := pendingBytes_took (s := took b1 (took b0 s)) wf h2
        simp only [readByte_andThen (took_bsCnt b2 _), h3]
        cases rest with
        | nil => rfl
        | cons b3 rest => rfl

end Sys2Proof.Machine
end

