-- ==== Sys2Proof/Laws/Encoding.lean ====
section
/-! SUPPORT. The encoder's and decoder's bit slices: what joins to what. -/

namespace Sys2Proof

/-- Splitting a u32 and joining its bytes gives it back (R52). -/
@[simp] theorem beWord_of_beBytes (w : Word32) :
    beWord (w.extractLsb' 24 8) (w.extractLsb' 16 8) (w.extractLsb' 8 8) (w.extractLsb' 0 8) = w := by
  have h : ∀ i, (beWord (w.extractLsb' 24 8) (w.extractLsb' 16 8) (w.extractLsb' 8 8)
      (w.extractLsb' 0 8)).getLsbD i = w.getLsbD i := by
    intro i
    show BitVec.getLsbD (w := 8 + 8 + 8 + 8) _ i = _
    unfold beWord
    simp only [BitVec.getLsbD_append, BitVec.getLsbD_extractLsb', Nat.zero_add]
    split
    · simp [*]
    split
    · rw [show 8 + (i - 8) = i by omega]; simp; omega
    split
    · rw [show 16 + (i - 8 - 8) = i by omega]; simp; omega
    · rw [show 24 + (i - 8 - 8 - 8) = i by omega]
      simp
      intro hi
      have := BitVec.lt_of_getLsbD hi
      omega
  exact BitVec.eq_of_getLsbD_eq fun i _ => h i

/-- Joining four bytes and splitting the u32 gives them back (R52). -/
@[simp] theorem beBytes_beWord (b0 b1 b2 b3 : Byte) : beBytes (beWord b0 b1 b2 b3) = [b0, b1, b2, b3] := by
  simp only [beBytes, beWord, List.cons.injEq, and_true]
  refine ⟨?_, ?_, ?_, ?_⟩ <;> ext i hi <;> simp <;> grind

/-- A byte is its 2-bit tag and its other fields, in each of the four layouts (R71), and two halves; a byte that
is no other chunk's tag holds a legal run length (R76). -/
theorem byte_of_fields : ∀ b : Byte,
    (b.extractLsb' 6 2 = (0b00 : BitVec 2) → b = (0b00 : BitVec 2) ++ b.extractLsb' 0 6) ∧
    (b.extractLsb' 6 2 = (0b01 : BitVec 2) →
      b = (0b01 : BitVec 2) ++ b.extractLsb' 4 2 ++ b.extractLsb' 2 2 ++ b.extractLsb' 0 2) ∧
    (b.extractLsb' 6 2 = (0b10 : BitVec 2) → b = (0b10 : BitVec 2) ++ b.extractLsb' 0 6) ∧
    (b.extractLsb' 6 2 ≠ (0b00 : BitVec 2) → b.extractLsb' 6 2 ≠ (0b01 : BitVec 2) →
      b.extractLsb' 6 2 ≠ (0b10 : BitVec 2) →
      b = (0b11 : BitVec 2) ++ b.extractLsb' 0 6 ∧
      (b ≠ 0xFE → b ≠ 0xFF → Instr.runLengthOk (b.extractLsb' 0 6) = true)) ∧
    b = b.extractLsb' 4 4 ++ b.extractLsb' 0 4 := by decide

/-- An instruction's bytes are as many as the table says (R74, R59). -/
@[simp] theorem encode_length (i : Instr) : (encode i).length = i.byteLength := by cases i <;> rfl

theorem byteLength_pos (i : Instr) : 0 < i.byteLength := by cases i <;> simp [Instr.byteLength]

/-- What the chunk decoder gives is a chunk. -/
theorem decodeChunk_isHeader {bytes rest : List Byte} {i : Instr} (h : decodeChunk bytes = .ok (i, rest)) :
    i.isHeader = false := by
  unfold decodeChunk at h
  repeat' split at h
  all_goals first | (cases h; rfl) | cases h

/-- A decoded chunk's bytes and the rest are the bytes it was decoded from (R74). -/
theorem decodeChunk_length {bytes rest : List Byte} {i : Instr} (h : decodeChunk bytes = .ok (i, rest)) :
    bytes.length = i.byteLength + rest.length := by
  unfold decodeChunk at h
  repeat' split at h
  all_goals first | (cases h; simp only [List.length_cons, Instr.byteLength]; omega) | cases h

end Sys2Proof
end

