-- ==== Sys2Proof/Laws/Fetch.lean ====
section
/-! SUPPORT. What the tag decoder, the payload extractor and the header's reads do, once for each. -/

namespace Sys2Proof.Machine

/-! ### DecodeTag -/

/-- The kind the first byte of a chunk selects (R77). -/
def kindOf (b : Byte) : ChunkKind :=
  if b = 0xFE then .rgb
  else if b = 0xFF then .rgba
  else if b.extractLsb' 6 2 = (0b00 : BitVec 2) then .index
  else if b.extractLsb' 6 2 = (0b01 : BitVec 2) then .diff
  else if b.extractLsb' 6 2 = (0b10 : BitVec 2) then .luma
  else .run

/-- The state in which a 2-bit tag is taken: six bits of the first byte are held (R142). -/
def tagTaken (b : Byte) (s : State) : State := { s with inCount := s.inCount + 1, bsBuf := b, bsCnt := 6 }

/-- The state after the tag of a chunk with this first byte (R141, R142): the whole byte is the tag of RGB and
RGBA, and a tag that starts `11` leaves its checkpoint. -/
def tagState (b : Byte) (s : State) : State :=
  match kindOf b with
  | .index | .diff | .luma => tagTaken b s
  | .run => { tagTaken b s with ckBuf := b, ckCnt := 6 }
  | .rgb | .rgba => { tagTaken b s with bsCnt := 0, ckBuf := b, ckCnt := 6 }

/-- The comparisons of R141 on the bits read are the first-byte map of R77. -/
theorem kindOf_from_bits : ∀ b : Byte,
    kindOf b =
      if BitVec.ofNat 8 (byteBits b 6 2) = 0b00 then .index
      else if BitVec.ofNat 8 (byteBits b 6 2) = 0b01 then .diff
      else if BitVec.ofNat 8 (byteBits b 6 2) = 0b10 then .luma
      else if BitVec.ofNat 8 (byteBits b 0 6) = 0b111110 then .rgb
      else if BitVec.ofNat 8 (byteBits b 0 6) = 0b111111 then .rgba
      else .run := by decide

theorem decodeTag_pending {s : State} {b : Byte} {rest : List Byte} (hc : s.bsCnt = 0)
    (h : pendingBytes s = b :: rest) : decodeTag s = .ok (kindOf b) (tagState b s) := by
  have hk := kindOf_from_bits b
  simp only [decodeTag, readBits_fetched (n := 2) (by decide) (by decide) hc h, Ret.andThen]
  split
  · rename_i h0; simp_all [tagState, tagTaken]
  split
  · rename_i h0 h1; simp_all [tagState, tagTaken]
  split
  · rename_i h0 h1 h2; simp_all [tagState, tagTaken]
  rename_i h0 h1 h2
  rw [readBits_held (by decide) (by simp)]
  have e : (Fin.ofNat 9 (8 - 2)).val - 6 = 0 := rfl
  simp only [checkpoint, e]
  by_cases h3 : BitVec.ofNat 8 (byteBits b 0 6) = 0b111110
  · simp_all [tagState, tagTaken]
  by_cases h4 : BitVec.ofNat 8 (byteBits b 0 6) = 0b111111
  · simp_all [tagState, tagTaken]
  simp_all [tagState, tagTaken, restore]

theorem decodeTag_ended {s : State} (hc : s.bsCnt = 0) (h : pendingBytes s = []) :
    decodeTag s = if s.env.inEos then .raised (raiseError .eoi s) else .waits s := by
  cases he : s.env.inEos <;>
    simp [decodeTag, readBits_ended (n := 2) (by decide) (by decide) hc h, Ret.andThen, he]


/-! ### Payloads -/

theorem payloadIndex_held {s : State} (hc : s.bsCnt = 6) :
    payloadIndex s = .ok (.index (s.bsBuf.extractLsb' 0 6)) { s with bsCnt := 0 } := by
  simp [payloadIndex, readBits_held (n := 6) (s := s) (by decide) (by simp [hc]), Ret.andThen, hc]

theorem payloadRun_held {s : State} (hc : s.bsCnt = 6) :
    payloadRun s = .ok (.run (s.bsBuf.extractLsb' 0 6)) { s with bsCnt := 0 } := by
  simp [payloadRun, readBits_held (n := 6) (s := s) (by decide) (by simp [hc]), Ret.andThen, hc]

theorem payloadDiff_held {s : State} (hc : s.bsCnt = 6) :
    payloadDiff s = .ok (.diff (s.bsBuf.extractLsb' 4 2) (s.bsBuf.extractLsb' 2 2) (s.bsBuf.extractLsb' 0 2))
      { s with bsCnt := 0 } := by
  simp [payloadDiff, readBits_held, Ret.andThen, hc]

theorem payloadLuma_held {s : State} {b1 : Byte} {rest : List Byte} (hc : s.bsCnt = 6)
    (h : pendingBytes s = b1 :: rest) :
    payloadLuma s = .ok (.luma (s.bsBuf.extractLsb' 0 6) (b1.extractLsb' 4 4) (b1.extractLsb' 0 4))
      (took b1 s) := by
  have h' : pendingBytes { s with bsCnt := 0 } = b1 :: rest := h
  simp only [payloadLuma, readBits_held (n := 6) (s := s) (by decide) (by simp [hc]), Ret.andThen]
  simp only [hc, show (6 : Fin 9).val - 6 = 0 from rfl, show Fin.ofNat 9 0 = (0 : Fin 9) from rfl,
    readBits_fetched (n := 4) (by decide) (by decide) rfl h']
  simp [readBits_held, took]


theorem payloadRgb_spec {s : State} (wf : Memory.wf s.env.input = true) (hc : s.bsCnt = 0) :
    payloadRgb s =
      match pendingBytes s with
      | r :: g :: b :: _ => .ok (.rgb r g b) (tookAll [r, g, b] s)
      | short => outOfBytes (tookAll short s) := by
  unfold payloadRgb
  rw [readByte_andThen hc]
  cases h : pendingBytes s with
  | nil => rfl
  | cons r rest =>
    have h1 := pendingBytes_took wf h
    simp only [readByte_andThen (took_bsCnt r s), h1]
    cases rest with
    | nil => rfl
    | cons g rest =>
      have h2 := pendingBytes_took (s := took r s) wf h1
      simp only [readByte_andThen (took_bsCnt g _), h2]
      cases rest with
      | nil => rfl
      | cons b rest => rfl

theorem payloadRgba_spec {s : State} (wf : Memory.wf s.env.input = true) (hc : s.bsCnt = 0) :
    payloadRgba s =
      match pendingBytes s with
      | r :: g :: b :: a :: _ => .ok (.rgba r g b a) (tookAll [r, g, b, a] s)
      | short => outOfBytes (tookAll short s) := readFour_andThen wf hc _

/-! ### The header's reads -/

theorem readWord32_spec {s : State} (wf : Memory.wf s.env.input = true) (hc : s.bsCnt = 0) :
    readWord32 s =
      match pendingBytes s with
      | b0 :: b1 :: b2 :: b3 :: _ => .ok (beWord b0 b1 b2 b3) (tookAll [b0, b1, b2, b3] s)
      | short => outOfBytes (tookAll short s) := readFour_andThen wf hc _

theorem readMagic_spec {s : State} (wf : Memory.wf s.env.input = true) (hc : s.bsCnt = 0) :
    readMagic s =
      match pendingBytes s with
      | m0 :: m1 :: m2 :: m3 :: _ =>
        if [m0, m1, m2, m3] = magicBytes then .ok () (tookAll [m0, m1, m2, m3] s)
        else .raised (raiseError .fmt (tookAll [m0, m1, m2, m3] s))
      | short => outOfBytes (tookAll short s) := readFour_andThen wf hc _

end Sys2Proof.Machine
end

