-- ==== Sys2Proof/Laws/ChunkFetch.lean ====
section
/-! SUPPORT. All that fetching a chunk can do (R140, R151): one lemma for each kind, then one over all. -/

namespace Sys2Proof.Machine

/-- `t` differs from `s` only in what a fetch writes: the bit source, its checkpoint and `in_count` (R33). -/
def FetchOnly (s t : State) : Prop :=
  t = { s with inCount := t.inCount, bsBuf := t.bsBuf, bsCnt := t.bsCnt, ckBuf := t.ckBuf, ckCnt := t.ckCnt }

theorem FetchOnly.env {s t : State} (h : FetchOnly s t) : t.env = s.env := by rw [h]

/-- The two ends of fetching a chunk that starts at a byte boundary. -/
inductive ChunkFetch (s : State) : Ret Instr → Prop
  /-- The bytes decode, and they are taken. -/
  | whole (i : Instr) (rest : List Byte) (decodes : decodeChunk (pendingBytes s) = .ok (i, rest)) :
      ChunkFetch s (.ok i (afterFetch i s))
  /-- The bytes end first; all of them are taken. -/
  | short (t : State) (decodes : decodeChunk (pendingBytes s) = .error .truncated) (only : FetchOnly s t)
      (aligned : t.bsCnt = 0) (taken : t.inCount = s.inCount + BitVec.ofNat 64 (pendingBytes s).length) :
      ChunkFetch s (outOfBytes t)

theorem ChunkFetch.of_eq {s t : State} {i : Instr} {rest : List Byte}
    (hd : decodeChunk (pendingBytes s) = .ok (i, rest)) (e : t = afterFetch i s) : ChunkFetch s (.ok i t) :=
  e ▸ .whole i rest hd

/-- A chunk's fetch goes on from its tag with the payload of the kind its first byte selects. -/
theorem fetchChunk_pending {s : State} {b : Byte} {rest : List Byte} (hc : s.bsCnt = 0)
    (h : pendingBytes s = b :: rest) : fetchChunk s = extractPayload (kindOf b) (tagState b s) := by
  unfold fetchChunk
  rw [decodeTag_pending hc h]
  rfl

theorem fetchChunk_ended {s : State} (hc : s.bsCnt = 0) (h : pendingBytes s = []) :
    fetchChunk s = outOfBytes s := by
  unfold fetchChunk
  rw [decodeTag_ended hc h]
  unfold outOfBytes
  split <;> rfl

theorem pendingBytes_tagState {s : State} {b : Byte} {rest : List Byte} (wf : Memory.wf s.env.input = true)
    (h : pendingBytes s = b :: rest) : pendingBytes (tagState b s) = rest := by
  have := drop_inCount_succ wf h
  unfold tagState pendingBytes
  split <;> exact this

@[simp] theorem tagState_env (b : Byte) (s : State) : (tagState b s).env = s.env := by
  unfold tagState
  split <;> rfl

/-- The whole byte is the tag (R142): what a super-tag leaves. -/
theorem tagState_superTag (b : Byte) (s : State) (hb : b = 0xFE ∨ b = 0xFF) :
    tagState b s = { took b s with ckBuf := b, ckCnt := 6 } := by
  rcases hb with rfl | rfl <;> rfl

/-- Bytes taken after a super-tag, in closed form. -/
theorem tookAll_superTag (b : Byte) (bs : List Byte) (s : State) (hb : b = 0xFE ∨ b = 0xFF) :
    tookAll bs (tagState b s) = { s with
      inCount := s.inCount + BitVec.ofNat 64 (b :: bs).length, bsBuf := (b :: bs).getLastD 0, bsCnt := 0,
      ckBuf := b, ckCnt := 6 } := by
  rw [tagState_superTag b s hb]
  cases bs with
  | nil => rfl
  | cons c cs =>
    rw [tookAll_eq _ _ (by simp)]
    have e : (took b s).inCount + BitVec.ofNat 64 (c :: cs).length =
        s.inCount + BitVec.ofNat 64 (b :: c :: cs).length := by
      rw [List.length_cons (a := b), Nat.add_comm _ 1, BitVec.ofNat_add, ← BitVec.add_assoc]; rfl
    simp only [e, List.getLastD_cons]
    rfl

/-- A super-tag chunk on a stream that ends inside it. -/
theorem chunkFetch_superTag_short {s : State} {b : Byte} {bs : List Byte} (hb : b = 0xFE ∨ b = 0xFF)
    (h : pendingBytes s = b :: bs) (hd : decodeChunk (b :: bs) = .error .truncated) :
    ChunkFetch s (outOfBytes (tookAll bs (tagState b s))) := by
  rw [tookAll_superTag b bs s hb]
  exact .short _ (by rw [h]; exact hd) rfl rfl (by rw [h])

theorem fetchChunk_rgb {s : State} {bs : List Byte} (wf : Memory.wf s.env.input = true) (hc : s.bsCnt = 0)
    (h : pendingBytes s = 0xFE :: bs) : ChunkFetch s (fetchChunk s) := by
  rw [fetchChunk_pending hc h, show kindOf 0xFE = .rgb from rfl, extractPayload,
    payloadRgb_spec (by rw [tagState_env]; exact wf) rfl, pendingBytes_tagState wf h]
  match bs with
  | r :: g :: b :: rest =>
    simp only [tookAll_superTag 0xFE [r, g, b] s (.inl rfl)]
    exact .whole (.rgb r g b) rest (by rw [h]; rfl)
  | [] => exact chunkFetch_superTag_short (.inl rfl) h rfl
  | [_] => exact chunkFetch_superTag_short (.inl rfl) h rfl
  | [_, _] => exact chunkFetch_superTag_short (.inl rfl) h rfl

theorem fetchChunk_rgba {s : State} {bs : List Byte} (wf : Memory.wf s.env.input = true) (hc : s.bsCnt = 0)
    (h : pendingBytes s = 0xFF :: bs) : ChunkFetch s (fetchChunk s) := by
  rw [fetchChunk_pending hc h, show kindOf 0xFF = .rgba from rfl, extractPayload,
    payloadRgba_spec (by rw [tagState_env]; exact wf) rfl, pendingBytes_tagState wf h]
  match bs with
  | r :: g :: b :: a :: rest =>
    simp only [tookAll_superTag 0xFF [r, g, b, a] s (.inr rfl)]
    exact .whole (.rgba r g b a) rest (by rw [h]; rfl)
  | [] => exact chunkFetch_superTag_short (.inr rfl) h rfl
  | [_] => exact chunkFetch_superTag_short (.inr rfl) h rfl
  | [_, _] => exact chunkFetch_superTag_short (.inr rfl) h rfl
  | [_, _, _] => exact chunkFetch_superTag_short (.inr rfl) h rfl

theorem payloadLuma_ended {s : State} (hc : s.bsCnt = 6) (h : pendingBytes s = []) :
    payloadLuma s = outOfBytes { s with bsCnt := 0 } := by
  have h' : pendingBytes { s with bsCnt := 0 } = [] := h
  have e : ({ s with bsCnt := Fin.ofNat 9 (s.bsCnt.val - 6) } : State) = { s with bsCnt := 0 } := by
    rw [hc]; rfl
  unfold payloadLuma
  rw [readBits_held (n := 6) (s := s) (by decide) (by rw [hc]; decide), e]
  simp only [Ret.andThen, readBits_ended (n := 4) (by decide) (by decide) rfl h', outOfBytes]
  cases s.env.inEos <;> rfl

theorem fetchChunk_luma {s : State} {b : Byte} {bs : List Byte} (wf : Memory.wf s.env.input = true)
    (hc : s.bsCnt = 0) (h : pendingBytes s = b :: bs) (hk : kindOf b = .luma)
    (hd : decodeChunk (b :: bs) = match bs with
      | b1 :: tail => .ok (.luma (b.extractLsb' 0 6) (b1.extractLsb' 4 4) (b1.extractLsb' 0 4), tail)
      | [] => .error .truncated) :
    ChunkFetch s (fetchChunk s) := by
  have ht := pendingBytes_tagState wf h
  rw [fetchChunk_pending hc h, hk, extractPayload]
  simp only [tagState, hk] at ht ⊢
  cases bs with
  | nil =>
    rw [payloadLuma_ended rfl ht]
    exact .short _ (by rw [h]; exact hd) rfl rfl (by rw [h]; rfl)
  | cons b1 rest =>
    rw [payloadLuma_held rfl ht]
    refine ChunkFetch.of_eq (rest := rest) (by rw [h]; exact hd) ?_
    simp only [took, tagTaken, afterFetch, Instr.byteLength, encode, checkpointOf, BitVec.add_assoc,
      List.getLastD_cons, List.getLastD_nil, ← (byte_of_fields b1).2.2.2.2]
    rfl

/-- Fetching a chunk from a byte boundary takes the chunk the byte map gives, or everything that is left. -/
theorem fetchChunk_cases {s : State} (wf : Memory.wf s.env.input = true) (hc : s.bsCnt = 0) :
    ChunkFetch s (fetchChunk s) := by
  cases h : pendingBytes s with
  | nil =>
    rw [fetchChunk_ended hc h]
    exact .short s (by rw [h]; rfl) rfl hc (by rw [h]; simp)
  | cons b bs =>
    by_cases hFE : b = 0xFE
    · subst hFE; exact fetchChunk_rgb wf hc h
    by_cases hFF : b = 0xFF
    · subst hFF; exact fetchChunk_rgba wf hc h
    obtain ⟨c0, c1, _, c3, _⟩ := byte_of_fields b
    by_cases h0 : b.extractLsb' 6 2 = (0b00 : BitVec 2)
    · have hk : kindOf b = .index := by simp only [kindOf, if_neg hFE, if_neg hFF, if_pos h0]
      rw [fetchChunk_pending hc h, hk, extractPayload]
      simp only [tagState, hk]
      rw [payloadIndex_held rfl]
      refine ChunkFetch.of_eq (i := .index (b.extractLsb' 0 6)) (rest := bs) ?_ ?_
      · rw [h]; simp only [decodeChunk, if_neg hFE, if_neg hFF, if_pos h0]
      · simp only [tagTaken, afterFetch, Instr.byteLength, encode, checkpointOf, ← c0 h0]; rfl
    by_cases h1 : b.extractLsb' 6 2 = (0b01 : BitVec 2)
    · have hk : kindOf b = .diff := by simp only [kindOf, if_neg hFE, if_neg hFF, if_neg h0, if_pos h1]
      rw [fetchChunk_pending hc h, hk, extractPayload]
      simp only [tagState, hk]
      rw [payloadDiff_held rfl]
      refine ChunkFetch.of_eq
        (i := .diff (b.extractLsb' 4 2) (b.extractLsb' 2 2) (b.extractLsb' 0 2)) (rest := bs) ?_ ?_
      · rw [h]; simp only [decodeChunk, if_neg hFE, if_neg hFF, if_neg h0, if_pos h1]
      · simp only [tagTaken, afterFetch, Instr.byteLength, encode, checkpointOf, ← c1 h1]; rfl
    by_cases h2 : b.extractLsb' 6 2 = (0b10 : BitVec 2)
    · have hk : kindOf b = .luma := by
        simp only [kindOf, if_neg hFE, if_neg hFF, if_neg h0, if_neg h1, if_pos h2]
      refine fetchChunk_luma wf hc h hk ?_
      simp only [decodeChunk, if_neg hFE, if_neg hFF, if_neg h0, if_neg h1, if_pos h2]
      cases bs <;> rfl
    have hk : kindOf b = .run := by
      simp only [kindOf, if_neg hFE, if_neg hFF, if_neg h0, if_neg h1, if_neg h2]
    rw [fetchChunk_pending hc h, hk, extractPayload]
    simp only [tagState, hk]
    rw [payloadRun_held rfl]
    refine ChunkFetch.of_eq (i := .run (b.extractLsb' 0 6)) (rest := bs) ?_ ?_
    · rw [h]; simp only [decodeChunk, if_neg hFE, if_neg hFF, if_neg h0, if_neg h1, if_neg h2]
    · simp only [tagTaken, afterFetch, Instr.byteLength, encode, checkpointOf, ← (c3 h0 h1 h2).1]; rfl

end Sys2Proof.Machine
end

