-- ==== Sys2Proof/Laws/Exec.lean ====
section
/-! SUPPORT. All that executing a chunk or the header can do. -/

namespace Sys2Proof.Machine

/-! ### The chunks -/

/-- The three shapes of a chunk's effect (R171, R174, R200). -/
inductive ChunkEffect (s : State) : Instr → State → Prop
  /-- INDEX: the slot, and no cache write. -/
  | index (idx : BitVec 6) :
      ChunkEffect s (.index idx) (checkDone (produce (readSlot idx s) false (latchChunk (.index idx) s)))
  /-- RUN: copies of the previous pixel. -/
  | run (length : BitVec 6) :
      ChunkEffect s (.run length) (checkDone (applyRun length (latchChunk (.run length) s)))
  /-- The other four: one new pixel `p`, whose alpha is that of `prev` but for RGBA (R179). -/
  | pixel (i : Instr) (c : Chunk) (p : Pixel) (noIndex : ∀ idx, i ≠ .index idx) (noRun : ∀ length, i ≠ .run length)
      (alpha : p.a = match i with | .rgba _ _ _ a => a | _ => s.prev.a) :
      ChunkEffect s i (checkDone (produce p true (latchChunk c s)))

theorem exec_chunk_cases {i : Instr} {s t : State} (hi : i.isHeader = false) (h : exec i s = .next t) :
    ChunkEffect s i t := by
  cases i with
  | index idx => cases h; exact .index idx
  | diff dr dg db => cases h; exact .pixel _ _ _ (by simp) (by simp) rfl
  | luma dg drDg dbDg => cases h; exact .pixel _ _ _ (by simp) (by simp) rfl
  | run length => cases h; exact .run length
  | rgb r g b => cases h; exact .pixel _ _ _ (by simp) (by simp) rfl
  | rgba r g b a => cases h; exact .pixel _ _ _ (by simp) (by simp) rfl
  | hdr w h' c cs => cases hi

/-- A chunk always completes. -/
theorem exec_chunk_next {i : Instr} (hi : i.isHeader = false) (s : State) : ∃ t, exec i s = .next t := by
  cases i <;> first | exact ⟨_, rfl⟩ | cases hi

theorem checkDone_phase_cases (s : State) : (checkDone s).phase = s.phase ∨ (checkDone s).phase = .done := by
  unfold checkDone
  split <;> simp

/-! ### The header -/

/-- The product of two 32-bit sizes does not wrap in 64 bits (R24). -/
theorem pixelCount_toNat (w h : Word32) : (pixelCount w h).toNat = w.toNat * h.toNat := by
  have hw := w.isLt
  have hh := h.isLt
  have : w.toNat * h.toNat < 2 ^ 64 := by
    calc w.toNat * h.toNat ≤ (2 ^ 32 - 1) * (2 ^ 32 - 1) := Nat.mul_le_mul (by omega) (by omega)
      _ < 2 ^ 64 := by norm_num
  simpa [pixelCount, BitVec.toNat_mul] using this

theorem pixelCount_eq_zero (w h : Word32) : pixelCount w h = 0 ↔ w = 0 ∨ h = 0 := by
  rw [← BitVec.toNat_inj, pixelCount_toNat]
  simp [← BitVec.toNat_inj]

theorem acceptHeader_over {w h : Word32} {s : State} (hm : s.env.maxPixels < pixelCount w h) :
    acceptHeader w h s = raiseError .alloc { s with totalPixels := pixelCount w h } := if_pos hm

theorem acceptHeader_within {w h : Word32} {s : State} (hm : ¬ s.env.maxPixels < pixelCount w h) :
    acceptHeader w h s = { s with
      totalPixels := pixelCount w h, hdrValid := true,
      phase := if pixelCount w h = 0 then .done else .decoding } := if_neg hm

/-- HDR's two ends: it raises, or it accepts; the header registers and `total_pixels` apart, nothing else
changes. -/
theorem execHdr_cases {w h : Word32} {c cs : Byte} {s t : State} (hx : exec (.hdr w h c cs) s = .next t) :
    ∃ u, u = { s with
        hdrWidth := w, hdrHeight := h, hdrChannels := c, hdrColorspace := u.hdrColorspace,
        totalPixels := u.totalPixels } ∧
      (t = raiseError .fmt u ∨ t = raiseError .alloc u ∨
        t = { u with hdrValid := true, phase := if pixelCount w h = 0 then .done else .decoding }) := by
  simp only [exec, execHdr, setChannels, setColorspace, setWidth, setHeight] at hx
  split at hx
  · simp only [Ret.andThen] at hx
    split at hx
    · simp only [Ret.into, acceptHeader] at hx
      split at hx
      · cases hx
        exact ⟨{ s with
          hdrWidth := w, hdrHeight := h, hdrChannels := c, hdrColorspace := cs, totalPixels := pixelCount w h },
          rfl, .inr (.inl rfl)⟩
      · cases hx
        exact ⟨{ s with
          hdrWidth := w, hdrHeight := h, hdrChannels := c, hdrColorspace := cs, totalPixels := pixelCount w h },
          rfl, .inr (.inr rfl)⟩
    · cases hx
      exact ⟨{ s with hdrWidth := w, hdrHeight := h, hdrChannels := c, hdrColorspace := cs }, rfl, .inl rfl⟩
  · cases hx
    exact ⟨{ s with hdrWidth := w, hdrHeight := h, hdrChannels := c }, rfl, .inl rfl⟩

end Sys2Proof.Machine
end

