-- ==== Sys2Proof/Laws/HeaderFetch.lean ====
section
/-! SUPPORT. All that fetching the header can do (R121, R130), read by read. -/

namespace Sys2Proof.Machine

/-! ### Whole bytes taken -/

theorem pendingBytes_tookAll {bs rest : List Byte} {s : State} (wf : Memory.wf s.env.input = true)
    (h : pendingBytes s = bs ++ rest) : pendingBytes (tookAll bs s) = rest := by
  induction bs generalizing s with
  | nil => exact h
  | cons b bs ih => exact ih wf (pendingBytes_took wf h)

theorem tookAll_bsCnt {bs : List Byte} {s : State} (h : s.bsCnt = 0) : (tookAll bs s).bsCnt = 0 := by
  induction bs generalizing s with
  | nil => exact h
  | cons b bs ih => exact ih rfl

theorem tookAll_inCount (bs : List Byte) (s : State) :
    (tookAll bs s).inCount = s.inCount + BitVec.ofNat 64 bs.length := by
  cases bs with
  | nil => simp
  | cons b bs => rw [tookAll_eq _ _ (by simp)]

theorem four_of_length {α : Type} {l : List α} (h : 4 ≤ l.length) :
    ∃ a b c d rest, l = a :: b :: c :: d :: rest := by
  match l with
  | a :: b :: c :: d :: rest => exact ⟨a, b, c, d, rest, rfl⟩
  | [] | [_] | [_, _] | [_, _, _] => simp at h

theorem readWord32_whole {s : State} {b0 b1 b2 b3 : Byte} {rest : List Byte}
    (wf : Memory.wf s.env.input = true) (hc : s.bsCnt = 0) (h : pendingBytes s = b0 :: b1 :: b2 :: b3 :: rest) :
    readWord32 s = .ok (beWord b0 b1 b2 b3) (tookAll [b0, b1, b2, b3] s) := by
  rw [readWord32_spec wf hc, h]

theorem readWord32_short {s : State} (wf : Memory.wf s.env.input = true) (hc : s.bsCnt = 0)
    (h : (pendingBytes s).length < 4) : readWord32 s = outOfBytes (tookAll (pendingBytes s) s) := by
  rw [readWord32_spec wf hc]
  match hp : pendingBytes s with
  | _ :: _ :: _ :: _ :: _ => rw [hp] at h; simp at h; omega
  | [] | [_] | [_, _] | [_, _, _] => rfl

theorem readMagic_short {s : State} (wf : Memory.wf s.env.input = true) (hc : s.bsCnt = 0)
    (h : (pendingBytes s).length < 4) : readMagic s = outOfBytes (tookAll (pendingBytes s) s) := by
  rw [readMagic_spec wf hc]
  match hp : pendingBytes s with
  | _ :: _ :: _ :: _ :: _ => rw [hp] at h; simp at h; omega
  | [] | [_] | [_, _] | [_, _, _] => rfl

theorem readMagic_bad {s : State} {m0 m1 m2 m3 : Byte} {rest : List Byte} (wf : Memory.wf s.env.input = true)
    (hc : s.bsCnt = 0) (h : pendingBytes s = m0 :: m1 :: m2 :: m3 :: rest) (hm : [m0, m1, m2, m3] ≠ magicBytes) :
    readMagic s = .raised (raiseError .fmt (tookAll [m0, m1, m2, m3] s)) := by
  rw [readMagic_spec wf hc, h]
  exact if_neg hm

theorem readMagic_good {s : State} {rest : List Byte} (wf : Memory.wf s.env.input = true) (hc : s.bsCnt = 0)
    (h : pendingBytes s = magicBytes ++ rest) : readMagic s = .ok () (tookAll magicBytes s) := by
  rw [readMagic_spec wf hc, h]
  rfl

/-! ### What reading the header may write before it ends -/

/-- `t` differs from `s` only in what the header's reads write before they are all done: the bit source,
`in_count` and the four header registers (R33, R258). -/
def HeaderOnly (s t : State) : Prop :=
  t = { s with
    inCount := t.inCount, bsBuf := t.bsBuf, bsCnt := t.bsCnt, hdrWidth := t.hdrWidth, hdrHeight := t.hdrHeight,
    hdrChannels := t.hdrChannels, hdrColorspace := t.hdrColorspace }

theorem HeaderOnly.env {s t : State} (h : HeaderOnly s t) : t.env = s.env := by rw [h]

theorem HeaderOnly.trans {s t u : State} (h : HeaderOnly s t) (h' : HeaderOnly t u) : HeaderOnly s u := by
  unfold HeaderOnly at *
  rw [h', h]

theorem headerOnly_took (b : Byte) (s : State) : HeaderOnly s (took b s) := rfl

theorem headerOnly_tookAll (bs : List Byte) (s : State) : HeaderOnly s (tookAll bs s) := by
  induction bs generalizing s with
  | nil => rfl
  | cons b bs ih => exact (headerOnly_took b s).trans (ih _)

theorem headerOnly_setWidth (w : Word32) (s : State) : HeaderOnly s (setWidth w s) := rfl
theorem headerOnly_setHeight (h : Word32) (s : State) : HeaderOnly s (setHeight h s) := rfl
theorem headerOnly_channels (c : Byte) (s : State) : HeaderOnly s { s with hdrChannels := c } := rfl
theorem headerOnly_colorspace (cs : Byte) (s : State) : HeaderOnly s { s with hdrColorspace := cs } := rfl

/-- The header's operands in their registers and its bytes taken, before anything else (R121). -/
def headerIn (w h : Word32) (c cs : Byte) (s : State) : State :=
  { afterFetch (.hdr w h c cs) s with hdrWidth := w, hdrHeight := h, hdrChannels := c, hdrColorspace := cs }

/-- The ends of fetching a header that starts at a byte boundary (R130). -/
inductive HeaderFetch (s : State) : Ret Instr → Prop
  /-- Fourteen bytes that pass the checks of R122, R125 and R126. -/
  | whole (w h : Word32) (c cs : Byte) (rest : List Byte)
      (bytes : pendingBytes s = encode (.hdr w h c cs) ++ rest)
      (channels : Instr.channelsOk c = true) (colorspace : Instr.colorspaceOk cs = true) :
      HeaderFetch s (.ok (.hdr w h c cs) (headerIn w h c cs s))
  /-- The bytes end before a check fails; all of them are taken. -/
  | short (t : State) (length : (pendingBytes s).length < 14)
      (magic : 4 ≤ (pendingBytes s).length → (pendingBytes s).take 4 = magicBytes)
      (channels : ∀ c, (pendingBytes s)[12]? = some c → Instr.channelsOk c = true)
      (only : HeaderOnly s t) (aligned : t.bsCnt = 0)
      (taken : t.inCount = s.inCount + BitVec.ofNat 64 (pendingBytes s).length) :
      HeaderFetch s (outOfBytes t)
  /-- The magic is wrong: four bytes are taken (R122). -/
  | magic (t : State) (length : 4 ≤ (pendingBytes s).length) (bad : (pendingBytes s).take 4 ≠ magicBytes)
      (only : HeaderOnly s t) (aligned : t.bsCnt = 0) (taken : t.inCount = s.inCount + BitVec.ofNat 64 4) :
      HeaderFetch s (.raised (raiseError .fmt t))
  /-- The channel byte is illegal: thirteen bytes are taken (R125). -/
  | channels (t : State) (c : Byte) (good : (pendingBytes s).take 4 = magicBytes)
      (byte : (pendingBytes s)[12]? = some c) (bad : Instr.channelsOk c = false)
      (only : HeaderOnly s t) (aligned : t.bsCnt = 0) (taken : t.inCount = s.inCount + BitVec.ofNat 64 13) :
      HeaderFetch s (.raised (raiseError .fmt t))
  /-- The colorspace byte is illegal: fourteen bytes are taken (R126). -/
  | colorspace (t : State) (c cs : Byte) (good : (pendingBytes s).take 4 = magicBytes)
      (byte : (pendingBytes s)[12]? = some c) (legal : Instr.channelsOk c = true)
      (byte' : (pendingBytes s)[13]? = some cs) (bad : Instr.colorspaceOk cs = false)
      (only : HeaderOnly s t) (aligned : t.bsCnt = 0) (taken : t.inCount = s.inCount + BitVec.ofNat 64 14) :
      HeaderFetch s (.raised (raiseError .fmt t))

@[simp] theorem Ret.ok_andThen {α β : Type} (v : α) (s : State) (next : α → State → Ret β) :
    (Ret.ok v s).andThen next = next v s := rfl

@[simp] theorem Ret.raised_andThen {α β : Type} (s : State) (next : α → State → Ret β) :
    (Ret.raised s : Ret α).andThen next = .raised s := rfl

/-- The reads after the two sizes, from the state `u` they leave. -/
def fetchFlags (w h : Word32) (u : State) : Ret Instr :=
  (readBits 8 u).andThen fun c s =>
  (setChannels c s).andThen fun _ s =>
  (readBits 8 s).andThen fun cs s =>
  (setColorspace cs s).andThen fun _ s => .ok (.hdr w h c cs) s

/-- The state with the magic and the two sizes taken. -/
def sizesIn (w h : Word32) (s : State) : State :=
  { s with
    inCount := s.inCount + 12, bsBuf := (beBytes h).getLastD 0, bsCnt := 0, hdrWidth := w, hdrHeight := h }

theorem fetchFlags_cases {s : State} {w h : Word32} {q : List Byte} (wf : Memory.wf s.env.input = true)
    (hp : pendingBytes s = magicBytes ++ beBytes w ++ beBytes h ++ q) :
    HeaderFetch s (fetchFlags w h (sizesIn w h s)) := by
  have hq : pendingBytes (sizesIn w h s) = q := by
    have ht := pendingBytes_tookAll (bs := magicBytes ++ beBytes w ++ beBytes h) wf hp
    rw [tookAll_eq _ _ (by simp [magicBytes])] at ht
    exact ht
  have h4 : (pendingBytes s).take 4 = magicBytes := by rw [hp]; rfl
  have hlen : (pendingBytes s).length = 12 + q.length := by
    rw [hp]; simp [magicBytes, beBytes]; omega
  unfold fetchFlags
  cases q with
  | nil =>
    rw [readBits_byte_outOfBytes rfl hq, outOfBytes_andThen]
    refine .short _ (by rw [hlen]; simp) (fun _ => h4) (fun c hc => ?_) rfl rfl (by rw [hlen]; rfl)
    rw [List.getElem?_eq_none (by rw [hlen]; simp)] at hc
    cases hc
  | cons c q =>
    have h12 : (pendingBytes s)[12]? = some c := by rw [hp]; rfl
    rw [readBits_byte rfl hq, Ret.ok_andThen]
    unfold setChannels
    cases hc : Instr.channelsOk c with
    | false => exact .channels _ c h4 h12 hc rfl rfl (BitVec.add_assoc _ _ _)
    | true =>
      simp only [if_true, Ret.ok_andThen]
      have hq' : pendingBytes { took c (sizesIn w h s) with hdrChannels := c } = q :=
        pendingBytes_took (s := sizesIn w h s) wf hq
      cases q with
      | nil =>
        rw [readBits_byte_outOfBytes rfl hq', outOfBytes_andThen]
        refine .short _ (by rw [hlen]; simp) (fun _ => h4) (fun c' hc' => ?_) rfl rfl
          (by rw [hlen]; exact BitVec.add_assoc _ _ _)
        rw [h12] at hc'
        cases hc'
        exact hc
      | cons cs rest =>
        have h13 : (pendingBytes s)[13]? = some cs := by rw [hp]; rfl
        rw [readBits_byte rfl hq', Ret.ok_andThen]
        have e : (sizesIn w h s).inCount + 1 + 1 = s.inCount + BitVec.ofNat 64 14 := by
          simp [sizesIn, BitVec.add_assoc]
        unfold setColorspace
        cases hs : Instr.colorspaceOk cs with
        | false => exact .colorspace _ c cs h4 h12 hc h13 hs rfl rfl e
        | true =>
          simp only [if_true, Ret.ok_andThen]
          have f : ({ took cs { took c (sizesIn w h s) with hdrChannels := c } with hdrColorspace := cs } : State) =
              headerIn w h c cs s := by
            simp only [took, e, headerIn, afterFetch, checkpointOf, Instr.byteLength]
            rfl
          rw [f]
          exact .whole w h c cs rest (by rw [hp]; simp [encode]) hc hs

/-- The bytes end inside the magic or a size. -/
theorem headerFetch_short {s t : State} (h : (pendingBytes s).length < 12)
    (magic : 4 ≤ (pendingBytes s).length → (pendingBytes s).take 4 = magicBytes)
    (only : HeaderOnly s t) (aligned : t.bsCnt = 0)
    (taken : t.inCount = s.inCount + BitVec.ofNat 64 (pendingBytes s).length) :
    HeaderFetch s (outOfBytes t) := by
  refine .short t (by omega) magic (fun c hc => ?_) only aligned taken
  rw [List.getElem?_eq_none (by omega)] at hc
  cases hc

/-- Fetching the header from a byte boundary ends in one of the ways of R130. -/
theorem fetchHeader_cases {s : State} (wf : Memory.wf s.env.input = true) (hc : s.bsCnt = 0) :
    HeaderFetch s (fetchHeader s) := by
  unfold fetchHeader
  by_cases hl : 4 ≤ (pendingBytes s).length
  swap
  · rw [readMagic_short wf hc (by omega), outOfBytes_andThen]
    exact headerFetch_short (by omega) (fun h => absurd h hl) (headerOnly_tookAll _ _) (tookAll_bsCnt hc)
      (tookAll_inCount _ _)
  obtain ⟨m0, m1, m2, m3, q, hp⟩ := four_of_length hl
  by_cases hm : [m0, m1, m2, m3] = magicBytes
  swap
  · rw [readMagic_bad wf hc hp hm, Ret.raised_andThen]
    exact .magic _ hl (by rw [hp]; exact hm) (headerOnly_tookAll _ _) (tookAll_bsCnt hc) (tookAll_inCount _ _)
  have hp' : pendingBytes s = magicBytes ++ q := by rw [hp, ← hm]; rfl
  have h4 : (pendingBytes s).take 4 = magicBytes := by rw [hp, ← hm]; rfl
  rw [readMagic_good wf hc hp', Ret.ok_andThen]
  generalize hS : tookAll magicBytes s = S
  have hq : pendingBytes S = q := by rw [← hS]; exact pendingBytes_tookAll wf hp'
  have wfS : Memory.wf S.env.input = true := by rw [← hS, tookAll_env]; exact wf
  have cS : S.bsCnt = 0 := by rw [← hS]; exact tookAll_bsCnt hc
  have oS : HeaderOnly s S := by rw [← hS]; exact headerOnly_tookAll _ _
  have iS : S.inCount = s.inCount + 4 := by rw [← hS]; exact tookAll_inCount _ _
  have lS : (pendingBytes s).length = 4 + q.length := by rw [hp']; simp [magicBytes]; omega
  by_cases hl2 : 4 ≤ q.length
  swap
  · rw [readWord32_short wfS cS (by rw [hq]; omega), outOfBytes_andThen, hq]
    refine headerFetch_short (by omega) (fun _ => h4) (oS.trans (headerOnly_tookAll _ _)) (tookAll_bsCnt cS) ?_
    rw [tookAll_inCount, iS, lS, BitVec.ofNat_add, ← BitVec.add_assoc]
    rfl
  obtain ⟨w0, w1, w2, w3, q2, rfl⟩ := four_of_length hl2
  rw [readWord32_whole wfS cS hq, Ret.ok_andThen]
  generalize hT : setWidth (beWord w0 w1 w2 w3) (tookAll [w0, w1, w2, w3] S) = T
  have hq2 : pendingBytes T = q2 := by
    rw [← hT]; exact pendingBytes_tookAll (bs := [w0, w1, w2, w3]) wfS hq
  have wfT : Memory.wf T.env.input = true := by rw [← hT, setWidth_env, tookAll_env]; exact wfS
  have cT : T.bsCnt = 0 := by rw [← hT]; exact tookAll_bsCnt cS
  have oT : HeaderOnly s T := by
    rw [← hT]; exact oS.trans ((headerOnly_tookAll _ _).trans (headerOnly_setWidth _ _))
  have iT : T.inCount = s.inCount + 8 := by
    rw [← hT, setWidth_inCount, tookAll_inCount, iS, BitVec.add_assoc]; rfl
  have lT : (pendingBytes s).length = 8 + q2.length := by rw [lS]; simp; omega
  by_cases hl3 : 4 ≤ q2.length
  swap
  · rw [readWord32_short wfT cT (by rw [hq2]; omega), outOfBytes_andThen, hq2]
    refine headerFetch_short (by omega) (fun _ => h4) (oT.trans (headerOnly_tookAll _ _)) (tookAll_bsCnt cT) ?_
    rw [tookAll_inCount, iT, lT, BitVec.ofNat_add, ← BitVec.add_assoc]
    rfl
  obtain ⟨h0, h1, h2, h3, q3, rfl⟩ := four_of_length hl3
  rw [readWord32_whole wfT cT hq2, Ret.ok_andThen]
  have e : setHeight (beWord h0 h1 h2 h3) (tookAll [h0, h1, h2, h3] T) =
      sizesIn (beWord w0 w1 w2 w3) (beWord h0 h1 h2 h3) s := by
    have i : T.inCount + BitVec.ofNat 64 [h0, h1, h2, h3].length = s.inCount + 12 := by
      rw [iT, BitVec.add_assoc]; rfl
    have f : T = { s with
        inCount := T.inCount, bsBuf := T.bsBuf, bsCnt := T.bsCnt, hdrWidth := beWord w0 w1 w2 w3 } := by
      rw [← hT, tookAll_eq _ _ (by simp), ← hS, tookAll_eq _ _ (by simp [magicBytes])]
      rfl
    rw [tookAll_eq _ _ (by simp), i, sizesIn, beBytes_beWord, f]
    rfl
  rw [e]
  exact fetchFlags_cases (q := q3) wf (by rw [hp', beBytes_beWord, beBytes_beWord]; simp)

end Sys2Proof.Machine
end

