-- ==== Sys2Proof/Laws/PerInstr.lean ====
section
/-! SUPPORT. Statements about each instruction as syntax, one lemma for each constructor. -/

/-! ### The encoded length and the first byte (R59, R74, R77, R79) -/

namespace Sys2Proof.Laws.EncodedForm

/-- The first byte of an instruction's encoding, as the opcode table gives it: the tag's range for a chunk (R77),
the first byte of the magic for the header (R59). -/
def firstByteFits (i : Instr) (b : Byte) : Prop :=
  match i with
  | .index _ => b.toNat ≤ 0x3F
  | .diff _ _ _ => 0x40 ≤ b.toNat ∧ b.toNat ≤ 0x7F
  | .luma _ _ _ => 0x80 ≤ b.toNat ∧ b.toNat ≤ 0xBF
  | .run _ => 0xC0 ≤ b.toNat ∧ b.toNat ≤ 0xFD
  | .rgb _ _ _ => b.toNat = 0xFE
  | .rgba _ _ _ _ => b.toNat = 0xFF
  | .hdr _ _ _ _ => b.toNat = 0x71

/-- A well-formed instruction's encoding has the length the table gives, and its first byte lies in the range of
its kind. -/
def Statement (i : Instr) : Prop :=
  i.wellFormed = true →
    (encode i).length = i.byteLength ∧ ∃ b rest, encode i = b :: rest ∧ firstByteFits i b

theorem index (idx : BitVec 6) : Statement (.index idx) := by
  refine fun _ => ⟨rfl, _, _, rfl, ?_⟩
  revert idx
  unfold firstByteFits
  decide

theorem diff (dr dg db : BitVec 2) : Statement (.diff dr dg db) := by
  refine fun _ => ⟨rfl, _, _, rfl, ?_⟩
  revert dr dg db
  unfold firstByteFits
  decide

theorem luma (dg : BitVec 6) (drDg dbDg : BitVec 4) : Statement (.luma dg drDg dbDg) := by
  refine fun _ => ⟨rfl, _, _, rfl, ?_⟩
  have h : ∀ x : BitVec 6, 0x80 ≤ ((0b10 : BitVec 2) ++ x).toNat ∧ ((0b10 : BitVec 2) ++ x).toNat ≤ 0xBF := by decide
  exact h dg

theorem run (length : BitVec 6) : Statement (.run length) := by
  refine fun h => ⟨rfl, _, _, rfl, ?_⟩
  revert length
  unfold firstByteFits
  decide

theorem rgb (r g b : Byte) : Statement (.rgb r g b) := fun _ => ⟨rfl, _, _, rfl, rfl⟩

theorem rgba (r g b a : Byte) : Statement (.rgba r g b a) := fun _ => ⟨rfl, _, _, rfl, rfl⟩

theorem hdr (width height : Word32) (channels colorspace : Byte) :
    Statement (.hdr width height channels colorspace) := fun _ => ⟨rfl, _, _, rfl, rfl⟩

end Sys2Proof.Laws.EncodedForm
end

