-- ==== Sys2Proof/Laws/Step.lean ====
section
/-! SUPPORT. All that one step can do, and runs of steps. -/

namespace Sys2Proof.Machine

/-! ### Fetch results in a step -/

/-- A step that finds no byte raises, or waits with the bytes it has taken. -/
theorem outOfBytes_into {α : Type} (t before : State)
    (next : α → State → Host.Outcome State Fault Refusal) :
    (outOfBytes t : Ret α).into before next =
      if t.env.inEos then .next (raiseError .eoi t) else .next (waitAt before t) := by
  unfold outOfBytes
  split <;> rfl

@[simp] theorem outOfBytes_taken {α : Type} (t before : State) :
    (outOfBytes t : Ret α).taken before = t.inCount.toNat - before.inCount.toNat := by
  unfold outOfBytes
  split <;> rfl

theorem blockStep_header {s : State} (h : s.phase = .header) :
    blockStep s = (fetchHeader (resumed s)).into (resumed s) fun i t => exec i t := by
  simp [blockStep, h]

theorem blockStep_decoding {s : State} (h : s.phase = .decoding) :
    blockStep s = (fetchChunk (resumed s)).into (resumed s) fun i t => execWhenReady (resumed s) i t := by
  simp [blockStep, h]

theorem blockStep_quiescent {s : State} (h : s.phase = .idle ∨ s.phase = .done ∨ s.phase = .error) :
    blockStep s = .next s := by
  rcases h with h | h | h <;> simp [blockStep, h]

/-! ### Bytes taken within the stream -/

@[simp] theorem pendingBytes_resumed (s : State) : pendingBytes (resumed s) = pendingBytes s := rfl

/-- Where no step waits there is nothing to run again. -/
theorem resumed_of_held {s : State} (h : s.env.held = 0) : resumed s = s := by
  simp [resumed, ← h]

/-- Taking k bytes that are there does not wrap `in_count` and stays within the stream (R30, R101). -/
theorem taken_within {s : State} {k : Nat} (wf : Memory.wf s.env.input = true) (h0 : 0 < k)
    (hk : k ≤ (pendingBytes s).length) :
    (s.inCount + BitVec.ofNat 64 k).toNat = s.inCount.toNat + k ∧
      s.inCount.toNat + k ≤ s.env.input.length := by
  have hl : s.env.input.length < 2 ^ 64 := by simpa [Memory.wf] using wf
  simp only [pendingBytes, List.length_drop] at hk
  rw [BitVec.toNat_add, BitVec.toNat_ofNat]
  omega

/-- `in_count` after k bytes that are there (R34). -/
theorem taken_toNat {s : State} {n : Word64} {k : Nat} (wf : Memory.wf s.env.input = true)
    (hk : k ≤ (pendingBytes s).length) (h : n = s.inCount + BitVec.ofNat 64 k) :
    n.toNat = s.inCount.toNat + k := by
  rcases Nat.eq_zero_or_pos k with rfl | h0
  · simp [h]
  · rw [h, (taken_within wf h0 hk).1]

/-- `in_count` tells how many bytes an operation took. -/
theorem taken_sub {s : State} {n : Word64} {k : Nat} (wf : Memory.wf s.env.input = true)
    (hk : k ≤ (pendingBytes s).length) (h : n = s.inCount + BitVec.ofNat 64 k) :
    n.toNat - s.inCount.toNat = k := by
  rw [taken_toNat wf hk h, Nat.add_sub_cancel_left]

/-! ### How many bytes a step takes -/

/-- How many bytes reading a header takes (R130's table): up to the first byte that fails a check, or all. -/
def headerTakes (bytes : List Byte) : Nat :=
  if bytes.length < 4 then bytes.length
  else if bytes.take 4 ≠ magicBytes then 4
  else if (bytes[12]?).any (!Instr.channelsOk ·) then 13
  else min 14 bytes.length

/-- How many bytes reading a chunk takes: the chunk's, or all that is left (R151). -/
def chunkTakes (bytes : List Byte) : Nat :=
  match decodeChunk bytes with
  | .ok (i, _) => i.byteLength
  | .error _ => bytes.length

theorem headerTakes_whole {bytes rest : List Byte} {w h : Word32} {c cs : Byte}
    (hb : bytes = encode (.hdr w h c cs) ++ rest) (hc : Instr.channelsOk c = true) : headerTakes bytes = 14 := by
  have hl : bytes.length = 14 + rest.length := by rw [hb]; simp [Instr.byteLength]
  rw [headerTakes, if_neg (by omega), if_neg (by rw [hb]; simp [encode, magicBytes]), if_neg]
  · omega
  · rw [hb]; simp [encode, magicBytes, beBytes, hc]

theorem stepTakes_quiescent {s : State} (h : s.phase = .idle ∨ s.phase = .done ∨ s.phase = .error) :
    stepTakes s = 0 := by
  rcases h with h | h | h <;> simp [stepTakes, h]

theorem stepTakes_decoding {s : State} (h : s.phase = .decoding) (wf : Memory.wf s.env.input = true)
    (hc : s.bsCnt = 0) : stepTakes s = chunkTakes (pendingBytes s) := by
  have hf := fetchChunk_cases (s := resumed s) wf hc
  simp only [stepTakes, h]
  generalize fetchChunk (resumed s) = r at hf
  cases hf with
  | whole i rest hd =>
    rw [pendingBytes_resumed] at hd
    simp only [Ret.taken, chunkTakes, hd]
    exact taken_sub (s := s) wf (by rw [decodeChunk_length hd]; omega) rfl
  | short t hd ho ha hi =>
    rw [pendingBytes_resumed] at hd
    simp only [outOfBytes_taken, chunkTakes, hd]
    exact taken_sub (s := s) wf (Nat.le_refl _) hi

theorem stepTakes_header {s : State} (h : s.phase = .header) (wf : Memory.wf s.env.input = true)
    (hc : s.bsCnt = 0) : stepTakes s = headerTakes (pendingBytes s) := by
  have hf := fetchHeader_cases (s := resumed s) wf hc
  simp only [stepTakes, h]
  generalize fetchHeader (resumed s) = r at hf
  cases hf with
  | whole w h c cs rest hb hch hcs =>
    rw [pendingBytes_resumed] at hb
    have hl : (pendingBytes s).length = 14 + rest.length := by rw [hb]; simp [Instr.byteLength]
    rw [headerTakes_whole hb hch]
    exact taken_sub (s := s) wf (by omega) rfl
  | short t hl hm hch ho ha hi =>
    simp only [pendingBytes_resumed] at hl hm hch hi
    have e : headerTakes (pendingBytes s) = (pendingBytes s).length := by
      unfold headerTakes
      split
      · rfl
      rw [if_neg (by simpa using hm (by omega)), if_neg]
      · omega
      · cases hx : (pendingBytes s)[12]? with
        | none => simp
        | some c => simp [hch c hx]
    rw [e]
    simp only [outOfBytes_taken]
    exact taken_sub (s := s) wf (Nat.le_refl _) hi
  | magic t hl hb ho ha hi =>
    rw [pendingBytes_resumed] at hl hb
    rw [headerTakes, if_neg (by omega), if_pos hb]
    exact taken_sub (s := s) wf hl hi
  | channels t c hm hb hbad ho ha hi =>
    rw [pendingBytes_resumed] at hm hb
    obtain ⟨hlt, _⟩ := List.getElem?_eq_some_iff.1 hb
    rw [headerTakes, if_neg (by omega), if_neg (by simpa using hm), if_pos (by simp [hb, hbad])]
    exact taken_sub (s := s) wf hlt hi
  | colorspace t c cs hm hb hch hb' hbad ho ha hi =>
    rw [pendingBytes_resumed] at hm hb hb'
    obtain ⟨hlt, _⟩ := List.getElem?_eq_some_iff.1 hb'
    rw [headerTakes, if_neg (by omega), if_neg (by simpa using hm), if_neg (by simp [hb, hch]),
      Nat.min_eq_left hlt]
    exact taken_sub (s := s) wf hlt hi

/-- A step takes bytes that are there. -/
theorem stepTakes_le {s : State} (wf : Memory.wf s.env.input = true) (hc : s.bsCnt = 0) :
    stepTakes s ≤ (pendingBytes s).length := by
  cases hp : s.phase with
  | idle => simp [stepTakes, hp]
  | done => simp [stepTakes, hp]
  | error => simp [stepTakes, hp]
  | decoding =>
    rw [stepTakes_decoding hp wf hc, chunkTakes]
    split
    · rename_i hd
      rw [decodeChunk_length hd]
      omega
    · exact Nat.le_refl _
  | header =>
    rw [stepTakes_header hp wf hc, headerTakes]
    split
    · exact Nat.le_refl _
    split
    · omega
    split
    · rename_i hx
      cases h : (pendingBytes s)[12]? with
      | none => simp [h] at hx
      | some c => exact (List.getElem?_eq_some_iff.1 h).1
    · omega

/-- What a step takes depends on the phase and the bytes not taken alone. -/
theorem stepTakes_congr {s t : State} (wf : Memory.wf s.env.input = true) (hc : s.bsCnt = 0)
    (wf' : Memory.wf t.env.input = true) (hc' : t.bsCnt = 0) (hp : s.phase = t.phase)
    (hb : pendingBytes s = pendingBytes t) : stepTakes s = stepTakes t := by
  cases h : s.phase with
  | idle => rw [stepTakes_quiescent (.inl h), stepTakes_quiescent (.inl (hp ▸ h))]
  | done => rw [stepTakes_quiescent (.inr (.inl h)), stepTakes_quiescent (.inr (.inl (hp ▸ h)))]
  | error => rw [stepTakes_quiescent (.inr (.inr h)), stepTakes_quiescent (.inr (.inr (hp ▸ h)))]
  | decoding => rw [stepTakes_decoding h wf hc, stepTakes_decoding (hp ▸ h) wf' hc', hb]
  | header => rw [stepTakes_header h wf hc, stepTakes_header (hp ▸ h) wf' hc', hb]

/-- HDR on operands that are already in their registers, with legal channel and colorspace bytes. -/
theorem exec_headerIn {w h : Word32} {c cs : Byte} (s : State) (hc : Instr.channelsOk c = true)
    (hcs : Instr.colorspaceOk cs = true) :
    exec (.hdr w h c cs) (headerIn w h c cs s) = .next (acceptHeader w h (headerIn w h c cs s)) := by
  simp only [exec, execHdr, setWidth, setHeight, setChannels, hc, if_true, Ret.andThen, setColorspace, hcs,
    Ret.into]
  rfl

/-! ### The block's step -/

/-- All that a block step from a byte boundary can do. A step that waited runs again from its first byte. -/
inductive BlockStep (s : State) : State → Prop
  /-- Nothing, in a quiescent phase. -/
  | quiet (phase : s.phase = .idle ∨ s.phase = .done ∨ s.phase = .error) : BlockStep s s
  /-- The host does not answer, or takes no pixel: the bytes the step takes are held (R292, R293). -/
  | waits (u : State) (phase : s.phase = .header ∨ s.phase = .decoding)
      (host : s.env.inEos = false ∨ (s.phase = .decoding ∧ s.env.pxReady = false))
      (held : u.inCount.toNat - s.inCount.toNat = stepTakes s) : BlockStep s (waitAt (resumed s) u)
  /-- A whole chunk runs. -/
  | chunk (i : Instr) (rest : List Byte) (t : State) (phase : s.phase = .decoding)
      (decodes : decodeChunk (pendingBytes s) = .ok (i, rest)) (ready : s.env.pxReady = true)
      (runs : exec i (afterFetch i (resumed s)) = .next t) : BlockStep s t
  /-- The stream ends in a chunk. -/
  | chunkShort (u : State) (phase : s.phase = .decoding) (eos : s.env.inEos = true) (only : FetchOnly (resumed s) u)
      (aligned : u.bsCnt = 0) (taken : u.inCount = s.inCount + BitVec.ofNat 64 (pendingBytes s).length)
      (takes : stepTakes s = (pendingBytes s).length) : BlockStep s (raiseError .eoi u)
  /-- A whole legal header. -/
  | header (w h : Word32) (c cs : Byte) (rest : List Byte) (phase : s.phase = .header)
      (bytes : pendingBytes s = encode (.hdr w h c cs) ++ rest) (channels : Instr.channelsOk c = true)
      (colorspace : Instr.colorspaceOk cs = true) :
      BlockStep s (acceptHeader w h (headerIn w h c cs (resumed s)))
  /-- The stream ends in the header. -/
  | headerShort (u : State) (phase : s.phase = .header) (eos : s.env.inEos = true)
      (only : HeaderOnly (resumed s) u) (aligned : u.bsCnt = 0)
      (taken : u.inCount = s.inCount + BitVec.ofNat 64 (pendingBytes s).length)
      (takes : stepTakes s = (pendingBytes s).length) : BlockStep s (raiseError .eoi u)
  /-- A check of the header fails. -/
  | headerBad (u : State) (k : Nat) (phase : s.phase = .header) (only : HeaderOnly (resumed s) u)
      (aligned : u.bsCnt = 0) (bytes : k ≤ (pendingBytes s).length)
      (taken : u.inCount = s.inCount + BitVec.ofNat 64 k) (takes : stepTakes s = k) :
      BlockStep s (raiseError .fmt u)

theorem blockStep_cases {s : State} (wf : Memory.wf s.env.input = true) (hc : s.bsCnt = 0) :
    ∃ t, blockStep s = .next t ∧ BlockStep s t := by
  cases hp : s.phase with
  | idle => exact ⟨s, blockStep_quiescent (.inl hp), .quiet (.inl hp)⟩
  | done => exact ⟨s, blockStep_quiescent (.inr (.inl hp)), .quiet (.inr (.inl hp))⟩
  | error => exact ⟨s, blockStep_quiescent (.inr (.inr hp)), .quiet (.inr (.inr hp))⟩
  | decoding =>
    rw [blockStep_decoding hp]
    have hf := fetchChunk_cases (s := resumed s) wf hc
    have ht : stepTakes s = (fetchChunk (resumed s)).taken (resumed s) := by simp [stepTakes, hp]
    generalize fetchChunk (resumed s) = r at hf ht
    cases hf with
    | whole i rest hd =>
      cases hx : s.env.pxReady with
      | false =>
        exact ⟨_, by simp [Ret.into, execWhenReady, hx], .waits _ (.inr hp) (.inr ⟨hp, hx⟩) ht.symm⟩
      | true =>
        obtain ⟨t, hr⟩ := exec_chunk_next (decodeChunk_isHeader hd) (afterFetch i (resumed s))
        exact ⟨t, by simp [Ret.into, execWhenReady, hx, hr], .chunk i rest t hp hd hx hr⟩
    | short t hd ho ha hi =>
      rw [outOfBytes_into, ho.env]
      cases he : s.env.inEos with
      | false =>
        exact ⟨_, by simp [he], .waits t (.inr hp) (.inl he) (by rw [ht, outOfBytes_taken]; rfl)⟩
      | true =>
        exact ⟨_, by simp [he], .chunkShort t hp he ho ha hi
          (by rw [ht, outOfBytes_taken]; exact taken_sub (s := s) wf (Nat.le_refl _) hi)⟩
  | header =>
    rw [blockStep_header hp]
    have hf := fetchHeader_cases (s := resumed s) wf hc
    have ht : stepTakes s = (fetchHeader (resumed s)).taken (resumed s) := by simp [stepTakes, hp]
    generalize fetchHeader (resumed s) = r at hf ht
    cases hf with
    | whole w h c cs rest hb hch hcs => exact ⟨_, exec_headerIn _ hch hcs, .header w h c cs rest hp hb hch hcs⟩
    | short t hl hm hch ho ha hi =>
      rw [outOfBytes_into, ho.env]
      cases he : s.env.inEos with
      | false =>
        exact ⟨_, by simp [he], .waits t (.inl hp) (.inl he) (by rw [ht, outOfBytes_taken]; rfl)⟩
      | true =>
        exact ⟨_, by simp [he], .headerShort t hp he ho ha hi
          (by rw [ht, outOfBytes_taken]; exact taken_sub (s := s) wf (Nat.le_refl _) hi)⟩
    | magic t hl hb ho ha hi => exact ⟨_, rfl, .headerBad t 4 hp ho ha hl hi (ht.trans (taken_sub (s := s) wf hl hi))⟩
    | channels t c hm hb hbad ho ha hi =>
      obtain ⟨hlt, _⟩ := List.getElem?_eq_some_iff.1 hb
      exact ⟨_, rfl, .headerBad t 13 hp ho ha hlt hi (ht.trans (taken_sub (s := s) wf hlt hi))⟩
    | colorspace t c cs hm hb hch hb' hbad ho ha hi =>
      obtain ⟨hlt, _⟩ := List.getElem?_eq_some_iff.1 hb'
      exact ⟨_, rfl, .headerBad t 14 hp ho ha hlt hi (ht.trans (taken_sub (s := s) wf hlt hi))⟩

/-- Executing a chunk takes no byte and leaves the host's side. -/
theorem exec_chunk_env {i : Instr} {s t : State} (hi : i.isHeader = false) (h : exec i s = .next t) :
    t.env = s.env ∧ t.inCount = s.inCount := by
  cases exec_chunk_cases hi h <;> simp

/-- A running step leaves the stream where it is and moves on in it by the bytes it takes: they are counted when it
ends, and held while it waits (R34, R57). -/
theorem BlockStep.takes {s t : State} (wf : Memory.wf s.env.input = true) (hc : s.bsCnt = 0)
    (hp : s.phase = .header ∨ s.phase = .decoding) (h : BlockStep s t) :
    t.env.input = s.env.input ∧ t.inCount.toNat + t.env.held = s.inCount.toNat + stepTakes s := by
  cases h with
  | quiet hq => rcases hp with hp | hp <;> rw [hp] at hq <;> simp at hq
  | waits u _ _ held => exact ⟨rfl, congrArg (s.inCount.toNat + ·) held⟩
  | chunk i rest _ hd hb hr hx =>
    obtain ⟨e1, e2⟩ := exec_chunk_env (decodeChunk_isHeader hb) hx
    rw [e1, e2, stepTakes_decoding hd wf hc]
    simp only [chunkTakes, hb]
    exact ⟨rfl, taken_toNat (s := s) wf (by rw [decodeChunk_length hb]; omega) rfl⟩
  | chunkShort u _ _ ho _ hi ht =>
    simp only [raiseError_env, raiseError_inCount, ho.env, ht]
    exact ⟨rfl, taken_toNat (s := s) wf (Nat.le_refl _) hi⟩
  | header w h' c cs rest hh hb hch hcs =>
    have hl : (pendingBytes s).length = 14 + rest.length := by rw [hb]; simp [Instr.byteLength]
    rw [stepTakes_header hh wf hc, headerTakes_whole hb hch]
    have e : (acceptHeader w h' (headerIn w h' c cs (resumed s))).env = (resumed s).env ∧
        (acceptHeader w h' (headerIn w h' c cs (resumed s))).inCount = s.inCount + BitVec.ofNat 64 14 := by
      unfold acceptHeader; split <;> exact ⟨rfl, rfl⟩
    rw [e.1, e.2]
    exact ⟨rfl, taken_toNat (s := s) wf (by omega) rfl⟩
  | headerShort u _ _ ho _ hi ht =>
    simp only [raiseError_env, raiseError_inCount, ho.env, ht]
    exact ⟨rfl, taken_toNat (s := s) wf (Nat.le_refl _) hi⟩
  | headerBad u k _ ho _ hk hi ht =>
    simp only [raiseError_env, raiseError_inCount, ho.env, ht]
    exact ⟨rfl, taken_toNat (s := s) wf hk hi⟩

/-! ### The step with its control inputs -/

theorem step_no_control {s : State} (h : s.env.ctl = []) : step s = blockStep s := by
  simp [step, driverStep, h]

theorem step_control {s : State} {c : Ctl} {rest : List Ctl} (h : s.env.ctl = c :: rest) :
    step s = controlStep c (setCtl rest s) := by
  simp [step, driverStep, h]

/-- All that one sample of the control inputs can lead to (R259, R280). -/
theorem controlStep_cases (c : Ctl) (s : State) :
    (c.rst = true ∧ controlStep c s = .next (applyReset (cutTaken c.cut s) s)) ∨
    (c.rst = false ∧ c.start = true ∧ busy s = false ∧ controlStep c s = .next (start c.stream s)) ∨
    (c.rst = false ∧ (c.start = false ∨ busy s = true) ∧ controlStep c s = blockStep s) := by
  cases hr : c.rst <;> cases hs : c.start <;> cases hb : busy s <;> simp [controlStep, hr, hs, hb]

/-- A step under way has taken at least the bytes it holds, and at most all it takes (R280). -/
theorem cutTaken_bounds {cut : Nat} {s : State} (h : s.env.held ≤ stepTakes s) :
    s.env.held ≤ cutTaken cut s ∧ cutTaken cut s ≤ stepTakes s :=
  ⟨Nat.le_max_left _ _, Nat.max_le.2 ⟨h, Nat.min_le_right _ _⟩⟩

/-! ### Runs -/

theorem run_succ {s t : State} (k : Nat) (h : step s = .next t) :
    Host.Core.run Sys2Proof.core (k + 1) s = Host.Core.run Sys2Proof.core k t := by
  have h' : Sys2Proof.core.step s = .next t := h
  simp only [Host.Core.run, h']

theorem run_add {s t : State} (j k : Nat) (h : Host.Core.run Sys2Proof.core j s = .next t) :
    Host.Core.run Sys2Proof.core (j + k) s = Host.Core.run Sys2Proof.core k t := by
  induction j generalizing s with
  | zero => cases h; simp
  | succ j ih =>
    cases hs : step s with
    | next u =>
      rw [run_succ j hs] at h
      rw [Nat.add_right_comm, run_succ _ hs, ih h]
    | fault r => simp only [Host.Core.run, show Sys2Proof.core.step s = _ from hs, reduceCtorEq] at h
    | refused r => simp only [Host.Core.run, show Sys2Proof.core.step s = _ from hs, reduceCtorEq] at h

/-- An ended decode stays as it is. -/
theorem run_ended {s : State} (k : Nat) (hctl : s.env.ctl = []) (he : ended s = true) :
    Host.Core.run Sys2Proof.core k s = .next s := by
  induction k with
  | zero => rfl
  | succ k ih =>
    have hp : s.phase = .done ∨ s.phase = .error := by simpa [ended] using he
    rw [run_succ k (by rw [step_no_control hctl, blockStep_quiescent (.inr hp)]), ih]

end Sys2Proof.Machine
end

