-- ==== Sys2Proof/Laws/Ports.lean ====
section
/-! SUPPORT. When a pixel waits for the host, and which. -/

namespace Sys2Proof.Machine

theorem waitingPixel_of_phase {s : State} (h : s.phase ≠ .decoding) : waitingPixel s = none := by
  unfold waitingPixel
  split <;> first | contradiction | rfl

/-- Where the next bytes are a chunk, its pixel waits exactly when all of them are held. -/
theorem waitingPixel_whole {s : State} {i : Instr} {rest : List Byte} (hp : s.phase = .decoding)
    (wf : Memory.wf s.env.input = true) (hc : s.bsCnt = 0) (hd : decodeChunk (pendingBytes s) = .ok (i, rest)) :
    waitingPixel s =
      if i.byteLength = s.env.held then firstPixel i (afterFetch i (resumed s)) else none := by
  have hf := fetchChunk_cases (s := resumed s) wf hc
  simp only [waitingPixel, hp]
  generalize fetchChunk (resumed s) = r at hf
  cases hf with
  | whole j rest' hd' =>
    rw [pendingBytes_resumed, hd] at hd'
    cases hd'
    have e : (afterFetch i (resumed s)).inCount.toNat - s.inCount.toNat = i.byteLength :=
      taken_sub wf (by rw [decodeChunk_length hd]; omega) rfl
    simp only [e]
  | short t hd' =>
    rw [pendingBytes_resumed, hd] at hd'
    cases hd'

/-- While the chunk is not all there no pixel waits: it is a byte that the block waits for. -/
theorem waitingPixel_short {s : State} {e : DecodeError} (wf : Memory.wf s.env.input = true) (hc : s.bsCnt = 0)
    (hd : decodeChunk (pendingBytes s) = .error e) : waitingPixel s = none := by
  by_cases hp : s.phase = .decoding
  swap
  · exact waitingPixel_of_phase hp
  have hf := fetchChunk_cases (s := resumed s) wf hc
  simp only [waitingPixel, hp]
  generalize fetchChunk (resumed s) = r at hf
  cases hf with
  | whole j rest' hd' =>
    rw [pendingBytes_resumed, hd] at hd'
    cases hd'
  | short t _ =>
    unfold outOfBytes
    cases t.env.inEos <;> rfl

/-- Where no step waits no pixel does. -/
theorem waitingPixel_unheld {s : State} (wf : Memory.wf s.env.input = true) (hc : s.bsCnt = 0)
    (h : s.env.held = 0) : waitingPixel s = none := by
  by_cases hp : s.phase = .decoding
  swap
  · exact waitingPixel_of_phase hp
  cases hd : decodeChunk (pendingBytes s) with
  | error e => exact waitingPixel_short wf hc hd
  | ok r =>
    have := byteLength_pos r.1
    rw [waitingPixel_whole hp wf hc hd, if_neg (by omega)]

/-- A chunk emits a pixel while one is owed, and that is the one it offers first. -/
theorem firstPixel_chunk {i : Instr} {s : State} (hi : i.isHeader = false)
    (h : s.pixelsWritten < s.totalPixels) :
    ∃ p new t, exec i s = .next t ∧ t.out = s.out ++ p :: new ∧ firstPixel i s = some p := by
  obtain ⟨t, ht⟩ := exec_chunk_next hi s
  have key : ∃ p new, t.out = s.out ++ p :: new := by
    cases exec_chunk_cases hi ht with
    | index idx => exact ⟨readSlot idx s, [], by simp⟩
    | run length =>
      have hm : runEmits length s ≠ 0 := by
        have : s.pixelsWritten.toNat < s.totalPixels.toNat := h
        simp only [runEmits, runCount, owedPixels]
        omega
      obtain ⟨k, hk⟩ := Nat.exists_eq_succ_of_ne_zero hm
      have hk' : runEmits length (latchChunk (.run length) s) = k + 1 := hk
      exact ⟨s.prev, List.replicate k s.prev, by simp [hk', List.replicate_succ]⟩
    | pixel i c p => exact ⟨p, [], by simp⟩
  obtain ⟨p, new, ho⟩ := key
  exact ⟨p, new, t, ht, ho, by simp [firstPixel, ht, ho]⟩

end Sys2Proof.Machine
end

