-- ==== Sys2Proof/Tests/Slice0.lean ====
section
/-! SUPPORT. Tests of the model, each expected value from spec/95_test_vectors.md or by hand from the rule named;
and a state that meets the hypotheses of each statement. -/

namespace Sys2Proof.Tests

open Sys2Proof Sys2Proof.Machine

/-! ### Helpers -/

/-- One field of a next state. -/
def field {α : Type} (o : Host.Outcome State Fault Refusal) (f : State → α) : Option α :=
  match o with
  | .next t => some (f t)
  | _ => none

/-- What an operation of the bit source answers, and one field of the state after it. -/
def answer {α β : Type} (r : Ret α) (f : State → β) : Option (α × β) :=
  match r with
  | .ok v t => some (v, f t)
  | _ => none

/-- A state in DECODING with this previous pixel and so many pixels owed. -/
def owing (prev : Pixel) (owed : Word64) : State :=
  { State.reset with phase := .decoding, prev := prev, totalPixels := owed }

/-- A state in DECODING, 64 pixels owed, these bytes next in the stream. -/
def chunkState (bytes : List Byte) : State := placeFirstChunk bytes State.reset

/-- A state in HEADER with these bytes as its stream. -/
def headerState (bytes : List Byte) : State := placeHeader bytes State.reset

/-- A state with one sample of the control inputs to come. -/
def sampled (p : Phase) (c : Ctl) : State :=
  { State.reset with phase := p, env := { Env.reset with ctl := [c] } }

/-- `HDR(1,1,4,0)` of spec/95_test_vectors.md. -/
def hdr11 : List Byte := [0x71, 0x6F, 0x69, 0x66, 0, 0, 0, 1, 0, 0, 0, 1, 4, 0]

/-! ### WellFormed: one ill-formed term for each check -/

theorem test_run_62_is_ill_formed : Instr.wellFormed (.run 62) = false := by decide
theorem test_run_63_is_ill_formed : Instr.wellFormed (.run 63) = false := by decide
theorem test_run_61_is_well_formed : Instr.wellFormed (.run 61) = true := by decide
theorem test_hdr_channels_5_is_ill_formed : Instr.wellFormed (.hdr 1 1 5 0) = false := by decide
theorem test_hdr_channels_2_is_ill_formed : Instr.wellFormed (.hdr 1 1 2 0) = false := by decide
theorem test_hdr_colorspace_2_is_ill_formed : Instr.wellFormed (.hdr 1 1 4 2) = false := by decide
theorem test_hdr_3_1_is_well_formed : Instr.wellFormed (.hdr 1 1 3 1) = true := by decide

/-! ### Decoding: a word of each kind, written out bit by bit from R71 and R59 -/

/-- `00 iiiiii` with i = 110101 (L1.1: 0x35). -/
theorem test_decode_index : decodeChunk [0b00110101] = .ok (.index 0b110101, []) := rfl
/-- `01 rr gg bb` with 00, 11, 01 (L1.1: 0x4D). -/
theorem test_decode_diff : decodeChunk [0b01001101] = .ok (.diff 0b00 0b11 0b01, []) := rfl
/-- `10 gggggg rrrr bbbb` with 101101, 1010, 1110 (L1.1: 0xAD 0xAE). -/
theorem test_decode_luma : decodeChunk [0b10101101, 0b10101110] = .ok (.luma 0b101101 0b1010 0b1110, []) := rfl
/-- `11 llllll` with 010110 (L1.1: 0xD6). -/
theorem test_decode_run : decodeChunk [0b11010110] = .ok (.run 0b010110, []) := rfl
/-- `11111110` and three bytes (T2.1). -/
theorem test_decode_rgb : decodeChunk [0b11111110, 0x11, 0x22, 0x33] = .ok (.rgb 17 34 51, []) := rfl
/-- `11111111` and four bytes (T2.1). -/
theorem test_decode_rgba : decodeChunk [0b11111111, 0x11, 0x22, 0x33, 0x44] = .ok (.rgba 17 34 51 68, []) := rfl
/-- The magic, two big-endian sizes, two bytes (R59). -/
theorem test_decode_hdr : decodeHeader [0x71, 0x6F, 0x69, 0x66, 0, 0, 1, 2, 0, 0, 3, 4, 3, 1] =
    .ok (.hdr 0x102 0x304 3 1, []) := rfl
theorem test_decode_bad_magic : decodeHeader [0x71, 0x6F, 0x69, 0x67, 0, 0, 0, 2, 0, 0, 0, 2, 4, 0] =
    .error .badMagic := rfl
theorem test_decode_short_luma : decodeChunk [0x80] = .error .truncated := rfl
/-- The last Run byte and the two tags after it (T2.1, R76). -/
theorem test_decode_run_61 : decodeChunk [0xFD] = .ok (.run 61, []) := rfl

/-! ### The table's numbering -/

theorem test_table_luma : decodeTableWord 16 0xAEAD = some (.luma 0x2D 0xA 0xE) := by decide
theorem test_table_rgba : decodeTableWord 40 0x04030201FF = some (.rgba 1 2 3 4) := by decide
theorem test_table_hdr : decodeTableWord 112 0x00040000000300000002716F6966 = some (.hdr 2 3 4 0) := by decide
/-- The table's DIFF row, first after reset: its raw fields are 0, so each channel loses 2 (R175). -/
theorem test_fetch_word_diff :
    field (step (State.reset.withFetchWord 8 0x40)) (fun t => (t.prev, t.inCount)) =
      some (⟨254, 254, 254, 255⟩, 15) := by decide
/-- The table's HDR row with every operand 0 stops at the channel byte (R125, R130). -/
theorem test_fetch_word_hdr :
    field (step (State.reset.withFetchWord 112 0x716F6966)) (fun t => (t.errCode, t.inCount)) =
      some (.fmt, 13) := by decide

/-! ### The bit source (T1) -/

theorem test_T1_3 :
    answer (readBits 2 { State.reset with bsBuf := 0x4D, bsCnt := 6 }) (fun t => (t.bsCnt, t.inCount)) =
      some (0, 4, 0) := by decide
theorem test_T1_4 :
    answer (readBits 5 { State.reset with bsBuf := 0xD6, bsCnt := 3, env := { Env.reset with input := [0xA5] } })
      (fun t => (t.bsBuf, t.bsCnt, t.inCount)) = some (0x1A, 0xA5, 6, 1) := by decide

/-! ### The hash (T3) -/

theorem test_hash_254_1_255_255 : pixelHash ⟨254, 1, 255, 255⟩ = 45 := by decide
theorem test_hash_17_34_51_68 : pixelHash ⟨17, 34, 51, 68⟩ = 46 := by decide

/-! ### The chunks (T4, T5): the new pixel, and the slot it is written to -/

/-- T4.1. -/
theorem test_rgb_keeps_alpha :
    field (exec (.rgb 1 2 3) (owing ⟨10, 20, 30, 40⟩ 9)) (fun t => (t.prev, readSlot 26 t, t.out)) =
      some (⟨1, 2, 3, 40⟩, ⟨1, 2, 3, 40⟩, [⟨1, 2, 3, 40⟩]) := by decide
/-- T4.3. -/
theorem test_rgba_takes_alpha :
    field (exec (.rgba 1 2 3 4) (owing ⟨10, 20, 30, 40⟩ 9)) (fun t => (t.prev, readSlot 14 t)) =
      some (⟨1, 2, 3, 4⟩, ⟨1, 2, 3, 4⟩) := by decide
/-- T4.14: no cache write. -/
theorem test_index_takes_the_slot :
    field (exec (.index 7) (writeSlot 7 ⟨9, 9, 9, 9⟩ (owing ⟨1, 2, 3, 4⟩ 9)))
      (fun t => (t.prev, readSlot (pixelHash ⟨9, 9, 9, 9⟩) t)) = some (⟨9, 9, 9, 9⟩, ⟨0, 0, 0, 0⟩) := by decide
/-- T4.15. -/
theorem test_index_of_a_slot_never_written :
    field (exec (.index 5) (owing .opaqueBlack 9)) (fun t => t.prev) = some ⟨0, 0, 0, 0⟩ := by decide
/-- T4.4: wrap below 0. -/
theorem test_diff_wraps_below :
    field (exec (.diff 0 3 1) (owing .opaqueBlack 9)) (fun t => (t.prev, readSlot 45 t)) =
      some (⟨254, 1, 255, 255⟩, ⟨254, 1, 255, 255⟩) := by decide
/-- T4.6: wrap above 255. -/
theorem test_diff_wraps_above :
    field (exec (.diff 3 3 3) (owing ⟨255, 255, 255, 255⟩ 9)) (fun t => t.prev) = some ⟨0, 0, 0, 255⟩ := by decide
/-- T4.8. -/
theorem test_luma_example :
    field (exec (.luma 0x2D 0xA 0xE) (owing .opaqueBlack 9)) (fun t => (t.prev, readSlot 40 t)) =
      some (⟨15, 13, 19, 255⟩, ⟨15, 13, 19, 255⟩) := by decide
/-- T4.11: the greatest deltas, with wrap. -/
theorem test_luma_greatest_deltas :
    field (exec (.luma 63 15 15) (owing ⟨250, 250, 250, 7⟩ 9)) (fun t => t.prev) = some ⟨32, 25, 32, 7⟩ := by decide
/-- T5.1. -/
theorem test_run_emits_23 :
    field (exec (.run 22) (owing ⟨1, 2, 3, 4⟩ 100)) (fun t => (t.pixelsWritten, readSlot 14 t, t.phase)) =
      some (23, ⟨1, 2, 3, 4⟩, .decoding) := by decide
/-- T5.5: clipped. -/
theorem test_run_is_clipped :
    field (exec (.run 9) (owing ⟨1, 2, 3, 255⟩ 2)) (fun t => (t.out, readSlot 23 t, t.phase)) =
      some ([⟨1, 2, 3, 255⟩, ⟨1, 2, 3, 255⟩], ⟨1, 2, 3, 255⟩, .done) := by decide

/-! ### The header (T6), and a chunk cut short (T2.3), each as one step -/

/-- T6.11: the count stands when `AllocationFailure` is raised. -/
theorem test_hdr_over_the_limit :
    field (exec (.hdr 100 100 4 0) { headerState [] with env := { Env.reset with maxPixels := 9999 } })
      (fun t => (t.phase, t.errCode, t.totalPixels, t.hdrValid)) = some (.error, .alloc, 10000, false) := by decide
/-- T6.7. -/
theorem test_hdr_channels_5 :
    field (step (headerState [0x71, 0x6F, 0x69, 0x66, 0, 0, 0, 2, 0, 0, 0, 2, 5, 0]))
      (fun t => (t.errCode, t.inCount, t.hdrHeight, t.hdrChannels, t.hdrColorspace)) =
      some (.fmt, 13, 2, 5, 0) := by decide
/-- T6.13. -/
theorem test_step_zero_height :
    field (step (headerState [0x71, 0x6F, 0x69, 0x66, 0, 0, 0, 7, 0, 0, 0, 0, 4, 0]))
      (fun t => (t.phase, t.inCount, t.hdrWidth, t.hdrValid)) = some (.done, 14, 7, true) := by decide
/-- T6.4: an upper-case magic. -/
theorem test_step_upper_case_magic :
    field (step (headerState [0x51, 0x4F, 0x49, 0x46])) (fun t => (t.phase, t.errCode, t.inCount)) =
      some (.error, .fmt, 4) := by decide
/-- T2.3: `FF 01 02 03` ends at the alpha byte. -/
theorem test_step_cut_rgba :
    field (step (chunkState [0xFF, 1, 2, 3])) (fun t => (t.phase, t.errCode, t.inCount, t.out)) =
      some (.error, .eoi, 18, []) := by decide
/-- T2.4: the rewind of byte D6, as a step. -/
theorem test_step_run_rewind :
    field (step (chunkState [0xD6])) (fun t => (t.pixelsWritten, t.inCount, t.bsCnt, t.ckBuf, t.ckCnt)) =
      some (23, 15, 0, 0xD6, 6) := by decide

/-! ### The ports while a step waits (R38, R39, R293) -/

/-- `FE 01 02 03` is in and the host takes no pixel: {1,2,3,255} is offered and no byte is asked for. -/
theorem test_ports_while_a_pixel_waits :
    field (step { chunkState [0xFE, 1, 2, 3] with
        env := { (chunkState [0xFE, 1, 2, 3]).env with pxReady := false } })
      (fun t => (inReady t, pxValid t, pxData t)) = some (false, true, 0x010203FF) := by decide
/-- `FE 01` with no end signalled: a byte is asked for and no pixel is offered. -/
theorem test_ports_while_a_byte_is_waited_for :
    field (step { chunkState [0xFE, 1] with env := { (chunkState [0xFE, 1]).env with inEos := false } })
      (fun t => (inReady t, pxValid t)) = some (true, false) := by decide

/-! ### Bytes taken by a step that does not complete (R57, R285) -/

/-- A host that does not answer: the byte of `FE 01` after the tag is asked for, two bytes are taken. -/
theorem test_wait_holds_the_bytes_taken :
    field (step { chunkState [0xFE, 1] with env := { (chunkState [0xFE, 1]).env with inEos := false } })
      (fun t => (t.phase, t.inCount, t.env.held, ungivenBytes t)) = some (.decoding, 14, 2, []) := by decide
/-- The host answers after a wait: the luma chunk takes its two bytes once, and nothing is held any more. -/
theorem test_wait_goes_on_when_the_host_answers :
    field (step { chunkState [0x80, 0x88] with env := { (chunkState [0x80, 0x88]).env with held := 1 } })
      (fun t => (t.pixelsWritten, t.inCount, t.env.held)) = some (1, 16, 0) := by decide
/-- An `rst` while the block waits to emit the pixel of `FE 01 02 03`: the next byte is the 9. -/
theorem test_rst_after_a_wait_does_not_rewind :
    field (step { chunkState [0xFE, 1, 2, 3, 9] with
        env := { (chunkState [0xFE, 1, 2, 3, 9]).env with held := 4, ctl := [⟨true, false, none, 0⟩] } })
      (fun t => (t.phase, t.inCount, t.env.input)) = some (.idle, 0, [9]) := by decide
/-- An `rst` inside the header, after its fifth byte. -/
theorem test_rst_inside_the_header_does_not_rewind :
    field (step { headerState hdr11 with env := { (headerState hdr11).env with ctl := [⟨true, false, none, 5⟩] } })
      (fun t => (t.phase, t.env.input)) = some (.idle, [0, 0, 1, 0, 0, 0, 1, 4, 0]) := by decide
/-- An `rst` in a luma chunk cannot come after more than its two bytes. -/
theorem test_rst_inside_a_chunk_does_not_skip :
    field (step { chunkState [0x80, 0x88, 9] with
        env := { (chunkState [0x80, 0x88, 9]).env with ctl := [⟨true, false, none, 7⟩] } })
      (fun t => t.env.input) = some [9] := by decide

/-! ### Witnesses: states that meet the hypotheses of the statements -/

/-- The invariant is met in IDLE, in HEADER, and in DECODING with a pixel owed. -/
theorem witness_inv_decoding : Inv (chunkState [0xD6]) where
  streamWf := by decide
  ctlWf := by intro c hc; cases hc
  taken := by decide
  waiting := Nat.zero_le _
  aligned := rfl
  counted := rfl
  bounded := by decide
  owing := fun _ => by decide
  complete := by intro h; cases h
  errors := by decide
  accepted := fun _ => rfl
  header := fun _ => ⟨by decide, by decide, by decide, by decide, by decide⟩
  fresh := by rintro (h | h) <;> cases h
  slots := fun i => .inl (readSlot_replicate rfl i)

theorem witness_inv_header : Inv (headerState hdr11) where
  streamWf := by decide
  ctlWf := by intro c hc; cases hc
  taken := by decide
  waiting := Nat.zero_le _
  aligned := rfl
  counted := rfl
  bounded := by decide
  owing := by intro h; cases h
  complete := by intro h; cases h
  errors := by decide
  accepted := by rintro (h | h) <;> cases h
  header := by intro h; cases h
  fresh := fun _ => ⟨rfl, rfl, rfl, rfl, rfl, rfl, rfl, rfl, rfl, rfl, rfl⟩
  slots := fun i => .inl (readSlot_replicate rfl i)

/-- EveryStepKeepsTheInvariant: from DECODING, a state with the invariant and its next state. -/
theorem witness_EveryStepKeepsTheInvariant : Inv (chunkState [0xD6]) ∧ ∃ t, step (chunkState [0xD6]) = .next t :=
  ⟨witness_inv_decoding, _, rfl⟩

theorem witness_ResetLeavesTheResetValues :
    (sampled .decoding ⟨true, true, none, 0⟩).env.ctl = [⟨true, true, none, 0⟩] := rfl

/-- One state for each clause; `start` in each of the five phases. -/
theorem witness_RstWinsAndStartActsOnlyWhenNoDecodeRuns :
    (sampled .header ⟨true, true, none, 0⟩).env.ctl = [⟨true, true, none, 0⟩] ∧
    (∀ p ∈ [Phase.idle, .done, .error], (sampled p ⟨false, true, none, 0⟩).phase ≠ .header ∧
      (sampled p ⟨false, true, none, 0⟩).phase ≠ .decoding) ∧
    ∀ p ∈ [Phase.header, .decoding], (sampled p ⟨false, true, none, 0⟩).phase = .header ∨
      (sampled p ⟨false, true, none, 0⟩).phase = .decoding := by decide

theorem witness_StartSetsTheDecodeState :
    (sampled .done ⟨false, true, some [1], 0⟩).env.ctl = [⟨false, true, some [1], 0⟩] ∧
    (sampled .done ⟨false, true, some [1], 0⟩).phase = .done ∧
    (sampled .decoding ⟨false, true, none, 0⟩).phase = .decoding := by decide

/-- An `rst` at rest, one inside a step that has taken one byte, and a `start` with and without a stream. -/
theorem witness_NewDecodesReadTheHostsNextBytes :
    ({ chunkState [0xFE, 1] with env := { (chunkState [0xFE, 1]).env with
        ctl := [⟨true, false, none, 1⟩] } } : State).env.ctl = [⟨true, false, none, 1⟩] ∧
    (sampled .error ⟨true, false, none, 0⟩).env.ctl = [⟨true, false, none, 0⟩] ∧
    (sampled .error ⟨false, true, none, 0⟩).phase = .error ∧
    (sampled .idle ⟨false, true, some [5], 0⟩).env.ctl = [⟨false, true, some [5], 0⟩] := by decide

/-- A luma chunk of which the step holds one byte while it waits for the other, and an `rst` to come. -/
def waitingState : State :=
  { chunkState [0x80] with
    env := { (chunkState [0x80]).env with inEos := false, held := 1, ctl := [⟨true, false, none, 0⟩] } }

theorem witness_inv_waiting : Inv waitingState where
  streamWf := by decide
  ctlWf := by simp [waitingState]
  taken := by decide
  waiting := by decide
  aligned := rfl
  counted := rfl
  bounded := by decide
  owing := fun _ => by decide
  complete := by intro h; cases h
  errors := by decide
  accepted := fun _ => rfl
  header := fun _ => ⟨by decide, by decide, by decide, by decide, by decide⟩
  fresh := by rintro (h | h) <;> cases h
  slots := fun i => .inl (readSlot_replicate rfl i)

/-- A step that waited before an `rst`, and a step with no control input. -/
theorem witness_TakenBytesAreNeverGivenAgain :
    Inv waitingState ∧ (∀ c ∈ waitingState.env.ctl, c.stream = none) ∧
    field (step waitingState) ungivenBytes = some [] ∧
    Inv (chunkState [0xD6]) ∧ (chunkState [0xD6]).env.ctl = [] :=
  ⟨witness_inv_waiting, by decide, by decide, witness_inv_decoding, rfl⟩

/-- IDLE, a running decode in which no step waits, a wait for a byte, and a wait for the host to take a pixel. -/
theorem witness_PortsFollowWhatTheBlockWaitsFor :
    State.reset.phase = .idle ∧ inReady (headerState hdr11) = true ∧
    (∀ s ∈ [headerState hdr11, chunkState [0x80], chunkState [0xC0]], Memory.wf s.env.input = true ∧ s.bsCnt = 0 ∧
      s.env.held = 0 ∧ s.env.ctl = []) ∧
    (headerState hdr11).phase = .header ∧ (chunkState [0xC0]).phase = .decoding ∧
    decodeChunk (pendingBytes { chunkState [0x80] with env := { (chunkState [0x80]).env with inEos := false } }) =
      .error .truncated ∧
    decodeChunk (pendingBytes { chunkState [0xC0] with env := { (chunkState [0xC0]).env with pxReady := false } }) =
      .ok (.run 0, []) ∧
    (chunkState [0xC0]).pixelsWritten < (chunkState [0xC0]).totalPixels :=
  ⟨rfl, by decide, by decide, rfl, rfl, rfl, rfl, by decide⟩

theorem witness_QuiescentPhasesWait : State.reset.env.ctl = [] ∧ State.reset.phase = .idle := by decide

/-- ERROR with no sample, with neither input high, with `start` and with `rst`. -/
theorem witness_ErrorIsLeftOnlyByStartOrRst :
    ({ State.reset with phase := .error } : State).phase = .error ∧
    ∀ c ∈ [(⟨false, false, none, 0⟩ : Ctl), ⟨false, true, none, 0⟩, ⟨true, false, none, 0⟩],
      (sampled .error c).phase = .error := by decide

/-- The last byte of a stream, and the offset after it. -/
theorem witness_FetchByteTakesTheNextByte :
    (chunkState [7]).inCount.toNat < (chunkState [7]).env.input.length ∧
    (chunkState []).env.input.length ≤ (chunkState []).inCount.toNat ∧ (chunkState []).env.inEos = true := by decide

/-- n = bs_cnt; n = bs_cnt + 1 with a byte; n = 8 with none. -/
theorem witness_ReadBitsFollowsItsTwoBranches :
    3 ≤ ({ chunkState [7] with bsCnt := 3 } : State).bsCnt.val ∧
    ({ chunkState [7] with bsCnt := 3 } : State).bsCnt.val < 4 ∧
    (chunkState [7]).env.input[(chunkState [7]).inCount.toNat]? = some 7 ∧
    (chunkState []).bsCnt.val < 8 ∧ (chunkState []).env.input[(chunkState []).inCount.toNat]? = none := by decide

/-- Eleven bits left, and none. -/
theorem witness_ReadBitsReturnsTheNextBitsOfTheStream :
    Memory.wf (chunkState [7]).env.input = true ∧
    (pendingBits { chunkState [7] with bsCnt := 3 }).length = 11 ∧ (pendingBits (chunkState [])).length < 1 := by
  decide

theorem witness_ReadBitsOutsideOneToEightFaults : ((0 : Nat) = 0 ∨ 8 < 0) ∧ ((9 : Nat) = 0 ∨ 8 < 9) := by decide

theorem witness_RestoreBringsBackTheCheckpoint :
    (chunkState []).inCount = 14 ∧ (chunkState []).inCount ≠ 13 ∧ Memory.wf (chunkState []).env.input = true ∧
    (chunkState []).bsCnt = 0 := by decide

theorem witness_StepsCompleteAndLeaveNoBitUnread :
    Memory.wf (chunkState [0xD6]).env.input = true ∧ (chunkState [0xD6]).bsCnt = 0 := by decide

/-- A pixel count equal to the limit, and the largest one. -/
theorem witness_HdrAcceptsALegalHeader :
    (2 : Word32).setWidth 64 * (3 : Word32).setWidth 64 ≤
      ({ State.reset with env := { Env.reset with maxPixels := 6 } } : State).env.maxPixels ∧
    (0xFFFFFFFF : Word32).setWidth 64 * (0xFFFFFFFF : Word32).setWidth 64 ≤ State.reset.env.maxPixels := by decide

/-- Channel bytes on both sides of 3 and 4, a colorspace byte of 2, a count one above the limit. -/
theorem witness_HdrRaisesOnIllegalFields :
    ((2 : Byte) ≠ 3 ∧ (2 : Byte) ≠ 4) ∧ ((5 : Byte) ≠ 3 ∧ (5 : Byte) ≠ 4) ∧ ((2 : Byte) ≠ 0 ∧ (2 : Byte) ≠ 1) ∧
    ({ State.reset with env := { Env.reset with maxPixels := 5 } } : State).env.maxPixels <
      (2 : Word32).setWidth 64 * (3 : Word32).setWidth 64 := by decide

/-- The statement's hypotheses with bytes after the header, for a count within the limit, above it, and 0. -/
theorem witness_HeaderStepAcceptsExactlyFourteenBytes :
    (headerState (hdr11 ++ [0xC0])).env.ctl = [] ∧ (headerState (hdr11 ++ [0xC0])).phase = .header ∧
    (headerState (hdr11 ++ [0xC0])).bsCnt = 0 ∧ Memory.wf (headerState (hdr11 ++ [0xC0])).env.input = true ∧
    pendingBytes (headerState (hdr11 ++ [0xC0])) = encode (.hdr 1 1 4 0) ++ [0xC0] ∧
    ({ headerState hdr11 with env := { (headerState hdr11).env with maxPixels := 0 } } : State).env.maxPixels.toNat <
      (1 : Word32).toNat * (1 : Word32).toNat ∧
    pendingBytes (headerState (encode (.hdr 0 1 4 0))) = encode (.hdr 0 1 4 0) := by decide

/-- The common hypotheses, and one stream for each row of R130. -/
theorem witness_HeaderFailuresTakeTheTabledBytes :
    ((headerState hdr11).env.ctl = [] ∧ (headerState hdr11).env.inEos = true ∧ (headerState hdr11).phase = .header ∧
      (headerState hdr11).bsCnt = 0 ∧ (headerState hdr11).inCount = 0 ∧
      Memory.wf (headerState hdr11).env.input = true) ∧
    (hdr11.take 3).length < 4 ∧ (4 ≤ [0x51, 0x4F, 0x49, (0x46 : Byte)].length ∧
      [0x51, 0x4F, 0x49, (0x46 : Byte)].take 4 ≠ [0x71, 0x6F, 0x69, 0x66]) ∧
    ((hdr11.take 12).take 4 = [0x71, 0x6F, 0x69, 0x66] ∧ (hdr11.take 12).length < 13) ∧
    (hdr11.take 12 ++ [5])[12]? = some 5 ∧ (hdr11.take 13).length = 13 ∧ (hdr11.take 13 ++ [2])[13]? = some 2 ∧
    hdr11 = encode (.hdr 1 1 4 0) ++ [] := by decide

theorem witness_ZeroSizedImageIsDoneAfterTheHeader :
    ((0 : Word32) = 0 ∨ (7 : Word32) = 0) ∧ Memory.wf (encode (.hdr 0 7 4 0) ++ [0xFE]) = true := by decide

theorem witness_ChannelsAndColorspaceDoNotChangeDecoding :
    ((3 : Byte) = 3 ∨ (3 : Byte) = 4) ∧ ((1 : Byte) = 0 ∨ (1 : Byte) = 1) ∧
    Memory.wf (encode (.hdr 1 1 4 0) ++ [0xC0]) = true := by decide

theorem witness_PixelCountIsTheExactProduct :
    Instr.isHeader (.run 61) = false ∧ ∃ t, exec (.run 61) (owing .opaqueBlack 9) = .next t := ⟨rfl, _, rfl⟩

/-- Both ends of every range of R77. -/
theorem witness_FirstByteSelectsTheKind :
    (0x3F : Byte).toNat ≤ 0x3F ∧ 0x40 ≤ (0x40 : Byte).toNat ∧ (0x7F : Byte).toNat ≤ 0x7F ∧
    0x80 ≤ (0x80 : Byte).toNat ∧ (0xBF : Byte).toNat ≤ 0xBF ∧ 0xC0 ≤ (0xC0 : Byte).toNat ∧
    (0xFD : Byte).toNat ≤ 0xFD := by decide

theorem witness_DecodingUndoesEncoding :
    ∀ i ∈ [Instr.index 63, .diff 3 3 3, .luma 63 15 15, .run 61, .rgb 1 2 3, .rgba 1 2 3 4, .hdr 1 2 3 1],
      i.wellFormed = true := by decide

theorem witness_EncodingUndoesDecoding :
    decodeChunk [0xFD, 9] = .ok (.run 61, [9]) ∧ decodeHeader (hdr11 ++ [9]) = .ok (.hdr 1 1 4 0, [9]) := ⟨rfl, rfl⟩

theorem witness_EncodingIsInjective :
    Instr.isHeader (.run 61) = false ∧ Instr.wellFormed (.run 61) = true ∧
    encode (.run 61) ++ [7] = encode (.run 61) ++ [7] ∧ 62 ≤ (62 : BitVec 6).toNat := by decide

theorem witness_BitSourceDecodesAsTheByteMap :
    Memory.wf (chunkState [0xFE, 1, 2, 3]).env.input = true ∧ (chunkState [0xFE, 1, 2, 3]).bsCnt = 0 ∧
    decodeChunk (pendingBytes (chunkState [0xFE, 1, 2, 3])) = .ok (.rgb 1 2 3, []) ∧
    decodeChunk (pendingBytes (chunkState [0xFE, 1, 2])) = .error .truncated ∧
    (chunkState [0xFE, 1, 2]).env.inEos = true := ⟨by decide, rfl, rfl, rfl, rfl⟩

/-- No byte left, and a two-byte chunk with one. -/
theorem witness_TruncatedChunkTakesWhatIsLeftAndRaises :
    (chunkState [0x80]).env.ctl = [] ∧ (chunkState [0x80]).phase = .decoding ∧ (chunkState [0x80]).bsCnt = 0 ∧
    Memory.wf (chunkState [0x80]).env.input = true ∧ pendingBytes (chunkState []) = [] ∧
    pendingBytes (chunkState [0x80]) = [0x80] ∧ ([] : List Byte).length + 1 < chunkLength 0x80 := by decide

theorem witness_RunRewindRereadsItsSixBits :
    (61 : BitVec 6) ≠ 0b111110 ∧ (61 : BitVec 6) ≠ 0b111111 ∧
    pendingBytes (chunkState [0xFD]) = [(0b11 : BitVec 2) ++ (61 : BitVec 6)] := by decide

/-- The pixels that RGB and RGBA give (T4.1, T4.3). -/
theorem witness_RgbProducesItsPixelWithThePreviousAlpha :
    (⟨1, 2, 3, 40⟩ : Pixel) = ⟨1, 2, 3, (owing ⟨10, 20, 30, 40⟩ 9).prev.a⟩ := by decide

theorem witness_RgbaProducesItsPixel : (⟨1, 2, 3, 4⟩ : Pixel) = ⟨1, 2, 3, 4⟩ := rfl

/-- The pixels that DIFF and LUMA give from `prev` = {0,0,0,255} (T4.4, T4.9). -/
theorem witness_DiffAddsItsDeltasModulo256 :
    (254 : Byte) = BitVec.ofInt 8 ((0 : Byte).toNat + (((0 : BitVec 2).toNat : Int) - 2)) ∧
    (1 : Byte) = BitVec.ofInt 8 ((0 : Byte).toNat + (((3 : BitVec 2).toNat : Int) - 2)) := by decide

theorem witness_LumaAddsItsDeltasModulo256 :
    (216 : Byte) = BitVec.ofInt 8 ((0 : Byte).toNat +
      ((((0 : BitVec 4).toNat : Int) - 8) + (((0 : BitVec 6).toNat : Int) - 32))) ∧
    (224 : Byte) = BitVec.ofInt 8 ((0 : Byte).toNat + (((0 : BitVec 6).toNat : Int) - 32)) := by decide

theorem witness_RunRepeatsThePreviousPixel :
    (2 : Nat) = min ((9 : BitVec 6).toNat + 1)
      ((owing ⟨1, 2, 3, 255⟩ 2).totalPixels.toNat - (owing ⟨1, 2, 3, 255⟩ 2).pixelsWritten.toNat) := by decide

/-- An INDEX of a slot never written, and a chunk that writes the cache. -/
theorem witness_CacheHoldsTheLastPixelOfEachHash :
    (∃ t, exec (.index 5) (owing .opaqueBlack 9) = .next t) ∧ (∃ t, exec (.rgb 1 2 3) (owing .opaqueBlack 9) = .next t) ∧
    ∀ k : Slot, readSlot k (owing .opaqueBlack 9) = ⟨0, 0, 0, 0⟩ :=
  ⟨⟨_, rfl⟩, ⟨_, rfl⟩, fun k => readSlot_replicate rfl k⟩

theorem witness_AlphaChangesOnlyByRgbaAndIndex :
    (∃ t, exec (.rgba 1 2 3 4) (owing .opaqueBlack 9) = .next t) ∧
    ∃ t, exec (.hdr 1 1 5 0) (headerState hdr11) = .next t := ⟨⟨_, rfl⟩, _, rfl⟩

theorem witness_ChunksChangeNothingElse :
    (∃ t, exec (.luma 1 2 3) (owing .opaqueBlack 1) = .next t) ∧ ∃ t, exec (.run 9) (owing .opaqueBlack 2) = .next t :=
  ⟨⟨_, rfl⟩, _, rfl⟩

/-- An accepted and a refused header. -/
theorem witness_HdrChangesNothingElse :
    field (exec (.hdr 1 1 4 0) (headerState hdr11)) (fun t => t.phase) = some .decoding ∧
    field (exec (.hdr 1 1 4 2) (headerState hdr11)) (fun t => t.phase) = some .error := by decide

theorem witness_RunOverrunIsClipped :
    (owing ⟨1, 2, 3, 255⟩ 1).pixelsWritten < (owing ⟨1, 2, 3, 255⟩ 1).totalPixels ∧
    (owing ⟨1, 2, 3, 255⟩ 1).totalPixels.toNat - (owing ⟨1, 2, 3, 255⟩ 1).pixelsWritten.toNat <
      (1 : BitVec 6).toNat + 1 := by decide

theorem witness_FirstRunRepeatsOpaqueBlack :
    (owing .opaqueBlack 62).prev = ⟨0, 0, 0, 255⟩ ∧
    (61 : BitVec 6).toNat + 1 ≤
      (owing .opaqueBlack 62).totalPixels.toNat - (owing .opaqueBlack 62).pixelsWritten.toNat := by decide

/-- A header and a chunk. -/
theorem witness_StepRunsTheDecodedInstruction :
    (∀ s ∈ [chunkState [0xFE, 1, 2, 3], headerState hdr11], s.env.ctl = [] ∧ s.env.pxReady = true ∧
      Memory.wf s.env.input = true ∧ s.bsCnt = 0) ∧
    (standsIn (.rgb 1 2 3) (chunkState [0xFE, 1, 2, 3]) ∧ Instr.wellFormed (.rgb 1 2 3) = true ∧
      decodeAs (.rgb 1 2 3) (pendingBytes (chunkState [0xFE, 1, 2, 3])) = .ok (.rgb 1 2 3, [])) ∧
    (standsIn (.hdr 1 1 4 0) (headerState hdr11) ∧ Instr.wellFormed (.hdr 1 1 4 0) = true ∧
      decodeAs (.hdr 1 1 4 0) (pendingBytes (headerState hdr11)) = .ok (.hdr 1 1 4 0, [])) :=
  ⟨by decide, ⟨rfl, rfl, rfl⟩, rfl, rfl, rfl⟩

theorem witness_EveryDecodeEnds :
    Inv (headerState hdr11) ∧ hostServes (headerState hdr11) ∧ (headerState hdr11).phase = .header :=
  ⟨witness_inv_header, ⟨rfl, rfl, rfl⟩, rfl⟩

theorem witness_DecodeEndsInExactlyOneOfTwoWays : Memory.wf hdr11 = true := by decide

/-- A state with another decode behind it, in ERROR. -/
def usedState : State :=
  { sampled .error ⟨false, true, some hdr11, 0⟩ with
    errCode := .fmt, prev := ⟨1, 2, 3, 4⟩, chunk := .run 5, inCount := 3, bsBuf := 7 }

/-- A `start` in IDLE right after reset, and one in ERROR with another past. -/
theorem witness_DecodesDoNotDependOnThePast :
    ((sampled .idle ⟨false, true, some hdr11, 0⟩).env.ctl = [⟨false, true, some hdr11, 0⟩] ∧
      usedState.env.ctl = [⟨false, true, some hdr11, 0⟩]) ∧
    (busy (sampled .idle ⟨false, true, some hdr11, 0⟩) = false ∧ busy usedState = false) ∧
    (sampled .idle ⟨false, true, some hdr11, 0⟩).env.maxPixels = usedState.env.maxPixels ∧
    ((sampled .idle ⟨false, true, some hdr11, 0⟩).env.inEos = true ∧ usedState.env.inEos = true) ∧
    ((sampled .idle ⟨false, true, some hdr11, 0⟩).env.pxReady = true ∧ usedState.env.pxReady = true) ∧
    Memory.wf hdr11 = true := by decide

/-- A decode of `HDR(1,1,4,0)` and `C0` ends in DONE (T6.12). -/
theorem witness_BytesAfterTheLastChunkAreNotRead :
    Memory.wf ((hdr11 ++ [0xC0]) ++ [0xFF]) = true ∧
    field (decodeAll (hdr11 ++ [0xC0]) 1) (fun t => (t.phase, t.inCount)) = some (.done, 15) := by decide

theorem witness_FailingChunkEmitsNothing :
    field (step (chunkState [0xFE, 1])) (fun t => t.phase) = some .error ∧ (chunkState [0xFE, 1]).env.ctl = [] ∧
    (chunkState [0xFE, 1]).phase = .decoding ∧ (chunkState [0xFE, 1]).bsCnt = 0 ∧
    Memory.wf (chunkState [0xFE, 1]).env.input = true := by decide

/-- A header that raises, and a chunk that raises. -/
theorem witness_ChunksRaiseOnlyEndOfInput :
    field (step (headerState [1, 2, 3, 4])) (fun t => t.errCode) = some .fmt ∧
    (chunkState [0x80]).errCode = .none ∧ field (step (chunkState [0x80])) (fun t => t.errCode) = some .eoi := by
  decide

theorem witness_DefaultLimitNeverRaisesAllocationFailure :
    (headerState hdr11).env.maxPixels = 0xFFFFFFFFFFFFFFFF ∧ (headerState hdr11).errCode ≠ .alloc ∧
    field (step (headerState hdr11)) (fun t => t.phase) = some .decoding := by decide

theorem witness_EmittedPixelsAreNeverWithdrawn :
    (chunkState [0xC0]).env.ctl = [] ∧ (chunkState [0xC0]).bsCnt = 0 ∧
    field (step (chunkState [0xC0])) (fun t => t.out) = some [⟨0, 0, 0, 255⟩] := by decide

/-- A chunk cut short with no end signalled, and a whole chunk with no pixel taken. -/
theorem witness_BlockWaitsForAHostThatNeverAnswers :
    decodeChunk (pendingBytes { chunkState [0x80] with env := { (chunkState [0x80]).env with inEos := false } }) =
      .error .truncated ∧
    decodeChunk (pendingBytes { chunkState [0xC0] with env := { (chunkState [0xC0]).env with pxReady := false } }) =
      .ok (.run 0, []) := ⟨rfl, rfl⟩

/-- One pixel owed, the last one. -/
theorem witness_ChunkStepsMakeProgress :
    hostServes (chunkState [0xC0]) ∧ (chunkState [0xC0]).phase = .decoding ∧
    (chunkState [0xC0]).pixelsWritten < (chunkState [0xC0]).totalPixels ∧
    field (step { chunkState [0xC0] with pixelsWritten := 63 }) (fun t => t.phase) = some .done :=
  ⟨⟨rfl, rfl, rfl⟩, by decide, by decide, by decide⟩

end Sys2Proof.Tests
end

section
/-! PROOFS. The statements of spec/10_state.md: the reset values, the pixel count, the frames of the instructions,
and the status and port outputs. -/

namespace Sys2Proof.Machine

/-! ### Port outputs (R38, R39) -/

/-- With no pixel waiting the block asks for a byte exactly while it is busy (R38). -/
theorem ports_of_no_waitingPixel {s : State} (h : waitingPixel s = none) :
    inReady s = busy s ∧ pxValid s = false := by
  simp [inReady, pxValid, h]

/-- A waiting pixel is offered, and no byte is asked for (R39, R293). -/
theorem ports_of_waitingPixel {s : State} {p : Pixel} (h : waitingPixel s = some p) :
    inReady s = false ∧ pxValid s = true ∧ pxData s = pxWord p := by
  simp [inReady, pxValid, pxData, h]

theorem busy_iff (s : State) : busy s = true ↔ s.phase = .header ∨ s.phase = .decoding := by
  simp [busy]

theorem busy_quiescent {s : State} (h : s.phase = .idle ∨ s.phase = .done ∨ s.phase = .error) :
    busy s = false := by
  rcases h with h | h | h <;> simp [busy, h]

theorem ports_quiescent {s : State} (h : s.phase = .idle ∨ s.phase = .done ∨ s.phase = .error) :
    inReady s = false ∧ pxValid s = false := by
  have hp : s.phase ≠ .decoding := by rcases h with h | h | h <;> simp [h]
  obtain ⟨hin, hpx⟩ := ports_of_no_waitingPixel (waitingPixel_of_phase hp)
  exact ⟨hin.trans (busy_quiescent h), hpx⟩

/-- A busy block in which no pixel waits asks for a byte. -/
theorem ports_busy {s : State} (hp : s.phase = .header ∨ s.phase = .decoding) (h : waitingPixel s = none) :
    inReady s = true ∧ pxValid s = false := by
  obtain ⟨hin, hpx⟩ := ports_of_no_waitingPixel h
  exact ⟨hin.trans ((busy_iff s).2 hp), hpx⟩

theorem not_pxValid_of_inReady {s : State} (h : inReady s = true) : pxValid s = false := by
  cases hw : waitingPixel s with
  | none => exact (ports_of_no_waitingPixel hw).2
  | some p => simp [(ports_of_waitingPixel hw).1] at h

/-! ### A chunk step whose host does not answer (R292, R293) -/

/-- The state in which a step waits that has taken `n` bytes: `waitAt` with the number of them written out. -/
def holding (n : Nat) (s : State) : State := { s with env := { s.env with held := n } }

theorem waitAt_resumed (s t : State) :
    waitAt (resumed s) t = holding (t.inCount.toNat - s.inCount.toNat) s := rfl

@[simp] theorem resumed_holding (n : Nat) (s : State) : resumed (holding n s) = resumed s := rfl

/-- The step waits and holds the bytes it has taken: where the chunk is cut short for want of a byte, and where it
is whole for want of a host that takes its pixel. -/
theorem step_decoding_waits {s : State} (hctl : s.env.ctl = []) (hp : s.phase = .decoding)
    (wf : Memory.wf s.env.input = true) (hc : s.bsCnt = 0)
    (noByte : ∀ e, decodeChunk (pendingBytes s) = .error e → s.env.inEos = false)
    (noTaker : ∀ i rest, decodeChunk (pendingBytes s) = .ok (i, rest) → s.env.pxReady = false) :
    step s = .next (holding (chunkTakes (pendingBytes s)) s) := by
  have hf := fetchChunk_cases (s := resumed s) wf hc
  have ht : stepTakes s = (fetchChunk (resumed s)).taken (resumed s) := by simp [stepTakes, hp]
  rw [step_no_control hctl, blockStep_decoding hp, ← stepTakes_decoding hp wf hc, ht]
  generalize fetchChunk (resumed s) = r at hf
  cases hf with
  | whole i rest hd => simp [Ret.into, execWhenReady, noTaker i rest hd, Ret.taken, waitAt_resumed]
  | short t hd only =>
    have he : t.env.inEos = false := by rw [only.env]; exact noByte _ hd
    simp [outOfBytes_into, he, waitAt_resumed]

/-- A wait for a byte asks for it (R38, R292). -/
theorem ports_waiting_for_byte {s : State} {e : DecodeError} (hctl : s.env.ctl = []) (hp : s.phase = .decoding)
    (wf : Memory.wf s.env.input = true) (hc : s.bsCnt = 0) (hd : decodeChunk (pendingBytes s) = .error e)
    (he : s.env.inEos = false) : ∃ t, step s = .next t ∧ inReady t = true ∧ pxValid t = false :=
  ⟨_, step_decoding_waits hctl hp wf hc (fun _ _ => he) (by simp [hd]),
    ports_busy (.inr hp) (waitingPixel_short wf hc hd)⟩

/-- A wait for the host to take a pixel offers the first one that the chunk emits (R39, R293). -/
theorem ports_waiting_for_taker {s : State} {i : Instr} {rest : List Byte} (hctl : s.env.ctl = [])
    (hp : s.phase = .decoding) (wf : Memory.wf s.env.input = true) (hc : s.bsCnt = 0)
    (hd : decodeChunk (pendingBytes s) = .ok (i, rest)) (hx : s.env.pxReady = false)
    (owed : s.pixelsWritten < s.totalPixels) :
    ∃ t u p new, step s = .next t ∧ exec i (afterFetch i (resumed s)) = .next u ∧
      u.out = s.out ++ p :: new ∧ inReady t = false ∧ pxValid t = true ∧ pxData t = pxWord p := by
  have hstep : step s = .next (holding i.byteLength s) := by
    simpa [chunkTakes, hd] using step_decoding_waits hctl hp wf hc (by simp [hd]) (fun _ _ _ => hx)
  obtain ⟨p, new, u, hu, hout, hfirst⟩ :=
    firstPixel_chunk (s := afterFetch i (resumed s)) (decodeChunk_isHeader hd) owed
  have hwait : waitingPixel (holding i.byteLength s) = some p := by
    rw [waitingPixel_whole (s := holding i.byteLength s) hp wf hc hd, resumed_holding]
    exact (if_pos rfl).trans hfirst
  exact ⟨_, u, p, new, hstep, hu, hout, ports_of_waitingPixel hwait⟩

/-! ### The frame of the six chunks (R171, R200) -/

/-- The elements that no chunk writes. -/
theorem ChunkEffect.keeps {s t : State} {i : Instr} (h : ChunkEffect s i t) :
    t.errCode = s.errCode ∧ t.hdrWidth = s.hdrWidth ∧ t.hdrHeight = s.hdrHeight ∧
    t.hdrChannels = s.hdrChannels ∧ t.hdrColorspace = s.hdrColorspace ∧ t.hdrValid = s.hdrValid ∧
    t.totalPixels = s.totalPixels ∧ t.bsBuf = s.bsBuf ∧ t.bsCnt = s.bsCnt ∧ t.ckBuf = s.ckBuf ∧
    t.ckCnt = s.ckCnt ∧ t.inCount = s.inCount ∧ t.env = s.env := by
  cases h <;> simp

theorem ChunkEffect.totalPixels {s t : State} {i : Instr} (h : ChunkEffect s i t) :
    t.totalPixels = s.totalPixels := by
  cases h <;> simp

/-- The phase moves only by the test for the end of the decode (R226). -/
theorem ChunkEffect.phase {s t : State} {i : Instr} (h : ChunkEffect s i t) :
    t.phase = s.phase ∨ t.phase = .done := by
  cases h with
  | index idx => exact (checkDone_phase_cases _).imp_left (·.trans (produce_phase _ _ _))
  | run length => exact (checkDone_phase_cases _).imp_left (·.trans (applyRun_phase _ _))
  | pixel i c p => exact (checkDone_phase_cases _).imp_left (·.trans (produce_phase _ _ _))

/-- The one slot a chunk may write is that of the new previous pixel (R171, R201). -/
theorem ChunkEffect.otherSlots {s t : State} {i : Instr} (h : ChunkEffect s i t) {k : Slot}
    (hk : k ≠ pixelHash t.prev) : readSlot k t = readSlot k s := by
  cases h with
  | index idx => exact readSlot_congr (by simp) k
  | run length =>
    have hk' : pixelHash s.prev ≠ k := by simpa using hk.symm
    rw [← readSlot_writeSlot_other hk' s.prev s]
    exact readSlot_congr (by simp) k
  | pixel i c p =>
    have hk' : pixelHash p ≠ k := by simpa using hk.symm
    rw [← readSlot_writeSlot_other hk' p s]
    exact readSlot_congr (by simp) k

theorem ChunkEffect.index_cache {s t : State} {idx : BitVec 6} (h : ChunkEffect s (.index idx) t) :
    t.cache = s.cache := by
  cases h with
  | index => simp
  | pixel _ _ _ noIndex => exact absurd rfl (noIndex idx)

theorem ChunkEffect.run_prev {s t : State} {length : BitVec 6} (h : ChunkEffect s (.run length) t) :
    t.prev = s.prev := by
  cases h with
  | run => simp
  | pixel _ _ _ _ noRun => exact absurd rfl (noRun length)

/-- Every pixel a chunk emits is the new previous pixel. -/
theorem ChunkEffect.out {s t : State} {i : Instr} (h : ChunkEffect s i t) :
    ∃ new, t.out = s.out ++ new ∧ ∀ p ∈ new, p = t.prev := by
  cases h with
  | index idx => exact ⟨[readSlot idx s], by simp, by simp⟩
  | run length =>
    exact ⟨List.replicate (runEmits length s) s.prev, (checkDone_out _).trans (applyRun_out _ _), by simp⟩
  | pixel i c p => exact ⟨[p], by simp, by simp⟩

/-! ### The frame of HDR (R121) -/

/-- The elements that HDR does not write, whether it accepts or raises. -/
theorem execHdr_keeps {w h : Word32} {c cs : Byte} {s t : State} (hx : exec (.hdr w h c cs) s = .next t) :
    t.pixelsWritten = s.pixelsWritten ∧ t.out = s.out ∧ t.prev = s.prev ∧ t.cache = s.cache ∧
    t.chunk = s.chunk ∧ t.bsBuf = s.bsBuf ∧ t.bsCnt = s.bsCnt ∧ t.ckBuf = s.ckBuf ∧ t.ckCnt = s.ckCnt ∧
    t.inCount = s.inCount ∧ t.env = s.env := by
  obtain ⟨u, hu, rfl | rfl | rfl⟩ := execHdr_cases hx <;> rw [hu] <;> simp

/-- HDR raises `InvalidFormat` or `AllocationFailure` and leaves `hdr_valid`, or it accepts (R121, R127). -/
theorem execHdr_ends {w h : Word32} {c cs : Byte} {s t : State} (hx : exec (.hdr w h c cs) s = .next t) :
    (t.phase = .error ∧ t.hdrValid = s.hdrValid ∧ (t.errCode = .fmt ∨ t.errCode = .alloc)) ∨
    ((t.phase = .done ∨ t.phase = .decoding) ∧ t.errCode = s.errCode ∧ t.hdrValid = true) := by
  obtain ⟨u, hu, rfl | rfl | rfl⟩ := execHdr_cases hx
  · exact .inl ⟨rfl, by rw [hu]; rfl, .inl rfl⟩
  · exact .inl ⟨rfl, by rw [hu]; rfl, .inr rfl⟩
  · refine .inr ⟨?_, by rw [hu], rfl⟩
    by_cases hz : pixelCount w h = 0
    · exact .inl (if_pos hz)
    · exact .inr (if_neg hz)

/-! ### The pixel count (R24) -/

theorem pixelCount_le (w h : Word32) : (pixelCount w h).toNat ≤ 2 ^ 64 - 2 ^ 33 + 1 := by
  have hw := w.isLt
  have hh := h.isLt
  calc (pixelCount w h).toNat = w.toNat * h.toNat := pixelCount_toNat w h
    _ ≤ (2 ^ 32 - 1) * (2 ^ 32 - 1) := Nat.mul_le_mul (by omega) (by omega)
    _ = 2 ^ 64 - 2 ^ 33 + 1 := by norm_num

theorem acceptHeader_totalPixels (w h : Word32) (s : State) :
    (acceptHeader w h s).totalPixels = pixelCount w h := by
  by_cases hm : s.env.maxPixels < pixelCount w h
  · rw [acceptHeader_over hm]; rfl
  · rw [acceptHeader_within hm]

/-! ### Reset (R40) -/

/-- Every element has its value of R40, whatever the host's side is. -/
theorem resetValues_of_env (e : Env) : ResetValues { State.reset with env := e } :=
  have ports := ports_quiescent (s := { State.reset with env := e }) (.inl rfl)
  { phase := rfl, errCode := rfl, hdrWidth := rfl, hdrHeight := rfl, hdrChannels := rfl, hdrColorspace := rfl,
    hdrValid := rfl, totalPixels := rfl, pixelsWritten := rfl, inCount := rfl, prev := rfl,
    cache := readSlot_replicate rfl,
    bsBuf := rfl, ckBuf := rfl, bsCnt := rfl, ckCnt := rfl, out := rfl, inReady := ports.1, pxValid := ports.2 }

theorem atStart_reset : AtStart State.reset := by
  constructor <;> rfl

/-! ### Status outputs (R35) and port words (R39) -/

theorem doneOut_iff (s : State) : doneOut s = true ↔ s.phase = .done := by simp [doneOut]

theorem errorOut_iff (s : State) : errorOut s = true ↔ s.phase = .error := by simp [errorOut]

/-- The four channels of a pixel's port word, the red one on top. -/
theorem pxWord_channels (p : Pixel) :
    (pxWord p).extractLsb' 24 8 = p.r ∧ (pxWord p).extractLsb' 16 8 = p.g ∧
    (pxWord p).extractLsb' 8 8 = p.b ∧ (pxWord p).extractLsb' 0 8 = p.a := by
  have h : beBytes (pxWord p) = [p.r, p.g, p.b, p.a] := beBytes_beWord p.r p.g p.b p.a
  simpa only [beBytes, List.cons.injEq, and_true] using h

theorem pxTransfers_emit (s : State) (p : Pixel) : pxTransfers (emit p s) = pxTransfers s ++ [pxWord p] := by
  simp [pxTransfers]

/-! ### The statements -/

/-- Settles O39, from the three shapes of a chunk's effect. -/
theorem chunksChangeNothingElse : Obligations.ChunksChangeNothingElse := by
  intro i s t hi hx
  have eff := exec_chunk_cases hi hx
  obtain ⟨herr, hw, hh, hch, hcs, hv, htot, hbuf, hcnt, hckb, hckc, hin, henv⟩ := eff.keeps
  refine ⟨herr, hw, hh, hch, hcs, hv, htot, hbuf, hcnt, hckb, hckc, hin, henv, eff.phase,
    fun k => eff.otherSlots, ?_, ?_, eff.out, fun _ => by rw [henv]⟩
  · rintro idx rfl
    exact eff.index_cache
  · rintro length rfl
    exact eff.run_prev

/-- Settles O40, from the two ends of HDR. -/
theorem hdrChangesNothingElse : Obligations.HdrChangesNothingElse := by
  intro w h c cs s t hx
  obtain ⟨hpw, hout, hprev, hcache, hchunk, hbuf, hcnt, hckb, hckc, hin, henv⟩ := execHdr_keeps hx
  refine ⟨hpw, hout, hprev, hcache, hchunk, hbuf, hcnt, hckb, hckc, hin, henv, ?_⟩
  have hstream : ∀ offset, Memory.read t.env.input offset = Memory.read s.env.input offset :=
    fun _ => by rw [henv]
  rcases execHdr_ends hx with ⟨hp, raised⟩ | ⟨hp, accepted⟩
  · exact ⟨.inl hp, fun _ => raised, fun hne => absurd hp hne, hstream⟩
  · have hne : t.phase ≠ .error := by rcases hp with hp | hp <;> simp [hp]
    exact ⟨.inr hp, fun he => absurd he hne, fun _ => accepted, hstream⟩

/-- Settles O60: the outputs are read off the pixel that waits, or none. -/
theorem portsFollowWhatTheBlockWaitsFor : Obligations.PortsFollowWhatTheBlockWaitsFor := by
  refine ⟨fun _ => ports_quiescent, fun _ => not_pxValid_of_inReady, fun s wf hc => ⟨?_, ?_, ?_⟩⟩
  · exact fun held hp => ports_busy hp (waitingPixel_unheld wf hc held)
  · exact fun hp => ports_busy (.inl hp) (waitingPixel_of_phase (by simp [hp]))
  · exact fun hctl hp => ⟨fun _ => ports_waiting_for_byte hctl hp wf hc,
      fun _ _ => ports_waiting_for_taker hctl hp wf hc⟩

/-- Settles O1: an `rst` sample leaves the reset state but for the host's side. -/
theorem resetLeavesTheResetValues : Obligations.ResetLeavesTheResetValues := by
  refine ⟨resetValues_of_env Env.reset, fun s c rest hctl hrst => ?_⟩
  refine ⟨applyReset (cutTaken c.cut (setCtl rest s)) (setCtl rest s), ?_, resetValues_of_env _⟩
  rw [step_control hctl, controlStep, if_pos hrst]

/-- Settles O19, from the product's value, the header's two ends and the chunks' frame. -/
theorem pixelCountIsTheExactProduct : Obligations.PixelCountIsTheExactProduct :=
  ⟨fun w h => ⟨pixelCount_toNat w h, pixelCount_le w h⟩, acceptHeader_totalPixels,
    fun _ _ _ hi hx => (exec_chunk_cases hi hx).totalPixels⟩

/-- Settles O45: nothing is decoded yet, so the clauses about later phases do not apply. -/
theorem invariantHoldsAtReset : Obligations.InvariantHoldsAtReset where
  streamWf := reset_stream_wf
  ctlWf := by simp [State.reset, Env.reset]
  taken := Nat.le_refl 0
  waiting := Nat.zero_le _
  aligned := rfl
  counted := rfl
  bounded := BitVec.le_refl _
  owing := by simp [State.reset]
  complete := by simp [State.reset]
  errors := by simp [State.reset]
  accepted := by simp [State.reset]
  header := by simp [State.reset]
  fresh := fun _ => atStart_reset
  slots := fun i => .inl (readSlot_replicate rfl i)

/-- Settles O55: each flag holds in its own phases, and no phase is two flags'. -/
theorem statusOutputsFollowThePhase : Obligations.StatusOutputsFollowThePhase := by
  intro s
  have hb : (status s).busy = true ↔ s.phase = .header ∨ s.phase = .decoding := busy_iff s
  have hd : (status s).done = true ↔ s.phase = .done := doneOut_iff s
  have he : (status s).error = true ↔ s.phase = .error := errorOut_iff s
  refine ⟨hb, hd, he, ?_, rfl, rfl, rfl, rfl, rfl, rfl, rfl, rfl, ?_, ?_, ?_, ?_, rfl⟩
  · change errNumber s.errCode = _
    cases s.errCode <;> rfl
  all_goals
    simp only [← Bool.not_eq_true, hb, hd, he]
    cases s.phase <;> decide

/-- Settles O56: the port's word is the big-endian word of the four channels. -/
theorem portWordsHoldTheChannelsInOrder : Obligations.PortWordsHoldTheChannelsInOrder :=
  ⟨pxWord_channels, pxTransfers_emit⟩

end Sys2Proof.Machine
end

section
/-! PROOFS. The statements of spec/20_memory.md: the bit source as a stream of bits (R53, R102), and the pixels
already emitted (R65). -/

namespace Sys2Proof.Machine

/-! ### The low bits of a byte -/

@[simp] theorem lowBits_length (v : Byte) (n : Nat) : (lowBits v n).length = n := by simp [lowBits]

/-- The low `n` bits depend on the value mod `2 ^ n` alone. -/
theorem lowBits_congr {v w : Byte} {n : Nat} (h : v.toNat % 2 ^ n = w.toNat % 2 ^ n) : lowBits v n = lowBits w n := by
  have hbit : ∀ i ∈ List.range n, v.getLsbD i = w.getLsbD i := by
    intro i hi
    have hlt : i < n := List.mem_range.1 hi
    simpa [Nat.testBit_mod_two_pow, hlt, BitVec.testBit_toNat] using congrArg (Nat.testBit · i) h
  simp only [lowBits, List.map_congr_left hbit]

/-- The upper `n` of the low `m + n` bits come first. -/
theorem lowBits_add (v : Byte) (m n : Nat) : lowBits v (m + n) = lowBits (v >>> m) n ++ lowBits v m := by
  simp [lowBits, List.range_add, Function.comp_def]

/-- A field read from a byte, as bits: `byteBits` is a slice of the byte (R9). -/
theorem lowBits_byteBits (v : Byte) (lo : Nat) {n : Nat} (h8 : n ≤ 8) :
    lowBits (BitVec.ofNat 8 (byteBits v lo n)) n = lowBits (v >>> lo) n := by
  apply lowBits_congr
  rw [BitVec.toNat_ofNat, Nat.mod_mod_of_dvd _ (Nat.pow_dvd_pow 2 h8), byteBits, Nat.mod_mod,
    BitVec.toNat_ushiftRight, Nat.shiftRight_eq_div_pow]

theorem byteBits_lt (v : Byte) (lo n : Nat) : byteBits v lo n < 2 ^ n := Nat.mod_lt _ (Nat.two_pow_pos n)

/-- Joining `k` bits and `j` bits gives a number of `k + j` bits. -/
theorem join_lt {x y j k : Nat} (hx : x < 2 ^ k) (hy : y < 2 ^ j) : x * 2 ^ j + y < 2 ^ (k + j) := by
  calc x * 2 ^ j + y < (x + 1) * 2 ^ j := by rw [Nat.add_one_mul]; omega
    _ ≤ 2 ^ k * 2 ^ j := Nat.mul_le_mul_right _ hx
    _ = 2 ^ (k + j) := (Nat.pow_add 2 k j).symm

/-- The bits of joined numbers are those of the upper one, then those of the lower one. -/
theorem lowBits_join {x y j k : Nat} (hx : x < 2 ^ k) (hy : y < 2 ^ j) (h8 : k + j ≤ 8) :
    lowBits (BitVec.ofNat 8 (x * 2 ^ j + y)) (k + j) =
      lowBits (BitVec.ofNat 8 x) k ++ lowBits (BitVec.ofNat 8 y) j := by
  have fits {m n : Nat} (hm : m < 2 ^ n) (hn : n ≤ 8) : (BitVec.ofNat 8 m).toNat = m :=
    Nat.mod_eq_of_lt (hm.trans_le (Nat.pow_le_pow_right (by decide) hn))
  have hv := fits (join_lt hx hy) h8
  rw [Nat.add_comm k j, lowBits_add]
  congr 1 <;> apply lowBits_congr
  · rw [BitVec.toNat_ushiftRight, hv, fits hx (by omega), Nat.shiftRight_eq_div_pow,
      Nat.add_comm, Nat.add_mul_div_right _ _ (Nat.two_pow_pos j), Nat.div_eq_of_lt hy, Nat.zero_add]
  · rw [hv, fits hy (by omega), Nat.mul_add_mod_self_right]

/-! ### ReadBits at any bit position -/

theorem pendingBits_length (s : State) : (pendingBits s).length = s.bsCnt.val + 8 * (pendingBytes s).length := by
  simp [pendingBits, Nat.mul_comm]

/-- What is unread, from the buffered byte, how many of its bits are unread, and the bytes not taken. -/
theorem pendingBits_eq {s : State} {k : Nat} {rest : List Byte} (hk : s.bsCnt.val = k) (h : pendingBytes s = rest) :
    pendingBits s = lowBits s.bsBuf k ++ rest.flatMap fun b => lowBits b 8 := by
  rw [pendingBits, hk, h]

/-- A read of `j` bits more than are held goes on into the next byte (R102). -/
theorem readBits_across {j : Nat} {s : State} {b : Byte} {rest : List Byte} (h0 : 0 < j) (h8 : s.bsCnt.val + j ≤ 8)
    (h : pendingBytes s = b :: rest) :
    readBits (s.bsCnt.val + j) s = .ok
      (BitVec.ofNat 8 (byteBits s.bsBuf 0 s.bsCnt.val * 2 ^ j + byteBits b (8 - j) j))
      { s with inCount := s.inCount + 1, bsBuf := b, bsCnt := Fin.ofNat 9 (8 - j) } := by
  have hn : ¬ (s.bsCnt.val + j = 0 ∨ 8 < s.bsCnt.val + j) := by omega
  have hk : ¬ s.bsCnt.val + j ≤ s.bsCnt.val := by omega
  simp only [readBits, if_neg hn, if_neg hk, fetchByte_pending h, Ret.ok_andThen, Nat.add_sub_cancel_left]

/-- A read that the held bits do not cover, with no byte left (R101). -/
theorem readBits_outOfBytes {n : Nat} {s : State} (h8 : n ≤ 8) (hk : s.bsCnt.val < n) (h : pendingBytes s = []) :
    readBits n s = outOfBytes s := by
  have hn : ¬ (n = 0 ∨ 8 < n) := by omega
  have hf : fetchByte s = outOfBytes s := fetchByte_ended h
  simp only [readBits, if_neg hn, if_neg (Nat.not_le.2 hk), hf, outOfBytes_andThen]

/-- The value `v` and the state `t` of a read split the unread bits of `s` into the `n` of the value and the rest. -/
structure ReadsBits (n : Nat) (s : State) (v : Byte) (t : State) : Prop where
  value : v.toNat < 2 ^ n
  bits : pendingBits s = lowBits v n ++ pendingBits t
  only : t = { s with bsBuf := t.bsBuf, bsCnt := t.bsCnt, inCount := t.inCount }

/-- R102's first branch: the held bits cover the read. -/
theorem readBits_reads_held {n : Nat} {s : State} (h1 : 1 ≤ n) (h : n ≤ s.bsCnt.val) :
    ∃ v t, readBits n s = .ok v t ∧ ReadsBits n s v t := by
  have hk := s.bsCnt.isLt
  have hcnt : (Fin.ofNat 9 (s.bsCnt.val - n)).val = s.bsCnt.val - n := Nat.mod_eq_of_lt (by omega)
  have left : pendingBits { s with bsCnt := Fin.ofNat 9 (s.bsCnt.val - n) } =
      lowBits s.bsBuf (s.bsCnt.val - n) ++ (pendingBytes s).flatMap fun b => lowBits b 8 := pendingBits_eq hcnt rfl
  refine ⟨_, _, readBits_held h1 h, ⟨?_, ?_, rfl⟩⟩
  · rw [BitVec.toNat_ofNat]
    exact (Nat.mod_le _ _).trans_lt (byteBits_lt _ _ _)
  · have halves : lowBits s.bsBuf s.bsCnt.val = lowBits (s.bsBuf >>> (s.bsCnt.val - n)) n ++
        lowBits s.bsBuf (s.bsCnt.val - n) := by rw [← lowBits_add, Nat.sub_add_cancel h]
    rw [left, lowBits_byteBits _ _ (by omega), pendingBits, halves, List.append_assoc]

/-- R102's second branch: all the held bits, then the top `j` of the next byte. -/
theorem readBits_reads_across {j : Nat} {s : State} {b : Byte} {rest : List Byte} (wf : Memory.wf s.env.input = true)
    (h0 : 0 < j) (h8 : s.bsCnt.val + j ≤ 8) (h : pendingBytes s = b :: rest) :
    ∃ v t, readBits (s.bsCnt.val + j) s = .ok v t ∧ ReadsBits (s.bsCnt.val + j) s v t := by
  have hx := byteBits_lt s.bsBuf 0 s.bsCnt.val
  have hy := byteBits_lt b (8 - j) j
  have hcnt : (Fin.ofNat 9 (8 - j)).val = 8 - j := Nat.mod_eq_of_lt (by omega)
  have left : pendingBits { s with inCount := s.inCount + 1, bsBuf := b, bsCnt := Fin.ofNat 9 (8 - j) } =
      lowBits b (8 - j) ++ rest.flatMap fun b => lowBits b 8 := pendingBits_eq hcnt (drop_inCount_succ wf h)
  refine ⟨_, _, readBits_across h0 h8 h, ⟨?_, ?_, rfl⟩⟩
  · rw [BitVec.toNat_ofNat]
    exact (Nat.mod_le _ _).trans_lt (join_lt hx hy)
  · have halves : lowBits b 8 = lowBits (b >>> (8 - j)) j ++ lowBits b (8 - j) := by
      rw [← lowBits_add, Nat.sub_add_cancel (by omega)]
    rw [left, lowBits_join hx hy h8, lowBits_byteBits _ _ (by omega), lowBits_byteBits _ _ (by omega),
      pendingBits_eq rfl h, List.flatMap_cons, halves]
    simp only [BitVec.ushiftRight_zero, List.append_assoc]

/-- While there are `n` bits, `ReadBits(n)` takes them. -/
theorem readBits_reads {n : Nat} {s : State} (wf : Memory.wf s.env.input = true) (h1 : 1 ≤ n) (h8 : n ≤ 8)
    (h : n ≤ (pendingBits s).length) : ∃ v t, readBits n s = .ok v t ∧ ReadsBits n s v t := by
  rw [pendingBits_length] at h
  by_cases hk : n ≤ s.bsCnt.val
  · exact readBits_reads_held h1 hk
  cases hp : pendingBytes s with
  | nil =>
    rw [hp, List.length_nil] at h
    omega
  | cons b rest =>
    obtain ⟨j, rfl⟩ := Nat.exists_eq_add_of_lt (Nat.lt_of_not_le hk)
    exact readBits_reads_across wf (Nat.succ_pos j) h8 hp

/-! ### The pixels already emitted (R65) -/

theorem FetchOnly.out {s t : State} (h : FetchOnly s t) : t.out = s.out := by rw [h]

theorem HeaderOnly.out {s t : State} (h : HeaderOnly s t) : t.out = s.out := by rw [h]

theorem acceptHeader_out (w h : Word32) (s : State) : (acceptHeader w h s).out = s.out := by
  by_cases hm : s.env.maxPixels < pixelCount w h
  · rw [acceptHeader_over hm]; rfl
  · rw [acceptHeader_within hm]

theorem out_extends_of_eq {s t : State} (h : t.out = s.out) : s.out <+: t.out := h ▸ List.prefix_rfl

/-- The block's step only adds pixels: a chunk that runs emits its own, and in every other case `out` stays. -/
theorem BlockStep.out_extends {s t : State} (h : BlockStep s t) : s.out <+: t.out := by
  cases h with
  | quiet => exact List.prefix_rfl
  | waits => exact List.prefix_rfl
  | chunk i rest _ _ decodes _ runs =>
    obtain ⟨new, hout, _⟩ := (exec_chunk_cases (decodeChunk_isHeader decodes) runs).out
    exact ⟨new, hout.symm⟩
  | chunkShort u _ _ only => exact out_extends_of_eq only.out
  | header w h c cs => exact out_extends_of_eq (acceptHeader_out w h _)
  | headerShort u _ _ only => exact out_extends_of_eq only.out
  | headerBad u _ _ only => exact out_extends_of_eq only.out

/-! ### The statements -/

/-- Settles O9: a read splits the unread bits into its value's bits and the rest. -/
theorem readBitsReturnsTheNextBitsOfTheStream : Obligations.ReadBitsReturnsTheNextBitsOfTheStream := by
  refine fun n s h1 h8 wf => ⟨fun hn => ?_, fun hn heos => ?_⟩
  · obtain ⟨v, t, hread, value, bits, only⟩ := readBits_reads wf h1 h8 hn
    refine ⟨v, t, hread, value, ?_, ?_, only⟩
    · rw [bits, List.take_left' (lowBits_length v n)]
    · rw [bits, List.drop_left' (lowBits_length v n)]
  · rw [pendingBits_length] at hn
    have hp : pendingBytes s = [] := List.length_eq_zero_iff.1 (by omega)
    rw [readBits_outOfBytes h8 (by omega) hp, outOfBytes, if_pos heos]
    rfl

/-- Settles O54: the block's step only adds to `out`, and the port's history is `out` word by word. -/
theorem emittedPixelsAreNeverWithdrawn : Obligations.EmittedPixelsAreNeverWithdrawn := by
  intro s t hc wf hctl hs
  obtain ⟨u, hu, hcases⟩ := blockStep_cases wf hc
  obtain rfl : u = t := by simpa [step_no_control hctl, hu] using hs
  exact ⟨hcases.out_extends, hcases.out_extends.map pxWord⟩

end Sys2Proof.Machine
end

section
/-! PROOFS. The statements of spec/30_encoding.md: the map from the first byte to the chunk (R71, R77), and the
encoder and decoder as inverses (R80, R81, R59). -/

namespace Sys2Proof

/-! ### A byte's tag and fields (R71) -/

/-- A slice of a byte as a number (R9). -/
theorem byteSlice_eq (b : Byte) (lo len : Nat) : b.extractLsb' lo len = BitVec.ofNat len (b.toNat / 2 ^ lo) := by
  rw [BitVec.extractLsb', Nat.shiftRight_eq_div_pow]

/-- A 2-bit tag is a range of 64 first bytes (R77). -/
theorem tag_eq_iff (b : Byte) (t : BitVec 2) :
    b.extractLsb' 6 2 = t ↔ 64 * t.toNat ≤ b.toNat ∧ b.toNat < 64 * (t.toNat + 1) := by
  rw [byteSlice_eq, ← BitVec.toNat_inj, BitVec.toNat_ofNat]
  omega

/-- The 8-bit tags start with the 2-bit tag `11` (R72). -/
theorem not_superTag {b : Byte} (h : b.extractLsb' 6 2 ≠ (0b11 : BitVec 2)) : b ≠ 0xFE ∧ b ≠ 0xFF := by
  constructor <;> rintro rfl <;> exact h rfl

@[simp] theorem tag_append (t : BitVec 2) (f : BitVec 6) : (t ++ f : Byte).extractLsb' 6 2 = t :=
  BitVec.extractLsb'_append_eq_left

@[simp] theorem field_append (t : BitVec 2) (f : BitVec 6) : (t ++ f : Byte).extractLsb' 0 6 = f :=
  BitVec.extractLsb'_append_eq_right

@[simp] theorem highNibble_append (hi lo : BitVec 4) : (hi ++ lo : Byte).extractLsb' 4 4 = hi :=
  BitVec.extractLsb'_append_eq_left

@[simp] theorem lowNibble_append (hi lo : BitVec 4) : (hi ++ lo : Byte).extractLsb' 0 4 = lo :=
  BitVec.extractLsb'_append_eq_right

/-- The four 2-bit slices of a DIFF byte. -/
theorem quarters_append : ∀ t dr dg db : BitVec 2,
    (t ++ dr ++ dg ++ db : Byte).extractLsb' 6 2 = t ∧ (t ++ dr ++ dg ++ db : Byte).extractLsb' 4 2 = dr ∧
    (t ++ dr ++ dg ++ db : Byte).extractLsb' 2 2 = dg ∧ (t ++ dr ++ dg ++ db : Byte).extractLsb' 0 2 = db := by
  decide

/-- A run that is legal is no 8-bit tag (R76). -/
theorem run_not_superTag {length : BitVec 6} (h : Instr.runLengthOk length = true) :
    ((0b11 : BitVec 2) ++ length : Byte) ≠ 0xFE ∧ ((0b11 : BitVec 2) ++ length : Byte) ≠ 0xFF := by
  revert length
  decide

/-! ### The chunk decoder, one equation for each tag (R71, R77) -/

section
variable {b0 : Byte}

theorem decodeChunk_index (tag : b0.extractLsb' 6 2 = (0b00 : BitVec 2)) (rest : List Byte) :
    decodeChunk (b0 :: rest) = .ok (.index (b0.extractLsb' 0 6), rest) := by
  obtain ⟨hFE, hFF⟩ := not_superTag (b := b0) (by rw [tag]; decide)
  simp only [decodeChunk, if_neg hFE, if_neg hFF, tag]
  rfl

theorem decodeChunk_diff (tag : b0.extractLsb' 6 2 = (0b01 : BitVec 2)) (rest : List Byte) :
    decodeChunk (b0 :: rest) =
      .ok (.diff (b0.extractLsb' 4 2) (b0.extractLsb' 2 2) (b0.extractLsb' 0 2), rest) := by
  obtain ⟨hFE, hFF⟩ := not_superTag (b := b0) (by rw [tag]; decide)
  simp only [decodeChunk, if_neg hFE, if_neg hFF, tag]
  rfl

theorem decodeChunk_luma (tag : b0.extractLsb' 6 2 = (0b10 : BitVec 2)) (b1 : Byte) (rest : List Byte) :
    decodeChunk (b0 :: b1 :: rest) =
      .ok (.luma (b0.extractLsb' 0 6) (b1.extractLsb' 4 4) (b1.extractLsb' 0 4), rest) := by
  obtain ⟨hFE, hFF⟩ := not_superTag (b := b0) (by rw [tag]; decide)
  simp only [decodeChunk, if_neg hFE, if_neg hFF, tag]
  rfl

theorem decodeChunk_run (tag : b0.extractLsb' 6 2 = (0b11 : BitVec 2)) (hFE : b0 ≠ 0xFE) (hFF : b0 ≠ 0xFF)
    (rest : List Byte) : decodeChunk (b0 :: rest) = .ok (.run (b0.extractLsb' 0 6), rest) := by
  simp only [decodeChunk, if_neg hFE, if_neg hFF, tag]
  rfl

end

theorem decodeChunk_rgb (r g b : Byte) (rest : List Byte) :
    decodeChunk (0xFE :: r :: g :: b :: rest) = .ok (.rgb r g b, rest) := rfl

theorem decodeChunk_rgba (r g b a : Byte) (rest : List Byte) :
    decodeChunk (0xFF :: r :: g :: b :: a :: rest) = .ok (.rgba r g b a, rest) := rfl

/-! ### Encoder and decoder as inverses (R80, R81, R59) -/

theorem decodeHeader_encode (w h : Word32) (c cs : Byte) (rest : List Byte) :
    decodeHeader (encode (.hdr w h c cs) ++ rest) = .ok (.hdr w h c cs, rest) := by
  simp [encode, decodeHeader, magicBytes, beBytes]

theorem decodeChunk_encode {i : Instr} (chunk : i.isHeader = false) (wf : i.wellFormed = true) (rest : List Byte) :
    decodeChunk (encode i ++ rest) = .ok (i, rest) := by
  cases i with
  | index idx => simpa [encode] using decodeChunk_index (tag_append 0b00 idx) rest
  | diff dr dg db =>
    obtain ⟨tag, hr, hg, hb⟩ := quarters_append 0b01 dr dg db
    exact (decodeChunk_diff tag rest).trans (by rw [hr, hg, hb])
  | luma dg drDg dbDg => simpa [encode] using decodeChunk_luma (tag_append 0b10 dg) (drDg ++ dbDg) rest
  | run length =>
    obtain ⟨hFE, hFF⟩ := run_not_superTag wf
    simpa [encode] using decodeChunk_run (tag_append 0b11 length) hFE hFF rest
  | rgb r g b => exact decodeChunk_rgb r g b rest
  | rgba r g b a => exact decodeChunk_rgba r g b a rest
  | hdr => exact nomatch chunk

/-- What the chunk decoder gives is well formed: the runs it does not give are the 8-bit tags (R76). -/
theorem decodeChunk_wellFormed {bytes rest : List Byte} {i : Instr} (h : decodeChunk bytes = .ok (i, rest)) :
    i.wellFormed = true := by
  unfold decodeChunk at h
  repeat' split at h
  all_goals cases h
  any_goals rfl
  rename_i b0 hFE hFF h0 h1 h2
  obtain ⟨-, -, -, run, -⟩ := byte_of_fields b0
  exact (run h0 h1 h2).2 hFE hFF

/-! ### The statements -/

/-- Settles O21: the header's layout is read back field by field, and each chunk's tag selects its own kind. -/
theorem decodingUndoesEncoding : Obligations.DecodingUndoesEncoding := by
  intro i rest wf
  cases hi : i.isHeader with
  | true =>
    cases i with
    | hdr w h c cs => exact decodeHeader_encode w h c cs rest
    | _ => cases hi
  | false => simpa [decodeAs, hi] using decodeChunk_encode hi wf rest

/-- Settles O23: the decoder is a left inverse of the encoder, and what it gives is well formed. -/
theorem encodingIsInjective : Obligations.EncodingIsInjective := by
  refine ⟨fun i j restI restJ hi hj wfi wfj h => ?_, fun length bytes rest long h => ?_⟩
  · have same : Except.ok (i, restI) = (.ok (j, restJ) : Except DecodeError _) := by
      rw [← decodeChunk_encode hi wfi restI, h, decodeChunk_encode hj wfj restJ]
    cases same
    exact ⟨rfl, rfl⟩
  · have legal : length.toNat ≤ 61 := of_decide_eq_true (decodeChunk_wellFormed h)
    omega

/-- Settles O20: the range of the first byte is its tag, and each slice is the byte divided by its place. -/
theorem firstByteSelectsTheKind : Obligations.FirstByteSelectsTheKind := by
  intro b0 b1 b2 b3 b4 rest
  refine ⟨fun hi => ?index, fun lo hi => ?diff, fun lo hi => ?luma, fun lo hi => ?run, ?rgb, ?rgba⟩
  case index =>
    have tag : b0.extractLsb' 6 2 = (0b00 : BitVec 2) := (tag_eq_iff _ _).2 ⟨Nat.zero_le _, Nat.lt_succ_of_le hi⟩
    simpa [byteSlice_eq] using decodeChunk_index tag rest
  case diff =>
    have tag : b0.extractLsb' 6 2 = (0b01 : BitVec 2) := (tag_eq_iff _ _).2 ⟨lo, Nat.lt_succ_of_le hi⟩
    simpa [byteSlice_eq] using decodeChunk_diff tag rest
  case luma =>
    have tag : b0.extractLsb' 6 2 = (0b10 : BitVec 2) := (tag_eq_iff _ _).2 ⟨lo, Nat.lt_succ_of_le hi⟩
    simpa [byteSlice_eq] using decodeChunk_luma tag b1 rest
  case run =>
    have tag : b0.extractLsb' 6 2 = (0b11 : BitVec 2) := (tag_eq_iff _ _).2 ⟨lo, b0.isLt⟩
    have hFE : b0 ≠ 0xFE := by rintro rfl; simp at hi
    have hFF : b0 ≠ 0xFF := by rintro rfl; simp at hi
    simpa [byteSlice_eq] using decodeChunk_run tag hFE hFF rest
  case rgb => rintro rfl; exact decodeChunk_rgb b1 b2 b3 rest
  case rgba => rintro rfl; exact decodeChunk_rgba b1 b2 b3 b4 rest

end Sys2Proof
end

section
/-! PROOFS. The statements of spec/40_bit_source.md: FetchByte, ReadBits, Checkpoint and Restore (R101 to R105), the
byte boundary at which every step ends (R108), and the bit source against the byte map (R109). -/

namespace Sys2Proof.Machine

/-! ### FetchByte and ReadBits from a given byte (R101, R102) -/

/-- What is pending starts with the byte at `in_count`. -/
theorem pendingBytes_of_lt {s : State} (h : s.inCount.toNat < s.env.input.length) :
    pendingBytes s = s.env.input[s.inCount.toNat] :: s.env.input.drop (s.inCount.toNat + 1) :=
  List.drop_eq_getElem_cons h

theorem pendingBytes_of_getElem? {s : State} {b : Byte} (h : s.env.input[s.inCount.toNat]? = some b) :
    ∃ rest, pendingBytes s = b :: rest := by
  obtain ⟨hlt, rfl⟩ := List.getElem?_eq_some_iff.1 h
  exact ⟨_, pendingBytes_of_lt hlt⟩

theorem pendingBytes_of_getElem?_none {s : State} (h : s.env.input[s.inCount.toNat]? = none) : pendingBytes s = [] :=
  (pendingBytes_eq_nil_iff s).2 (List.getElem?_eq_none_iff.1 h)

/-- With no byte left and the end signalled, what needs a byte raises (R101). -/
theorem outOfBytes_eos {α : Type} {s : State} (h : s.env.inEos = true) :
    (outOfBytes s : Ret α) = .raised (raiseError .eoi s) := if_pos h

theorem byteBits_low (v : Byte) (n : Nat) : byteBits v 0 n = v.toNat % 2 ^ n := by
  rw [byteBits, Nat.pow_zero, Nat.div_one]

theorem byteBits_high (v : Byte) {n : Nat} (h : n ≤ 8) : byteBits v (8 - n) n = v.toNat / 2 ^ (8 - n) := by
  apply Nat.mod_eq_of_lt
  rw [Nat.div_lt_iff_lt_mul (Nat.two_pow_pos _), ← Nat.pow_add, Nat.add_sub_cancel' h]
  exact v.isLt

/-! ### Every step ends at a byte boundary (R42, R108) -/

theorem acceptHeader_bsCnt (w h : Word32) (s : State) : (acceptHeader w h s).bsCnt = s.bsCnt := by
  by_cases hm : s.env.maxPixels < pixelCount w h
  · rw [acceptHeader_over hm]; rfl
  · rw [acceptHeader_within hm]

/-- The block's step leaves no bit unread: it waits where it began, or every byte it has taken is used up. -/
theorem BlockStep.bsCnt {s t : State} (hc : s.bsCnt = 0) (h : BlockStep s t) : t.bsCnt = 0 := by
  cases h with
  | quiet => exact hc
  | waits => exact hc
  | chunk i rest _ _ decodes _ runs =>
    obtain ⟨-, -, -, -, -, -, -, -, hcnt, -⟩ := (exec_chunk_cases (decodeChunk_isHeader decodes) runs).keeps
    exact hcnt
  | chunkShort u _ _ _ aligned => exact aligned
  | header w h c cs => exact acceptHeader_bsCnt w h _
  | headerShort u _ _ _ aligned => exact aligned
  | headerBad u k _ _ aligned => exact aligned

theorem blockStep_completes {s : State} (wf : Memory.wf s.env.input = true) (hc : s.bsCnt = 0) :
    ∃ t, blockStep s = .next t ∧ t.bsCnt = 0 := by
  obtain ⟨t, ht, hcases⟩ := blockStep_cases wf hc
  exact ⟨t, ht, hcases.bsCnt hc⟩

/-- Under a control sample the step is a reset, a start, or the block's own. -/
theorem controlStep_completes (c : Ctl) {s : State} (wf : Memory.wf s.env.input = true) (hc : s.bsCnt = 0) :
    ∃ t, controlStep c s = .next t ∧ t.bsCnt = 0 := by
  rcases controlStep_cases c s with ⟨-, hr⟩ | ⟨-, -, -, hs⟩ | ⟨-, -, hb⟩
  · exact ⟨_, hr, rfl⟩
  · exact ⟨_, hs, rfl⟩
  · rw [hb]
    exact blockStep_completes wf hc

theorem step_completes {s : State} (wf : Memory.wf s.env.input = true) (hc : s.bsCnt = 0) :
    ∃ t, step s = .next t ∧ t.bsCnt = 0 := by
  cases hctl : s.env.ctl with
  | nil =>
    rw [step_no_control hctl]
    exact blockStep_completes wf hc
  | cons c rest =>
    rw [step_control hctl]
    exact controlStep_completes c (s := setCtl rest s) wf hc

theorem step_ne_fault {s : State} (f : Fault) (wf : Memory.wf s.env.input = true) (hc : s.bsCnt = 0) :
    step s ≠ .fault f := by
  obtain ⟨t, ht, -⟩ := step_completes wf hc
  simp [ht]

/-! ### The bytes of a decoded chunk (R109, R152) -/

/-- A decoded chunk's bytes are its encoding: in each of the layouts the tag and the fields join to the byte they
were cut from (R71, R81). -/
theorem encode_of_decodeChunk {bytes rest : List Byte} {i : Instr} (h : decodeChunk bytes = .ok (i, rest)) :
    bytes = encode i ++ rest := by
  unfold decodeChunk at h
  split at h
  · cases h
  next b0 tail =>
  obtain ⟨index, diff, luma, run, -⟩ := byte_of_fields b0
  split at h
  next rgb =>
    split at h <;> cases h
    rw [rgb]; rfl
  split at h
  next rgba =>
    split at h <;> cases h
    rw [rgba]; rfl
  split at h
  next tag => cases h; exact congrArg (· :: rest) (index tag)
  next not0 =>
  split at h
  next tag => cases h; exact congrArg (· :: rest) (diff tag)
  next not1 =>
  split at h
  next tag =>
    split at h <;> cases h
    next b1 =>
    obtain ⟨-, -, -, -, halves⟩ := byte_of_fields b1
    exact congrArg₂ (· :: · :: rest) (luma tag) halves
  next not2 => cases h; exact congrArg (· :: rest) (run not0 not1 not2).1

/-- What is left after a chunk's bytes is what the decoder leaves. -/
theorem pendingBytes_afterFetch {i : Instr} {s : State} {rest : List Byte} (wf : Memory.wf s.env.input = true)
    (h : pendingBytes s = encode i ++ rest) : pendingBytes (afterFetch i s) = rest := by
  have moved : (afterFetch i s).inCount = (tookAll (encode i) s).inCount := by
    rw [tookAll_inCount, encode_length, afterFetch_inCount]
  rw [← pendingBytes_tookAll wf h, pendingBytes, pendingBytes, moved, tookAll_env, afterFetch_env]

theorem fetchChunk_whole {s : State} {i : Instr} {rest : List Byte} (wf : Memory.wf s.env.input = true)
    (hc : s.bsCnt = 0) (hd : decodeChunk (pendingBytes s) = .ok (i, rest)) :
    fetchChunk s = .ok i (afterFetch i s) := by
  have hf := fetchChunk_cases wf hc
  generalize fetchChunk s = r at hf ⊢
  cases hf with
  | whole j rest' hd' =>
    cases hd.symm.trans hd'
    rfl
  | short t hd' => cases hd.symm.trans hd'

/-- Where the bytes end inside a chunk, all of them are taken (R151). -/
theorem fetchChunk_short {s : State} {e : DecodeError} (wf : Memory.wf s.env.input = true) (hc : s.bsCnt = 0)
    (hd : decodeChunk (pendingBytes s) = .error e) :
    ∃ t, fetchChunk s = outOfBytes t ∧ FetchOnly s t ∧ t.bsCnt = 0 ∧
      t.inCount = s.inCount + BitVec.ofNat 64 (pendingBytes s).length := by
  have hf := fetchChunk_cases wf hc
  generalize fetchChunk s = r at hf ⊢
  cases hf with
  | whole i rest hd' => cases hd.symm.trans hd'
  | short t _ only aligned taken => exact ⟨t, rfl, only, aligned, taken⟩

/-- All that is pending taken, `in_count` is the stream's length, or where it was beyond it. -/
theorem inCount_all_taken {s t : State} (wf : Memory.wf s.env.input = true)
    (taken : t.inCount = s.inCount + BitVec.ofNat 64 (pendingBytes s).length) :
    t.inCount.toNat = max s.env.input.length s.inCount.toNat := by
  rw [taken_toNat wf (Nat.le_refl _) taken, pendingBytes, List.length_drop]
  omega

/-! ### The statements -/

/-- Settles O24: the ends of a chunk's fetch are those of the byte map. -/
theorem bitSourceDecodesAsTheByteMap : Obligations.BitSourceDecodesAsTheByteMap := by
  refine fun s wf hc => ⟨fun i rest hd => ?_, fun e hd heos => ?_⟩
  · exact ⟨fetchChunk_whole wf hc hd, pendingBytes_afterFetch wf (encode_of_decodeChunk hd)⟩
  · obtain ⟨t, ht, only, aligned, taken⟩ := fetchChunk_short wf hc hd
    have hraise : fetchChunk s = .raised (raiseError .eoi t) := by rw [ht, outOfBytes_eos (by rw [only.env, heos])]
    exact ⟨_, hraise, rfl, rfl, aligned, inCount_all_taken wf taken⟩

/-- Settles O12: every case of a block step and of a control sample ends with no bit held. -/
theorem stepsCompleteAndLeaveNoBitUnread : Obligations.StepsCompleteAndLeaveNoBitUnread :=
  fun _ => step_completes

/-- Settles O7: the two ends of a fetch whose host answers. -/
theorem fetchByteTakesTheNextByte : Obligations.FetchByteTakesTheNextByte := by
  refine fun s => ⟨fun h => fetchByte_pending (pendingBytes_of_lt h), fun h heos => ?_⟩
  rw [fetchByte_ended ((pendingBytes_eq_nil_iff s).2 h), if_pos heos]
  rfl

/-- Settles O8: the read is within the held bits, or goes on into the next byte, or finds none. -/
theorem readBitsFollowsItsTwoBranches : Obligations.ReadBitsFollowsItsTwoBranches := by
  refine fun n s h1 h8 => ⟨readBits_held h1, fun hk b hb => ?_, fun hk hnone heos => ?_⟩
  · obtain ⟨rest, hp⟩ := pendingBytes_of_getElem? hb
    have hread := readBits_across (j := n - s.bsCnt.val) (by omega) (by omega) hp
    rwa [Nat.add_sub_cancel' (Nat.le_of_lt hk), byteBits_low, byteBits_high b (by omega)] at hread
  · rw [readBits_outOfBytes h8 hk (pendingBytes_of_getElem?_none hnone), outOfBytes_eos heos]
    rfl

/-- Settles O10: the width is checked first, and a step from a byte boundary completes. -/
theorem readBitsOutsideOneToEightFaults : Obligations.ReadBitsOutsideOneToEightFaults :=
  ⟨fun _ _ outside => if_pos outside, fun _ => step_ne_fault .readBitsWidth⟩

/-- Settles O11: `Restore` compares `in_count` with its value at the checkpoint, and a step from a byte boundary
completes. -/
theorem restoreBringsBackTheCheckpoint : Obligations.RestoreBringsBackTheCheckpoint :=
  ⟨fun _ _ => ⟨rfl, fun same => if_pos same, fun fetched => if_neg fetched⟩,
    fun _ => step_ne_fault .restoreAcrossFetch⟩

end Sys2Proof.Machine
end

section
/-! PROOFS. The statements of spec/41_header.md: HDR on its operands (R121, R125 to R127), the HEADER step on a legal
header (R127, R128) and on one that fails (R130), and two decodes whose headers differ in the channel count and the
colorspace (R129). -/

namespace Sys2Proof.Machine

/-! ### Legal channel and colorspace bytes (R125, R126) -/

theorem channelsOk_of_legal {c : Byte} (h : c = 3 ∨ c = 4) : Instr.channelsOk c = true := decide_eq_true h

theorem channelsOk_of_illegal {c : Byte} (h3 : c ≠ 3) (h4 : c ≠ 4) : Instr.channelsOk c = false :=
  decide_eq_false (not_or.2 ⟨h3, h4⟩)

theorem colorspaceOk_of_legal {cs : Byte} (h : cs = 0 ∨ cs = 1) : Instr.colorspaceOk cs = true := decide_eq_true h

theorem colorspaceOk_of_illegal {cs : Byte} (h0 : cs ≠ 0) (h1 : cs ≠ 1) : Instr.colorspaceOk cs = false :=
  decide_eq_false (not_or.2 ⟨h0, h1⟩)

/-! ### HDR on its operands (R121) -/

theorem exec_hdr_badChannels (w h : Word32) {c : Byte} (cs : Byte) (s : State) (hc : Instr.channelsOk c = false) :
    exec (.hdr w h c cs) s =
      .next (raiseError .fmt { s with hdrWidth := w, hdrHeight := h, hdrChannels := c }) := by
  simp only [exec, execHdr, setChannels, hc]
  rfl

theorem exec_hdr_badColorspace (w h : Word32) {c cs : Byte} (s : State) (hc : Instr.channelsOk c = true)
    (hcs : Instr.colorspaceOk cs = false) :
    exec (.hdr w h c cs) s = .next (raiseError .fmt
      { s with hdrWidth := w, hdrHeight := h, hdrChannels := c, hdrColorspace := cs }) := by
  simp only [exec, execHdr, setChannels, hc, if_true, Ret.ok_andThen, setColorspace, hcs]
  rfl

theorem exec_hdr_legal (w h : Word32) {c cs : Byte} (s : State) (hc : Instr.channelsOk c = true)
    (hcs : Instr.colorspaceOk cs = true) :
    exec (.hdr w h c cs) s = .next (acceptHeader w h
      { s with hdrWidth := w, hdrHeight := h, hdrChannels := c, hdrColorspace := cs }) := by
  simp only [exec, execHdr, setChannels, hc, if_true, Ret.ok_andThen, setColorspace, hcs]
  rfl

/-! ### Acceptance (R127) -/

/-- The elements that acceptance does not write, whether it raises or not. -/
theorem acceptHeader_keeps (w h : Word32) (s : State) :
    (acceptHeader w h s).hdrWidth = s.hdrWidth ∧ (acceptHeader w h s).hdrHeight = s.hdrHeight ∧
    (acceptHeader w h s).hdrChannels = s.hdrChannels ∧ (acceptHeader w h s).hdrColorspace = s.hdrColorspace ∧
    (acceptHeader w h s).inCount = s.inCount ∧ (acceptHeader w h s).env = s.env := by
  by_cases hm : s.env.maxPixels < pixelCount w h
  · rw [acceptHeader_over hm]
    exact ⟨rfl, rfl, rfl, rfl, rfl, rfl⟩
  · rw [acceptHeader_within hm]
    exact ⟨rfl, rfl, rfl, rfl, rfl, rfl⟩

/-- Acceptance ends the HEADER phase. -/
theorem acceptHeader_phase_ne_header (w h : Word32) (s : State) : (acceptHeader w h s).phase ≠ .header := by
  by_cases hm : s.env.maxPixels < pixelCount w h
  · rw [acceptHeader_over hm]
    simp
  · rw [acceptHeader_within hm]
    dsimp only
    split <;> decide

theorem maxPixels_lt_pixelCount_iff (m : Word64) (w h : Word32) :
    m < pixelCount w h ↔ m.toNat < w.toNat * h.toNat := by
  rw [BitVec.lt_def, pixelCount_toNat]

theorem pixelCount_eq_zero_iff_toNat (w h : Word32) : pixelCount w h = 0 ↔ w.toNat * h.toNat = 0 := by
  rw [← BitVec.toNat_inj, pixelCount_toNat]
  rfl

/-! ### The HEADER step on a legal header (R127) -/

section
variable {s : State} {w h : Word32} {c cs : Byte} {rest : List Byte}

/-- The bytes of a header that its checks look at (R59). -/
theorem headerLayout {bytes : List Byte} (hb : bytes = encode (.hdr w h c cs) ++ rest) :
    14 ≤ bytes.length ∧ bytes.take 4 = magicBytes ∧ bytes[12]? = some c ∧ bytes[13]? = some cs := by
  subst hb
  exact ⟨by simp [Instr.byteLength], rfl, rfl, rfl⟩

/-- Fourteen bytes that pass every check are taken as they were encoded (R131). -/
theorem fetchHeader_legal (wf : Memory.wf s.env.input = true) (hc : s.bsCnt = 0)
    (bytes : pendingBytes s = encode (.hdr w h c cs) ++ rest) (hch : Instr.channelsOk c = true)
    (hcs : Instr.colorspaceOk cs = true) : fetchHeader s = .ok (.hdr w h c cs) (headerIn w h c cs s) := by
  obtain ⟨length, magic, byte12, byte13⟩ := headerLayout bytes
  have hf := fetchHeader_cases wf hc
  generalize fetchHeader s = r at hf ⊢
  cases hf with
  | whole w' h' c' cs' rest' bytes' =>
    have same := decodeHeader_encode w h c cs rest
    rw [← bytes, bytes', decodeHeader_encode] at same
    cases same
    rfl
  | short t short => exact absurd length (Nat.not_le.2 short)
  | magic t _ bad => exact absurd magic bad
  | channels t c' _ byte bad =>
    obtain rfl : c = c' := Option.some.inj (byte12.symm.trans byte)
    simp [hch] at bad
  | colorspace t c' cs' _ _ _ byte bad =>
    obtain rfl : cs = cs' := Option.some.inj (byte13.symm.trans byte)
    simp [hcs] at bad

theorem step_header_legal (hctl : s.env.ctl = []) (hp : s.phase = .header) (wf : Memory.wf s.env.input = true)
    (hc : s.bsCnt = 0) (bytes : pendingBytes s = encode (.hdr w h c cs) ++ rest)
    (hch : Instr.channelsOk c = true) (hcs : Instr.colorspaceOk cs = true) :
    step s = .next (acceptHeader w h (headerIn w h c cs (resumed s))) := by
  rw [step_no_control hctl, blockStep_header hp, fetchHeader_legal (s := resumed s) wf hc bytes hch hcs, Ret.into,
    exec_headerIn _ hch hcs]

/-- The bytes not taken are a matter of the stream and the position in it. -/
theorem pendingBytes_congr {s t : State} (hin : t.inCount = s.inCount) (henv : t.env = s.env) :
    pendingBytes t = pendingBytes s := by
  rw [pendingBytes, pendingBytes, hin, henv]

theorem pendingBytes_acceptHeader (wf : Memory.wf s.env.input = true)
    (bytes : pendingBytes s = encode (.hdr w h c cs) ++ rest) :
    pendingBytes (acceptHeader w h (headerIn w h c cs s)) = rest := by
  obtain ⟨-, -, -, -, hin, henv⟩ := acceptHeader_keeps w h (headerIn w h c cs s)
  rw [pendingBytes_congr hin henv]
  exact pendingBytes_afterFetch wf bytes

end

/-! ### The HEADER step on a header that fails (R130) -/

/-- The error that reading a header ends in, if it does (R130's table): the first of its checks that fails. -/
def headerFailure (bytes : List Byte) : Option ErrCode :=
  if bytes.length < 4 then some .eoi
  else if bytes.take 4 ≠ magicBytes then some .fmt
  else if (bytes[12]?).any (!Instr.channelsOk ·) then some .fmt
  else if bytes.length < 14 then some .eoi
  else if (bytes[13]?).any (!Instr.colorspaceOk ·) then some .fmt
  else none

theorem headerFailure_legal {bytes rest : List Byte} {w h : Word32} {c cs : Byte}
    (hb : bytes = encode (.hdr w h c cs) ++ rest) (hch : Instr.channelsOk c = true)
    (hcs : Instr.colorspaceOk cs = true) : headerFailure bytes = none := by
  obtain ⟨length, magic, byte12, byte13⟩ := headerLayout hb
  rw [headerFailure, if_neg (by omega), if_neg (not_not.2 magic), byte12, byte13, if_neg (by simp [hch]),
    if_neg (by omega), if_neg (by simp [hcs])]

/-- A header's fetch raises the error of the table. -/
theorem HeaderFetch.raises {s : State} {r : Ret Instr} {e : ErrCode} (h : HeaderFetch s r)
    (heos : s.env.inEos = true) (he : headerFailure (pendingBytes s) = some e) :
    ∃ u, r = .raised (raiseError e u) := by
  cases h with
  | whole w h c cs rest bytes hch hcs =>
    rw [headerFailure_legal bytes hch hcs] at he
    cases he
  | short t length magic channels only =>
    have heoi : headerFailure (pendingBytes s) = some .eoi := by
      have legal : ¬ ((pendingBytes s)[12]?).any (!Instr.channelsOk ·) = true := by
        cases byte : (pendingBytes s)[12]? with
        | none => simp
        | some c => simp [channels c byte]
      by_cases h4 : (pendingBytes s).length < 4
      · exact if_pos h4
      · simp only [headerFailure, if_neg h4, if_neg (not_not.2 (magic (Nat.not_lt.1 h4))), if_neg legal, if_pos length]
    obtain rfl : ErrCode.eoi = e := Option.some.inj (heoi.symm.trans he)
    exact ⟨t, outOfBytes_eos (by rw [only.env, heos])⟩
  | magic t length bad =>
    rw [headerFailure, if_neg (by omega), if_pos bad] at he
    cases he
    exact ⟨t, rfl⟩
  | channels t c good byte bad =>
    obtain ⟨hlt, -⟩ := List.getElem?_eq_some_iff.1 byte
    rw [headerFailure, if_neg (by omega), if_neg (not_not.2 good), if_pos (by simp [byte, bad])] at he
    cases he
    exact ⟨t, rfl⟩
  | colorspace t c cs good byte legal byte' bad =>
    obtain ⟨hlt, -⟩ := List.getElem?_eq_some_iff.1 byte'
    rw [headerFailure, if_neg (by omega), if_neg (not_not.2 good), if_neg (by simp [byte, legal]),
      if_neg (by omega), if_pos (by simp [byte', bad])] at he
    cases he
    exact ⟨t, rfl⟩

/-- A HEADER step at offset 0 fails with the error and the bytes of the table. -/
theorem step_header_fails {s t : State} {e : ErrCode} {k : Nat} (hctl : s.env.ctl = []) (heos : s.env.inEos = true)
    (hp : s.phase = .header) (hc : s.bsCnt = 0) (hin : s.inCount = 0) (wf : Memory.wf s.env.input = true)
    (hs : step s = .next t) (he : headerFailure s.env.input = some e ∧ headerTakes s.env.input = k) :
    failedAt e k t := by
  obtain ⟨he, hk⟩ := he
  have hb : pendingBytes s = s.env.input := by simp [pendingBytes, hin]
  obtain ⟨u, hu⟩ := (fetchHeader_cases (s := resumed s) wf hc).raises heos (by rw [pendingBytes_resumed, hb, he])
  rw [step_no_control hctl, blockStep_header hp, hu] at hs
  cases hs
  have taken : stepTakes s = (raiseError e u).inCount.toNat := by
    simp [stepTakes, hp, hu, Ret.taken, hin]
  exact ⟨rfl, rfl, by rw [← taken, stepTakes_header hp wf hc, hb, hk]⟩

/-! ### The rows of R130's table -/

section
variable {bytes : List Byte}

theorem headerFails_in_magic (h : bytes.length < 4) :
    headerFailure bytes = some .eoi ∧ headerTakes bytes = bytes.length :=
  ⟨if_pos h, if_pos h⟩

theorem headerFails_by_magic (h : 4 ≤ bytes.length) (bad : bytes.take 4 ≠ magicBytes) :
    headerFailure bytes = some .fmt ∧ headerTakes bytes = 4 := by
  have h4 : ¬ bytes.length < 4 := by omega
  exact ⟨by rw [headerFailure, if_neg h4, if_pos bad], by rw [headerTakes, if_neg h4, if_pos bad]⟩

/-- The right magic is four bytes. -/
theorem not_length_lt_of_magic (good : bytes.take 4 = magicBytes) : ¬ bytes.length < 4 := by
  have := congrArg List.length good
  rw [List.length_take, show magicBytes.length = 4 from rfl] at this
  omega

theorem headerFails_before_channels (good : bytes.take 4 = magicBytes) (h : bytes.length < 13) :
    headerFailure bytes = some .eoi ∧ headerTakes bytes = bytes.length := by
  have none12 : bytes[12]? = none := List.getElem?_eq_none (by omega)
  have short : bytes.length < 14 := by omega
  simp [headerFailure, headerTakes, not_length_lt_of_magic good, good, none12, short, Nat.le_of_lt short]

theorem headerFails_by_channels {c : Byte} (good : bytes.take 4 = magicBytes) (byte : bytes[12]? = some c)
    (bad : Instr.channelsOk c = false) : headerFailure bytes = some .fmt ∧ headerTakes bytes = 13 := by
  simp [headerFailure, headerTakes, not_length_lt_of_magic good, good, byte, bad]

theorem headerFails_before_colorspace {c : Byte} (good : bytes.take 4 = magicBytes) (byte : bytes[12]? = some c)
    (legal : Instr.channelsOk c = true) (h : bytes.length = 13) :
    headerFailure bytes = some .eoi ∧ headerTakes bytes = 13 := by
  have short : bytes.length < 14 := by omega
  have taken : min 14 bytes.length = 13 := by omega
  simp [headerFailure, headerTakes, not_length_lt_of_magic good, good, byte, legal, short, taken]

theorem headerFails_by_colorspace {c cs : Byte} (good : bytes.take 4 = magicBytes) (byte : bytes[12]? = some c)
    (legal : Instr.channelsOk c = true) (byte' : bytes[13]? = some cs) (bad : Instr.colorspaceOk cs = false) :
    headerFailure bytes = some .fmt ∧ headerTakes bytes = 14 := by
  obtain ⟨hlt, -⟩ := List.getElem?_eq_some_iff.1 byte'
  have whole : 14 ≤ bytes.length := hlt
  simp [headerFailure, headerTakes, not_length_lt_of_magic good, good, byte, legal, byte', bad, whole]

end

/-! ### Two decodes of the same chunks (R129) -/

/-- `s` with the elements of `u` that no chunk's effect reads: the two informative header registers, the bytes
that the bit source and its checkpoint hold between steps, and the stream. -/
def unreadFrom (u s : State) : State :=
  { s with
    hdrChannels := u.hdrChannels, hdrColorspace := u.hdrColorspace, bsBuf := u.bsBuf, ckBuf := u.ckBuf,
    ckCnt := u.ckCnt, env := { s.env with input := u.env.input } }

theorem produce_unreadFrom (u : State) (p : Pixel) (w : Bool) (s : State) :
    produce p w (unreadFrom u s) = unreadFrom u (produce p w s) := by
  cases w <;> rfl

theorem emitMany_unreadFrom (u : State) (m : Nat) (p : Pixel) (s : State) :
    emitMany m p (unreadFrom u s) = unreadFrom u (emitMany m p s) := by
  induction m generalizing s with
  | zero => rfl
  | succ m ih => exact ih (emit p s)

theorem applyRun_unreadFrom (u : State) (length : BitVec 6) (s : State) :
    applyRun length (unreadFrom u s) = unreadFrom u (applyRun length s) :=
  congrArg (writeSlot (pixelHash s.prev) s.prev) (emitMany_unreadFrom u (runEmits length s) s.prev s)

theorem checkDone_unreadFrom (u s : State) : checkDone (unreadFrom u s) = unreadFrom u (checkDone s) := by
  by_cases h : s.pixelsWritten = s.totalPixels
  · rw [checkDone, checkDone, if_pos h]
    exact if_pos h
  · rw [checkDone, checkDone, if_neg h]
    exact if_neg h

theorem acceptHeader_unreadFrom (u : State) (w h : Word32) (s : State) :
    acceptHeader w h (unreadFrom u s) = unreadFrom u (acceptHeader w h s) := by
  by_cases hm : s.env.maxPixels < pixelCount w h
  · rw [acceptHeader_over hm]
    exact acceptHeader_over (s := unreadFrom u s) hm
  · rw [acceptHeader_within hm]
    exact acceptHeader_within (s := unreadFrom u s) hm

/-- From states that differ in those elements alone, acceptance leads to two that do. -/
theorem acceptHeader_only {s t : State} (w h : Word32) (only : t = unreadFrom t s) :
    acceptHeader w h t = unreadFrom (acceptHeader w h t) (acceptHeader w h s) := by
  rw [only, acceptHeader_unreadFrom]
  rfl

theorem chunkStep_unreadFrom {u s t : State} {c : Chunk} {p : Pixel} {w : Bool} (h : chunkStep c p w s = .next t) :
    chunkStep c p w (unreadFrom u s) = .next (unreadFrom u t) := by
  cases h
  refine congrArg Host.Outcome.next ?_
  rw [← checkDone_unreadFrom, ← produce_unreadFrom]
  rfl

/-- A chunk's effect neither reads nor writes those elements (R129). -/
theorem exec_unreadFrom {u s t : State} {i : Instr} (hi : i.isHeader = false) (h : exec i s = .next t) :
    exec i (unreadFrom u s) = .next (unreadFrom u t) := by
  cases i with
  | index idx => exact chunkStep_unreadFrom h
  | diff dr dg db => exact chunkStep_unreadFrom h
  | luma dg drDg dbDg => exact chunkStep_unreadFrom h
  | rgb r g b => exact chunkStep_unreadFrom h
  | rgba r g b a => exact chunkStep_unreadFrom h
  | run length =>
    cases h
    refine congrArg Host.Outcome.next ?_
    rw [← checkDone_unreadFrom, ← applyRun_unreadFrom]
    rfl
  | hdr w h c cs => cases hi

/-- Two step boundaries after the header, for a host that serves, from which the same decode goes on: they differ
in what no chunk reads alone, and the same bytes are left. -/
structure SameDecode (s t : State) : Prop where
  only : t = unreadFrom t s
  bytes : pendingBytes t = pendingBytes s
  serves : hostServes s
  phase : s.phase ≠ .header
  aligned : s.bsCnt = 0
  wf : Memory.wf s.env.input = true
  wf' : Memory.wf t.env.input = true

section
variable {s t u v : State}

theorem SameDecode.phase_eq (h : SameDecode s t) : t.phase = s.phase := by rw [h.only]; rfl
theorem SameDecode.inCount_eq (h : SameDecode s t) : t.inCount = s.inCount := by rw [h.only]; rfl
theorem SameDecode.aligned' (h : SameDecode s t) : t.bsCnt = 0 := by rw [h.only]; exact h.aligned
theorem SameDecode.serves' (h : SameDecode s t) : hostServes t := by rw [h.only]; exact h.serves

theorem SameDecode.raise (h : SameDecode s t) (e : ErrCode) :
    SameDecode (raiseError e s) (raiseError e t) where
  only := by rw [h.only]; rfl
  bytes := h.bytes
  serves := h.serves
  phase := by simp
  aligned := h.aligned
  wf := h.wf
  wf' := h.wf'

/-- Fetches that take the same bytes lead to states alike. -/
theorem SameDecode.fetched (h : SameDecode s t) (hu : FetchOnly (resumed s) u) (hv : FetchOnly (resumed t) v)
    (cu : u.bsCnt = 0) (cv : v.bsCnt = 0) (taken : v.inCount = u.inCount)
    (bytes : pendingBytes v = pendingBytes u) : SameDecode u v where
  only := by
    rw [hu, hv, cu, cv, taken, h.only]
    rfl
  bytes := bytes
  serves := by
    rw [hostServes, hu.env]
    exact h.serves
  phase := by
    rw [hu]
    exact h.phase
  aligned := cu
  wf := by
    rw [hu.env]
    exact h.wf
  wf' := by
    rw [hv.env]
    exact h.wf'

theorem SameDecode.exec_next {i : Instr} (h : SameDecode s t) (hi : i.isHeader = false) (hs : exec i s = .next u) :
    ∃ v, exec i t = .next v ∧ SameDecode u v := by
  have eff := exec_chunk_cases hi hs
  obtain ⟨-, -, -, -, -, -, -, -, hcnt, -, -, hin, henv⟩ := eff.keeps
  refine ⟨unreadFrom t u, by rw [h.only]; exact exec_unreadFrom hi hs, rfl, ?_, ?_, ?_, ?_, ?_, h.wf'⟩
  · calc pendingBytes (unreadFrom t u) = pendingBytes t := by
          rw [pendingBytes, pendingBytes, h.inCount_eq, ← hin]; rfl
      _ = pendingBytes s := h.bytes
      _ = pendingBytes u := (pendingBytes_congr hin henv).symm
  · rw [hostServes, henv]
    exact h.serves
  · rcases eff.phase with hp | hp <;> rw [hp]
    · exact h.phase
    · decide
  · rw [hcnt, h.aligned]
  · rw [henv, h.wf]

end

/-- A step whose host serves runs the chunk that comes next. -/
theorem step_decoding_whole {s : State} {i : Instr} {rest : List Byte} (hs : hostServes s) (hp : s.phase = .decoding)
    (wf : Memory.wf s.env.input = true) (hc : s.bsCnt = 0) (hd : decodeChunk (pendingBytes s) = .ok (i, rest)) :
    step s = exec i (afterFetch i (resumed s)) := by
  obtain ⟨hctl, -, hready⟩ := hs
  rw [step_no_control hctl, blockStep_decoding hp, fetchChunk_whole (s := resumed s) wf hc hd]
  exact if_pos hready

/-- A step whose host serves raises where the bytes end inside a chunk, all of them taken (R151). -/
theorem step_decoding_short {s : State} {e : DecodeError} (hs : hostServes s) (hp : s.phase = .decoding)
    (wf : Memory.wf s.env.input = true) (hc : s.bsCnt = 0) (hd : decodeChunk (pendingBytes s) = .error e) :
    ∃ u, step s = .next (raiseError .eoi u) ∧ FetchOnly (resumed s) u ∧ u.bsCnt = 0 ∧ pendingBytes u = [] ∧
      u.inCount = s.inCount + BitVec.ofNat 64 (pendingBytes s).length := by
  obtain ⟨hctl, heos, -⟩ := hs
  obtain ⟨u, hu, only, aligned, taken⟩ := fetchChunk_short (s := resumed s) wf hc hd
  refine ⟨u, ?_, only, aligned, ?_, taken⟩
  · have heos' : u.env.inEos = true := by rw [only.env]; exact heos
    rw [step_no_control hctl, blockStep_decoding hp, hu, outOfBytes_into, if_pos heos']
  · rw [pendingBytes_eq_nil_iff, inCount_all_taken (s := resumed s) wf taken, only.env]
    exact Nat.le_max_left _ _

section
variable {s t : State}

theorem SameDecode.step_whole {i : Instr} {rest : List Byte} (h : SameDecode s t) (hp : s.phase = .decoding)
    (hd : decodeChunk (pendingBytes s) = .ok (i, rest)) :
    ∃ u v, step s = .next u ∧ step t = .next v ∧ SameDecode u v := by
  have hd' : decodeChunk (pendingBytes t) = .ok (i, rest) := by rw [h.bytes, hd]
  have left : pendingBytes (afterFetch i (resumed s)) = rest :=
    pendingBytes_afterFetch (s := resumed s) h.wf (encode_of_decodeChunk hd)
  have left' : pendingBytes (afterFetch i (resumed t)) = rest :=
    pendingBytes_afterFetch (s := resumed t) h.wf' (encode_of_decodeChunk hd')
  have fetched : SameDecode (afterFetch i (resumed s)) (afterFetch i (resumed t)) :=
    h.fetched rfl rfl rfl rfl (congrArg (· + _) h.inCount_eq) (left'.trans left.symm)
  have hi := decodeChunk_isHeader hd
  obtain ⟨u, hu⟩ := exec_chunk_next hi (afterFetch i (resumed s))
  obtain ⟨v, hv, same⟩ := fetched.exec_next hi hu
  exact ⟨u, v, (step_decoding_whole h.serves hp h.wf h.aligned hd).trans hu,
    (step_decoding_whole h.serves' (h.phase_eq.trans hp) h.wf' h.aligned' hd').trans hv, same⟩

theorem SameDecode.step_short {e : DecodeError} (h : SameDecode s t) (hp : s.phase = .decoding)
    (hd : decodeChunk (pendingBytes s) = .error e) :
    ∃ u v, step s = .next u ∧ step t = .next v ∧ SameDecode u v := by
  obtain ⟨u, hu, only, aligned, left, taken⟩ := step_decoding_short h.serves hp h.wf h.aligned hd
  obtain ⟨v, hv, only', aligned', left', taken'⟩ :=
    step_decoding_short h.serves' (h.phase_eq.trans hp) h.wf' h.aligned' (by rw [h.bytes, hd])
  have position : v.inCount = u.inCount := by rw [taken', taken, h.inCount_eq, h.bytes]
  exact ⟨_, _, hu, hv, (h.fetched only only' aligned aligned' position (left'.trans left.symm)).raise .eoi⟩

theorem SameDecode.step_quiescent (h : SameDecode s t)
    (hp : s.phase = .idle ∨ s.phase = .done ∨ s.phase = .error) :
    ∃ u v, step s = .next u ∧ step t = .next v ∧ SameDecode u v := by
  obtain ⟨hctl, -, -⟩ := h.serves
  obtain ⟨hctl', -, -⟩ := h.serves'
  refine ⟨s, t, ?_, ?_, h⟩
  · rw [step_no_control hctl, blockStep_quiescent hp]
  · rw [step_no_control hctl', blockStep_quiescent (by rwa [h.phase_eq])]

/-- The two decodes step alike. -/
theorem SameDecode.step_next (h : SameDecode s t) :
    ∃ u v, step s = .next u ∧ step t = .next v ∧ SameDecode u v := by
  cases hp : s.phase with
  | header => exact absurd hp h.phase
  | decoding =>
    cases hd : decodeChunk (pendingBytes s) with
    | ok r => exact h.step_whole hp hd
    | error e => exact h.step_short hp hd
  | idle => exact h.step_quiescent (.inl hp)
  | done => exact h.step_quiescent (.inr (.inl hp))
  | error => exact h.step_quiescent (.inr (.inr hp))

theorem SameDecode.run_next (k : Nat) (h : SameDecode s t) :
    ∃ u v, Host.Core.run Sys2Proof.core k s = .next u ∧ Host.Core.run Sys2Proof.core k t = .next v ∧
      SameDecode u v := by
  induction k generalizing s t with
  | zero => exact ⟨s, t, rfl, rfl, h⟩
  | succ k ih =>
    obtain ⟨u, v, hu, hv, same⟩ := h.step_next
    rw [run_succ k hu, run_succ k hv]
    exact ih same

end

/-! ### A whole decode after its header (R233) -/

/-- The state that the header step of a whole decode leaves. -/
def decodeAccepted (w h : Word32) (c cs : Byte) (rest : List Byte) (maxPixels : Word64) : State :=
  acceptHeader w h (headerIn w h c cs (startState (encode (.hdr w h c cs) ++ rest) maxPixels))

section
variable {w h : Word32} {c cs : Byte} {rest : List Byte}

theorem pendingBytes_startState (input : Memory) (maxPixels : Word64) :
    pendingBytes (startState input maxPixels) = input := rfl

/-- A whole decode of a legal header goes on from there for as many steps as its stream has bytes. -/
theorem decodeAll_legal (maxPixels : Word64) (wf : Memory.wf (encode (.hdr w h c cs) ++ rest) = true)
    (hch : Instr.channelsOk c = true) (hcs : Instr.colorspaceOk cs = true) :
    decodeAll (encode (.hdr w h c cs) ++ rest) maxPixels =
      Host.Core.run Sys2Proof.core (14 + rest.length) (decodeAccepted w h c cs rest maxPixels) := by
  have hl : (encode (.hdr w h c cs) ++ rest).length = 14 + rest.length := by simp [Instr.byteLength]
  rw [decodeAll, run_succ _ (step_header_legal rfl rfl wf rfl (pendingBytes_startState _ _) hch hcs), hl,
    resumed_of_held rfl]
  rfl

/-- Whether a stream is short enough does not depend on the two informative bytes. -/
theorem wf_of_other_flags {c' cs' : Byte} (wf : Memory.wf (encode (.hdr w h c cs) ++ rest) = true) :
    Memory.wf (encode (.hdr w h c' cs') ++ rest) = true := wf

theorem decodeAccepted_env (maxPixels : Word64) :
    (decodeAccepted w h c cs rest maxPixels).env = (startState (encode (.hdr w h c cs) ++ rest) maxPixels).env := by
  obtain ⟨-, -, -, -, -, henv⟩ :=
    acceptHeader_keeps w h (headerIn w h c cs (startState (encode (.hdr w h c cs) ++ rest) maxPixels))
  exact henv

theorem pendingBytes_decodeAccepted (maxPixels : Word64) (wf : Memory.wf (encode (.hdr w h c cs) ++ rest) = true) :
    pendingBytes (decodeAccepted w h c cs rest maxPixels) = rest :=
  pendingBytes_acceptHeader (s := startState _ _) wf (pendingBytes_startState _ _)

/-- After the header two decodes that differ in the two informative bytes are the same decode (R129). -/
theorem sameDecode_accepted (c' cs' : Byte) (maxPixels : Word64)
    (wf : Memory.wf (encode (.hdr w h c cs) ++ rest) = true) :
    SameDecode (decodeAccepted w h c cs rest maxPixels) (decodeAccepted w h c' cs' rest maxPixels) where
  only := acceptHeader_only w h rfl
  bytes := (pendingBytes_decodeAccepted maxPixels (wf_of_other_flags wf)).trans
    (pendingBytes_decodeAccepted maxPixels wf).symm
  serves := by
    rw [hostServes, decodeAccepted_env]
    exact ⟨rfl, rfl, rfl⟩
  phase := acceptHeader_phase_ne_header w h _
  aligned := acceptHeader_bsCnt w h _
  wf := by
    rw [decodeAccepted_env]
    exact wf
  wf' := by
    rw [decodeAccepted_env]
    exact wf_of_other_flags wf

end

/-! ### The statements -/

/-- Settles O18: after the header step the two decodes differ in what no chunk reads alone, and every step keeps
that. -/
theorem channelsAndColorspaceDoNotChangeDecoding : Obligations.ChannelsAndColorspaceDoNotChangeDecoding := by
  intro w h c cs c' cs' rest maxPixels hc hcs hc' hcs' wf
  obtain ⟨t, t', ht, ht', same⟩ := (sameDecode_accepted c' cs' maxPixels wf).run_next (14 + rest.length)
  refine ⟨t, t', ?_, ?_, ?_⟩
  · exact (decodeAll_legal maxPixels wf (channelsOk_of_legal hc) (colorspaceOk_of_legal hcs)).trans ht
  · exact (decodeAll_legal maxPixels (wf_of_other_flags wf) (channelsOk_of_legal hc')
      (colorspaceOk_of_legal hcs')).trans ht'
  · rw [same.only]
    exact ⟨rfl, rfl, rfl, rfl, rfl, rfl⟩

/-- Settles O15: the step is acceptance with the fourteen bytes taken and the fields in their registers. -/
theorem headerStepAcceptsExactlyFourteenBytes : Obligations.HeaderStepAcceptsExactlyFourteenBytes := by
  intro s w h c cs rest hctl hp haligned wf hc hcs bytes
  obtain ⟨hw, hh, hch, hcol, hin, henv⟩ := acceptHeader_keeps w h (headerIn w h c cs (resumed s))
  refine ⟨_, step_header_legal hctl hp wf haligned bytes (channelsOk_of_legal hc) (colorspaceOk_of_legal hcs),
    hin, pendingBytes_acceptHeader (s := resumed s) wf bytes, hw, hh, hch, hcol, ?_, fun above => ?_,
    fun within => ?_⟩
  · rw [acceptHeader_totalPixels, pixelCount_toNat]
  · rw [acceptHeader_over (s := headerIn w h c cs (resumed s)) ((maxPixels_lt_pixelCount_iff _ w h).2 above)]
    exact ⟨rfl, rfl⟩
  · rw [acceptHeader_within (s := headerIn w h c cs (resumed s))
      fun above => Nat.not_lt.2 within ((maxPixels_lt_pixelCount_iff _ w h).1 above)]
    exact ⟨rfl, rfl, by simp only [pixelCount_eq_zero_iff_toNat]⟩

/-- Settles O16: each row of the table is the first check that fails, and the last one is acceptance's. -/
theorem headerFailuresTakeTheTabledBytes : Obligations.HeaderFailuresTakeTheTabledBytes := by
  intro s hctl heos hp hc hin wf
  obtain ⟨t, hs, -⟩ := step_completes wf hc
  have fails {e k} := step_header_fails (e := e) (k := k) hctl heos hp hc hin wf hs
  refine ⟨t, hs, fun h => fails (headerFails_in_magic h), fun h bad => fails (headerFails_by_magic h bad),
    fun good => ⟨fun h => fails (headerFails_before_channels good h),
      fun c byte h3 h4 => fails (headerFails_by_channels good byte (channelsOk_of_illegal h3 h4)),
      fun c byte legal => ⟨fun h => fails (headerFails_before_colorspace good byte (channelsOk_of_legal legal) h),
        fun cs byte' h0 h1 => fails (headerFails_by_colorspace good byte (channelsOk_of_legal legal) byte'
          (colorspaceOk_of_illegal h0 h1))⟩⟩, ?_⟩
  intro w h c cs rest input hch hcs above
  have bytes : pendingBytes s = encode (.hdr w h c cs) ++ rest := by simp [pendingBytes, hin, input]
  rw [step_header_legal hctl hp wf hc bytes (channelsOk_of_legal hch) (colorspaceOk_of_legal hcs),
    acceptHeader_over (s := headerIn w h c cs (resumed s)) ((maxPixels_lt_pixelCount_iff _ w h).2 above)] at hs
  cases hs
  exact ⟨rfl, rfl, by simp [headerIn, hin, Instr.byteLength]⟩

/-- Settles O17: the header is accepted with the phase DONE, where a decode stays. -/
theorem zeroSizedImageIsDoneAfterTheHeader : Obligations.ZeroSizedImageIsDoneAfterTheHeader := by
  intro w h c cs rest maxPixels hc hcs zero wf
  have noPixel : pixelCount w h = 0 := (pixelCount_eq_zero w h).2 zero
  have accepted : decodeAccepted w h c cs rest maxPixels = _ :=
    acceptHeader_within (by rw [noPixel]; exact BitVec.not_lt_zero)
  refine ⟨decodeAccepted w h c cs rest maxPixels, ?_, ?_⟩
  · refine (decodeAll_legal maxPixels wf (channelsOk_of_legal hc) (colorspaceOk_of_legal hcs)).trans ?_
    rw [accepted]
    exact run_ended _ rfl (by simp [ended, noPixel])
  · rw [accepted]
    exact ⟨if_pos noPixel, rfl, rfl, rfl, noPixel⟩

/-- Settles O13, from acceptance within the limit. -/
theorem hdrAcceptsALegalHeader : Obligations.HdrAcceptsALegalHeader := by
  intro w h c cs s hc hcs within
  rw [exec_hdr_legal w h s (channelsOk_of_legal hc) (colorspaceOk_of_legal hcs), acceptHeader_within]
  · simp only [pixelCount_eq_zero]
    rfl
  · exact BitVec.not_lt.2 within

/-- Settles O14: the two checks in their order, then acceptance above the limit. -/
theorem hdrRaisesOnIllegalFields : Obligations.HdrRaisesOnIllegalFields := by
  refine fun w h c cs s => ⟨fun h3 h4 => ?_, fun hc h0 h1 => ?_, fun hc hcs above => ?_⟩
  · exact exec_hdr_badChannels w h cs s (channelsOk_of_illegal h3 h4)
  · exact exec_hdr_badColorspace w h s (channelsOk_of_legal hc) (colorspaceOk_of_illegal h0 h1)
  · rw [exec_hdr_legal w h s (channelsOk_of_legal hc) (colorspaceOk_of_legal hcs), acceptHeader_over]
    · rfl
    · exact above

end Sys2Proof.Machine
end

section
/-! PROOFS. The statements of spec/42_tag_payload.md: the encoder as a right inverse of the decoder (R152), a chunk cut
short (R151), the run rewind (R150), and the worked examples. -/

namespace Sys2Proof.Machine

/-! ### The bytes of a decoded header (R59) -/

/-- A decoded header's bytes are its encoding: the magic, the two words cut into their bytes again, and the two
informative bytes. -/
theorem encode_of_decodeHeader {bytes rest : List Byte} {i : Instr} (h : decodeHeader bytes = .ok (i, rest)) :
    i.isHeader = true ∧ bytes = encode i ++ rest := by
  unfold decodeHeader at h
  split at h
  next m0 m1 m2 m3 fields =>
    split at h
    next magic =>
      split at h <;> cases h
      exact ⟨rfl, by simp [encode, ← magic]⟩
    next => cases h
  next => cases h

/-! ### A chunk's length by its first byte (R79) -/

theorem chunkLength_of_not_superTag {b0 : Byte} (hFE : b0 ≠ 0xFE) (hFF : b0 ≠ 0xFF) :
    chunkLength b0 = if b0.extractLsb' 6 2 = (0b10 : BitVec 2) then 2 else 1 := by
  rw [chunkLength, if_neg hFF, if_neg hFE]

theorem chunkLength_of_tag {b0 : Byte} {t : BitVec 2} (tag : b0.extractLsb' 6 2 = t) (ht : t ≠ 0b11) :
    chunkLength b0 = if t = 0b10 then 2 else 1 := by
  obtain ⟨hFE, hFF⟩ := not_superTag (tag ▸ ht)
  rw [chunkLength_of_not_superTag hFE hFF, tag]

/-- The first byte of a chunk's encoding tells the length that the opcode table gives its kind (R74). -/
theorem chunkLength_encode {i : Instr} (chunk : i.isHeader = false) (wf : i.wellFormed = true) :
    chunkLength ((encode i).headD 0) = i.byteLength := by
  cases i with
  | index idx => exact chunkLength_of_tag (tag_append 0b00 idx) (by decide)
  | diff dr dg db => exact chunkLength_of_tag (quarters_append 0b01 dr dg db).1 (by decide)
  | luma dg drDg dbDg => exact chunkLength_of_tag (tag_append 0b10 dg) (by decide)
  | run length =>
    obtain ⟨hFE, hFF⟩ := run_not_superTag wf
    exact (chunkLength_of_not_superTag hFE hFF).trans (if_neg (by rw [tag_append]; decide))
  | rgb => rfl
  | rgba => rfl
  | hdr => exact nomatch chunk

theorem chunkLength_of_decodeChunk {b0 : Byte} {tail rest : List Byte} {i : Instr}
    (h : decodeChunk (b0 :: tail) = .ok (i, rest)) : chunkLength b0 = i.byteLength := by
  have first : (encode i).headD 0 = b0 := by
    have bytes := encode_of_decodeChunk h
    cases he : encode i with
    | nil => exact absurd (encode_length i) (by rw [he]; exact (byteLength_pos i).ne)
    | cons b bs =>
      rw [he] at bytes
      exact (List.cons.inj bytes).1.symm
  rw [← first, chunkLength_encode (decodeChunk_isHeader h) (decodeChunk_wellFormed h)]

/-- Fewer bytes than the first one asks for start no chunk. -/
theorem decodeChunk_of_short {b0 : Byte} {tail : List Byte} (short : tail.length + 1 < chunkLength b0) :
    ∃ e, decodeChunk (b0 :: tail) = .error e := by
  cases hd : decodeChunk (b0 :: tail) with
  | error e => exact ⟨e, rfl⟩
  | ok r =>
    have enough : tail.length + 1 = r.1.byteLength + r.2.length := decodeChunk_length hd
    have length : chunkLength b0 = r.1.byteLength := chunkLength_of_decodeChunk hd
    omega

/-- A step in DECODING over bytes that start no chunk takes them all and raises (R151), whether or not the host
takes pixels. -/
theorem step_decoding_truncated {s : State} {e : DecodeError} (hctl : s.env.ctl = []) (heos : s.env.inEos = true)
    (hp : s.phase = .decoding) (hc : s.bsCnt = 0) (wf : Memory.wf s.env.input = true)
    (hd : decodeChunk (pendingBytes s) = .error e) :
    ∃ t, step s = .next t ∧ t.phase = .error ∧ t.errCode = .eoi ∧
      t.inCount = s.inCount + BitVec.ofNat 64 (pendingBytes s).length := by
  obtain ⟨u, hu, only, -, taken⟩ := fetchChunk_short (s := resumed s) wf hc hd
  have heos' : u.env.inEos = true := by rw [only.env]; exact heos
  refine ⟨raiseError .eoi u, ?_, rfl, rfl, taken⟩
  rw [step_no_control hctl, blockStep_decoding hp, hu, outOfBytes_into, if_pos heos']

/-! ### The run rewind (R150) -/

theorem runLengthOk_of_not_superTag {x : BitVec 6} (h62 : x ≠ 0b111110) (h63 : x ≠ 0b111111) :
    Instr.runLengthOk x = true := by
  revert x
  decide

theorem kindOf_run {x : BitVec 6} (legal : Instr.runLengthOk x = true) :
    kindOf ((0b11 : BitVec 2) ++ x) = .run := by
  obtain ⟨hFE, hFF⟩ := run_not_superTag legal
  simp only [kindOf, if_neg hFE, if_neg hFF, tag_append]
  rfl

/-- After the tag of a run its whole first byte is back in the buffer, the six low bits unread. -/
theorem decodeTag_run {s : State} {b : Byte} {rest : List Byte} (hc : s.bsCnt = 0) (bytes : pendingBytes s = b :: rest)
    (kind : kindOf b = .run) :
    ∃ t, decodeTag s = .ok .run t ∧ t.bsBuf = b ∧ t.bsCnt = 6 ∧ t.inCount = s.inCount + 1 := by
  have tag := decodeTag_pending hc bytes
  simp only [tagState, kind] at tag
  exact ⟨_, tag, rfl, rfl, rfl⟩

/-- A field read from a byte is that slice of it, zero-extended to a byte (R9, R102). -/
theorem ofNat_byteBits (b : Byte) (lo : Nat) {len : Nat} (h8 : len ≤ 8) :
    BitVec.ofNat 8 (byteBits b lo len) = (b.extractLsb' lo len).setWidth 8 := by
  rw [← field_of_byteBits]
  exact (BitVec.setWidth_ofNat_of_le_of_lt h8 (byteBits_lt b lo len)).symm

/-- The six bits held after a 2-bit tag are read without a fetch. -/
theorem readBits_six {s : State} (hc : s.bsCnt = 6) :
    readBits 6 s = .ok ((s.bsBuf.extractLsb' 0 6).setWidth 8) { s with bsCnt := 0 } := by
  rw [readBits_held (by decide) (by rw [hc]; decide), hc]
  exact congrArg (Ret.ok · _) (ofNat_byteBits s.bsBuf 0 (by decide))

/-! ### The statements -/

/-- Settles O22: in each layout the fields join to the bytes they were cut from, and the runs that would join to an
8-bit tag are not decoded. -/
theorem encodingUndoesDecoding : Obligations.EncodingUndoesDecoding :=
  fun _ _ _ => ⟨fun h => ⟨decodeChunk_isHeader h, decodeChunk_wellFormed h, encode_of_decodeChunk h⟩,
    encode_of_decodeHeader⟩

/-- Settles O25: no byte, and fewer bytes than the first one asks for, start no chunk. -/
theorem truncatedChunkTakesWhatIsLeftAndRaises : Obligations.TruncatedChunkTakesWhatIsLeftAndRaises := by
  refine fun s hctl heos hp hc wf => ⟨fun ended => ?_, fun b0 tail bytes short => ?_⟩
  · obtain ⟨t, hs, phase, code, taken⟩ := step_decoding_truncated (s := s) hctl heos hp hc wf (by rw [ended]; rfl)
    exact ⟨t, hs, phase, code, by simpa [ended] using taken⟩
  · obtain ⟨e, hd⟩ := decodeChunk_of_short short
    obtain ⟨t, hs, phase, code, taken⟩ := step_decoding_truncated hctl heos hp hc wf (by rw [bytes]; exact hd)
    exact ⟨t, hs, phase, code, by rw [taken_toNat wf (Nat.le_refl _) taken, bytes, List.length_cons]⟩

/-- Settles O26: the tag decoder leaves the first byte with its six low bits unread, which are the payload. -/
theorem runRewindRereadsItsSixBits : Obligations.RunRewindRereadsItsSixBits := by
  intro s x rest wf hc h62 h63 bytes
  have legal := runLengthOk_of_not_superTag h62 h63
  obtain ⟨hFE, hFF⟩ := run_not_superTag legal
  constructor
  · obtain ⟨t, tag, buffer, held, taken⟩ := decodeTag_run hc bytes (kindOf_run legal)
    have reread := readBits_six held
    rw [buffer, field_append] at reread
    exact ⟨t, _, tag, held, taken, reread, taken⟩
  · have decodes : decodeChunk (pendingBytes s) = .ok (.run x, rest) := by
      rw [bytes, decodeChunk_run (tag_append 0b11 x) hFE hFF, field_append]
    exact ⟨_, fetchChunk_whole wf hc decodes, rfl, rfl⟩

/-- Settles O27: the decoder runs on each word. -/
theorem wordsDecodeAsTheSpecWritesThem : Obligations.WordsDecodeAsTheSpecWritesThem :=
  ⟨rfl, rfl, rfl, rfl, rfl, rfl, rfl⟩

end Sys2Proof.Machine
end

section
/-! PROOFS. The statements of spec/43_reconstruct.md: the hash and the channel sums (R170, R177), the whole effect of
the five single-pixel chunks (R172 to R176), and what holds of the cache and of the alpha (R178, R179). -/

namespace Sys2Proof.Machine

/-! ### The hash (R170) -/

theorem pixelHash_toNat (p : Pixel) :
    (pixelHash p).toNat = (p.r.toNat * 3 + p.g.toNat * 5 + p.b.toNat * 7 + p.a.toNat * 11) % 64 :=
  BitVec.toNat_ofNat _ 6

theorem pixelHash_transparent : pixelHash .transparent = 0 := by decide

theorem weightedSum_le (p : Pixel) :
    p.r.toNat * 3 + p.g.toNat * 5 + p.b.toNat * 7 + p.a.toNat * 11 ≤ 6630 := by
  have hr := p.r.isLt
  have hg := p.g.isLt
  have hb := p.b.isLt
  have ha := p.a.isLt
  omega

/-- Wrapping in 8 bits before the six low bits are taken loses nothing, as 64 divides 256. -/
theorem pixelHash_eq_wrapped (p : Pixel) : pixelHash p = (p.r * 3 + p.g * 5 + p.b * 7 + p.a * 11).setWidth 6 := by
  apply BitVec.eq_of_toNat_eq
  simp [pixelHash_toNat]

/-! ### Channel sums (R177) -/

theorem addDelta_toNat (a : Byte) (d : Int) : ((addDelta a d).toNat : Int) = (a.toNat + d) % 256 := by
  rw [addDelta, BitVec.toNat_ofInt]
  exact Int.toNat_of_nonneg (Int.emod_nonneg _ (by decide))

/-- The integer sum wraps to the 8-bit sum with the delta's own residue. -/
theorem addDelta_eq_add (a : Byte) (d : Int) : addDelta a d = a + BitVec.ofInt 8 d := by
  rw [addDelta, BitVec.ofInt_add, BitVec.ofInt_natCast, BitVec.ofNat_toNat, BitVec.setWidth_eq]

/-- The residue mod 256 of the integer delta is the delta formed in 8 bits with wrap. -/
theorem ofInt_lumaSideDelta (side : BitVec 4) (dg : BitVec 6) :
    BitVec.ofInt 8 (lumaSideDelta side dg) = (side.setWidth 8 - 8) + (dg.setWidth 8 - 32) := by
  simp only [lumaSideDelta, lumaGreenDelta, sub_eq_add_neg, BitVec.ofInt_add, BitVec.ofInt_natCast, BitVec.ofNat_toNat]
  rfl

theorem lumaSideDelta_range (side : BitVec 4) (dg : BitVec 6) :
    -40 ≤ lumaSideDelta side dg ∧ lumaSideDelta side dg ≤ 38 := by
  have hside := side.isLt
  have hdg := dg.isLt
  unfold lumaSideDelta lumaGreenDelta
  omega

/-! ### The whole effect of a single-pixel chunk (R171, R221) -/

theorem checkDone_eq (s : State) :
    checkDone s = { s with phase := if s.pixelsWritten = s.totalPixels then .done else s.phase } := by
  unfold checkDone
  split <;> rfl

/-- With a cache write. -/
theorem chunkStep_write (c : Chunk) (p : Pixel) (s : State) :
    chunkStep c p true s = .next { s with
      chunk := c, cache := s.cache.set (pixelHash p).toNat p (pixelHash p).isLt, out := s.out ++ [p],
      pixelsWritten := s.pixelsWritten + 1, prev := p,
      phase := if s.pixelsWritten + 1 = s.totalPixels then .done else s.phase } :=
  congrArg Host.Outcome.next (checkDone_eq _)

/-- Without one. -/
theorem chunkStep_noWrite (c : Chunk) (p : Pixel) (s : State) :
    chunkStep c p false s = .next { s with
      chunk := c, out := s.out ++ [p], pixelsWritten := s.pixelsWritten + 1, prev := p,
      phase := if s.pixelsWritten + 1 = s.totalPixels then .done else s.phase } :=
  congrArg Host.Outcome.next (checkDone_eq _)

/-! ### The cache and the alpha (R178, R179, R201) -/

/-- A chunk that writes the cache leaves its pixel in the slot it hashes to. -/
theorem ChunkEffect.prevSlot {s t : State} {i : Instr} (h : ChunkEffect s i t) (noIndex : ∀ idx, i ≠ .index idx) :
    readSlot (pixelHash t.prev) t = t.prev := by
  cases h with
  | index idx => exact absurd rfl (noIndex idx)
  | run length => simp [readSlot]
  | pixel i c p => simp [readSlot]

theorem ChunkEffect.index_prev {s t : State} {idx : BitVec 6} (h : ChunkEffect s (.index idx) t) :
    t.prev = readSlot idx s := by
  cases h with
  | index => simp
  | pixel _ _ _ noIndex => exact absurd rfl (noIndex idx)

/-- INDEX of a slot at its pixel's hash repeats that slot; the initial pixel hashes to 0, so only slot 0 holds it
at its hash. -/
theorem ChunkEffect.index_prevSlot {s t : State} {idx : BitVec 6} (h : ChunkEffect s (.index idx) t)
    (slot : readSlot idx s = .transparent ∨ pixelHash (readSlot idx s) = idx) :
    readSlot (pixelHash t.prev) t = t.prev ∨ (readSlot idx s = .transparent ∧ idx ≠ 0) := by
  rw [readSlot_congr h.index_cache, h.index_prev]
  obtain initial | hashed := slot
  · by_cases zero : idx = 0
    · exact .inl (by rw [initial, pixelHash_transparent, ← zero, initial])
    · exact .inr ⟨initial, zero⟩
  · exact .inl (by rw [hashed])

/-- Every slot stays initial or at its pixel's hash: the one slot that changes is that of the new previous pixel. -/
theorem ChunkEffect.hashedSlot {s t : State} {i : Instr} (h : ChunkEffect s i t)
    (slots : ∀ k, readSlot k s = .transparent ∨ pixelHash (readSlot k s) = k) (k : Slot) :
    readSlot k t = .transparent ∨ pixelHash (readSlot k t) = k := by
  by_cases index : ∃ idx, i = .index idx
  · obtain ⟨idx, rfl⟩ := index
    rw [readSlot_congr h.index_cache]
    exact slots k
  · by_cases own : k = pixelHash t.prev
    · have written := h.prevSlot (not_exists.1 index)
      exact .inr (by rw [own, written])
    · rw [h.otherSlots own]
      exact slots k

theorem ChunkEffect.prev_alpha {s t : State} {i : Instr} (h : ChunkEffect s i t) :
    t.prev.a = match i with
      | .rgba _ _ _ a => a
      | .index idx => (readSlot idx s).a
      | _ => s.prev.a := by
  cases h with
  | index idx => simp
  | run length => simp
  | pixel i c p noIndex noRun alpha =>
    rw [checkDone_prev, produce_prev, alpha]
    cases i with
    | index idx => exact absurd rfl (noIndex idx)
    | _ => rfl

/-! ### The statements -/

/-- Settles O37, from the three shapes of a chunk's effect. -/
theorem cacheHoldsTheLastPixelOfEachHash : Obligations.CacheHoldsTheLastPixelOfEachHash := by
  intro i s t hi hx slots
  have eff := exec_chunk_cases hi hx
  refine ⟨eff.hashedSlot slots, fun k => eff.otherSlots, ?_, eff.prevSlot⟩
  rintro idx rfl
  exact ⟨eff.index_cache, eff.index_prevSlot (slots idx)⟩

/-- Settles O38: HDR keeps `prev`, and a chunk's new one has the alpha that its effect gives it. -/
theorem alphaChangesOnlyByRgbaAndIndex : Obligations.AlphaChangesOnlyByRgbaAndIndex := by
  intro i s t hx
  cases i with
  | hdr w h c cs =>
    obtain ⟨-, -, prev, -⟩ := execHdr_keeps hx
    rw [prev]
  | _ => exact (exec_chunk_cases rfl hx).prev_alpha

/-- Settles O28: the chunk step with RGB's pixel. -/
theorem rgbProducesItsPixelWithThePreviousAlpha : Obligations.RgbProducesItsPixelWithThePreviousAlpha := by
  rintro r g b s p rfl
  exact chunkStep_write _ _ s

/-- Settles O29: the chunk step with RGBA's pixel. -/
theorem rgbaProducesItsPixel : Obligations.RgbaProducesItsPixel := by
  rintro r g b a s p rfl
  exact chunkStep_write _ _ s

/-- Settles O30: the chunk step with the slot's pixel and no cache write. -/
theorem indexProducesTheSlotWithoutACacheWrite : Obligations.IndexProducesTheSlotWithoutACacheWrite :=
  fun idx s => chunkStep_noWrite _ (readSlot idx s) s

/-- Settles O31: the four channels given are those of DIFF's pixel. -/
theorem diffAddsItsDeltasModulo256 : Obligations.DiffAddsItsDeltasModulo256 := by
  rintro dr dg db s ⟨r, g, b, a⟩ rfl rfl rfl rfl
  exact chunkStep_write _ _ s

/-- Settles O32: the four channels given are those of LUMA's pixel. -/
theorem lumaAddsItsDeltasModulo256 : Obligations.LumaAddsItsDeltasModulo256 := by
  rintro dg drDg dbDg s ⟨r, g, b, a⟩ rfl rfl rfl rfl
  exact chunkStep_write _ _ s

/-- Settles O34: 64 divides 2^n from n = 6 on, so wrapping at such a width keeps the residue. -/
theorem hashIsTheWeightedSumModulo64 : Obligations.HashIsTheWeightedSumModulo64 := by
  refine fun p => ⟨pixelHash_toNat p, fun n hn => ?_, weightedSum_le p, pixelHash_eq_wrapped p⟩
  have divides : 64 ∣ 2 ^ n := pow_dvd_pow 2 hn
  rw [pixelHash_toNat, Nat.mod_mod_of_dvd _ divides]

/-- Settles O35. -/
theorem channelSumsWrapModulo256 : Obligations.ChannelSumsWrapModulo256 := addDelta_toNat

/-- Settles O36: taking residues mod 256 commutes with the integer sums and differences. -/
theorem lumaDeltasMayBeFormedInEightBits : Obligations.LumaDeltasMayBeFormedInEightBits :=
  fun a side dg => ⟨by rw [addDelta_eq_add, ofInt_lumaSideDelta], lumaSideDelta_range side dg⟩

end Sys2Proof.Machine
end

section
/-! PROOFS. The statements of spec/44_run_expander.md: the whole effect of RUN (R200), a first run (R202), a run past
the end (R203), and several runs in a row (R205). -/

namespace Sys2Proof.Machine

/-! ### How many copies a run emits (R200, R203) -/

theorem runEmits_whole {length : BitVec 6} {s : State}
    (enough : length.toNat + 1 ≤ s.totalPixels.toNat - s.pixelsWritten.toNat) :
    runEmits length s = length.toNat + 1 := min_eq_left enough

theorem runEmits_clipped {length : BitVec 6} {s : State}
    (overrun : s.totalPixels.toNat - s.pixelsWritten.toNat < length.toNat + 1) :
    runEmits length s = s.totalPixels.toNat - s.pixelsWritten.toNat := min_eq_right overrun.le

/-- Emitting all the pixels owed brings the count to the total, without wrap-around. -/
theorem pixelsWritten_add_owed {s : State} (bounded : s.pixelsWritten ≤ s.totalPixels) :
    s.pixelsWritten + BitVec.ofNat 64 (s.totalPixels.toNat - s.pixelsWritten.toNat) = s.totalPixels := by
  bv_omega

/-! ### The whole effect of a run (R200, R221) -/

theorem emitMany_eq (m : Nat) (p : Pixel) (s : State) :
    emitMany m p s = { s with
      out := s.out ++ List.replicate m p, pixelsWritten := s.pixelsWritten + BitVec.ofNat 64 m } := by
  rw [← emitMany_out, ← emitMany_pixelsWritten]
  induction m generalizing s with
  | zero => rfl
  | succ k ih => exact ih (emit p s)

theorem exec_run (length : BitVec 6) (s : State) :
    exec (.run length) s = .next { s with
      chunk := .run length, cache := s.cache.set (pixelHash s.prev).toNat s.prev (pixelHash s.prev).isLt,
      out := s.out ++ List.replicate (runEmits length s) s.prev,
      pixelsWritten := s.pixelsWritten + BitVec.ofNat 64 (runEmits length s),
      phase := if s.pixelsWritten + BitVec.ofNat 64 (runEmits length s) = s.totalPixels then .done else s.phase } := by
  change Host.Outcome.next (checkDone (applyRun length (latchChunk (.run length) s))) = _
  rw [checkDone_eq, applyRun, emitMany_eq]
  rfl

section
variable {length : BitVec 6} {s t : State}

theorem ChunkEffect.run_out (h : ChunkEffect s (.run length) t) :
    t.out = s.out ++ List.replicate (runEmits length s) s.prev := by
  cases h with
  | run => exact (checkDone_out _).trans (applyRun_out _ _)
  | pixel _ _ _ _ noRun => exact absurd rfl (noRun length)

theorem ChunkEffect.run_cache (h : ChunkEffect s (.run length) t) :
    t.cache = s.cache.set (pixelHash s.prev).toNat s.prev (pixelHash s.prev).isLt := by
  cases h with
  | run => simp
  | pixel _ _ _ _ noRun => exact absurd rfl (noRun length)

/-- After the run the slot of the repeated pixel holds it (R201). -/
theorem ChunkEffect.run_slot (h : ChunkEffect s (.run length) t) : readSlot (pixelHash s.prev) t = s.prev := by
  have slot := h.prevSlot (by simp)
  rwa [h.run_prev] at slot

/-- The refresh changes nothing where the slot holds the pixel already. -/
theorem ChunkEffect.run_cache_of_slot (h : ChunkEffect s (.run length) t)
    (slot : readSlot (pixelHash s.prev) s = s.prev) : t.cache = s.cache := by
  calc t.cache = s.cache.set (pixelHash s.prev).toNat s.prev (pixelHash s.prev).isLt := h.run_cache
    _ = s.cache.set (pixelHash s.prev).toNat (readSlot (pixelHash s.prev) s) (pixelHash s.prev).isLt := by rw [slot]
    _ = s.cache := Vector.set_getElem_self (pixelHash s.prev).isLt

end

/-! ### The statements -/

/-- Settles O33: the count is `runEmits` written out. Where `pixels_written` is above `total_pixels` it is 0 (the
model's log 17). -/
theorem runRepeatsThePreviousPixel : Obligations.RunRepeatsThePreviousPixel := by
  rintro length s m rfl
  exact exec_run length s

/-- Settles O41: the copies are as many as the pixels owed, so the end test finds the decode complete. -/
theorem runOverrunIsClipped : Obligations.RunOverrunIsClipped := by
  intro length s owing overrun
  have complete : s.pixelsWritten + BitVec.ofNat 64 (runEmits length s) = s.totalPixels := by
    rw [runEmits_clipped overrun, pixelsWritten_add_owed (BitVec.le_of_lt owing)]
  have run := exec_run length s
  have eff := exec_chunk_cases rfl run
  exact ⟨_, run, if_pos complete, complete, by rw [← runEmits_clipped overrun], eff.run_slot, eff.run_prev⟩

/-- Settles O42: the run is not clipped, and opaque black hashes to 53. -/
theorem firstRunRepeatsOpaqueBlack : Obligations.FirstRunRepeatsOpaqueBlack := by
  intro length s black enough
  obtain ⟨t, run⟩ := exec_chunk_next (i := .run length) rfl s
  have eff := exec_chunk_cases rfl run
  have hash : pixelHash ⟨0, 0, 0, 255⟩ = 53 := by decide
  refine ⟨t, run, ?_, ?_, eff.run_prev.trans black⟩
  · rw [eff.run_out, runEmits_whole enough, black]
  · simpa only [black, hash] using eff.run_slot

/-- Settles O43: the second run repeats the same pixel, and its slot holds that pixel already. -/
theorem secondRunInARowLeavesTheCache : Obligations.SecondRunInARowLeavesTheCache := by
  intro length length' s
  obtain ⟨t, run⟩ := exec_chunk_next (i := .run length) rfl s
  obtain ⟨u, run'⟩ := exec_chunk_next (i := .run length') rfl t
  have first := exec_chunk_cases rfl run
  have second := exec_chunk_cases rfl run'
  have same : t.prev = s.prev := first.run_prev
  refine ⟨t, u, run, run', ?_, ?_, second.run_prev.trans same, ?_⟩
  · exact second.run_cache_of_slot (by rw [same, first.run_slot])
  · rw [← same, second.run_slot]
  · rw [second.run_out, first.run_out, same, List.append_assoc, List.replicate_append_replicate]

end Sys2Proof.Machine
end

section
/-! PROOFS. The statements of spec/45_driver.md: `start` and the quiescent phases (R220, R221), a step against `exec`
(R221), progress and the failing chunk (R222, R230), the invariant of the step boundaries (R229), the two ends of a
decode (R228, R230), and what a decode does not depend on: its past (R232) and the bytes after its last chunk (R227). -/

namespace Sys2Proof.Machine

/-! ### The control inputs (R220, R259) -/

theorem controlStep_start {c : Ctl} {s : State} (hr : c.rst = false) (hs : c.start = true) (hb : busy s = false) :
    controlStep c s = .next (start c.stream s) := by
  simp [controlStep, hr, hs, hb]

/-- In a running decode a sample without `rst` leaves the block its own step. -/
theorem controlStep_busy {c : Ctl} {s : State} (hr : c.rst = false) (hb : busy s = true) :
    controlStep c s = blockStep s := by
  simp [controlStep, hr, hb]

theorem startValues_start (stream : Option Memory) (s : State) : StartValues (start stream s) :=
  { phase := rfl, errCode := rfl, hdrWidth := rfl, hdrHeight := rfl, hdrChannels := rfl, hdrColorspace := rfl,
    hdrValid := rfl, totalPixels := rfl, pixelsWritten := rfl, inCount := rfl, out := rfl, prev := rfl,
    cache := readSlot_replicate rfl, bsBuf := rfl, bsCnt := rfl, ckBuf := rfl, ckCnt := rfl }

/-! ### The step as `exec` of what is decoded (R221) -/

/-- A whole chunk runs when the host takes its pixels, whether or not it has signalled the end of the stream. -/
theorem step_decoding_ready {s : State} {i : Instr} {rest : List Byte} (hctl : s.env.ctl = [])
    (hready : s.env.pxReady = true) (hp : s.phase = .decoding) (wf : Memory.wf s.env.input = true)
    (hc : s.bsCnt = 0) (hd : decodeChunk (pendingBytes s) = .ok (i, rest)) :
    step s = exec i (afterFetch i (resumed s)) := by
  rw [step_no_control hctl, blockStep_decoding hp, fetchChunk_whole (s := resumed s) wf hc hd]
  exact if_pos hready

/-- A legal header that is decoded is the HDR operation on its fields. -/
theorem step_header_decoded {s : State} {w h : Word32} {c cs : Byte} {rest : List Byte} (hctl : s.env.ctl = [])
    (hp : s.phase = .header) (wf : Memory.wf s.env.input = true) (hc : s.bsCnt = 0)
    (legal : (Instr.hdr w h c cs).wellFormed = true)
    (hd : decodeHeader (pendingBytes s) = .ok (.hdr w h c cs, rest)) :
    step s = exec (.hdr w h c cs) (afterFetch (.hdr w h c cs) (resumed s)) := by
  obtain ⟨hch, hcs⟩ := Bool.and_eq_true_iff.1 legal
  obtain ⟨-, bytes⟩ := encode_of_decodeHeader hd
  rw [step_header_legal hctl hp wf hc bytes hch hcs, exec_hdr_legal w h _ hch hcs]
  rfl

/-- With no control sample left the step is one of the block's own. -/
theorem blockStep_of_step {s t : State} (hctl : s.env.ctl = []) (wf : Memory.wf s.env.input = true)
    (hc : s.bsCnt = 0) (hs : step s = .next t) : BlockStep s t := by
  obtain ⟨u, hu, hcases⟩ := blockStep_cases wf hc
  obtain rfl : u = t := by simpa [step_no_control hctl, hu] using hs
  exact hcases

/-! ### The pixels a chunk emits (R34, R229) -/

/-- A chunk emits at least one of the pixels owed and none beyond them, so `pixels_written` counts them without
wrap-around. -/
theorem ChunkEffect.emits {s t : State} {i : Instr} (h : ChunkEffect s i t)
    (owing : s.pixelsWritten < s.totalPixels) :
    ∃ m, 0 < m ∧ t.out.length = s.out.length + m ∧ t.pixelsWritten.toNat = s.pixelsWritten.toNat + m ∧
      t.pixelsWritten ≤ t.totalPixels := by
  have emitted : ∃ m, 0 < m ∧ m ≤ owedPixels s ∧ t.out.length = s.out.length + m ∧
      t.pixelsWritten = s.pixelsWritten + BitVec.ofNat 64 m := by
    have owed : 1 ≤ owedPixels s := Nat.sub_pos_of_lt owing
    cases h with
    | index idx => exact ⟨1, Nat.one_pos, owed, by simp, by simp⟩
    | run length =>
      exact ⟨runEmits length s, lt_min (Nat.succ_pos _) owed, min_le_right _ _,
        by rw [(ChunkEffect.run length).run_out, List.length_append, List.length_replicate],
        (checkDone_pixelsWritten _).trans (applyRun_pixelsWritten _ _)⟩
    | pixel i c p => exact ⟨1, Nat.one_pos, owed, by simp, by simp⟩
  obtain ⟨m, pos, within, length, count⟩ := emitted
  have total := h.totalPixels
  unfold owedPixels at within
  refine ⟨m, pos, length, ?_, ?_⟩ <;> bv_omega

/-- The test for the end of the decode after the chunk (R226). -/
theorem ChunkEffect.phase_eq {s t : State} {i : Instr} (h : ChunkEffect s i t) :
    t.phase = if t.pixelsWritten = t.totalPixels then .done else s.phase := by
  cases h <;> simp

/-! ### What a step of the block keeps of the host's side (R41, R57) -/

theorem acceptHeader_env (w h : Word32) (s : State) : (acceptHeader w h s).env = s.env := by
  obtain ⟨-, -, -, -, -, henv⟩ := acceptHeader_keeps w h s
  exact henv

/-- Of the host's side only the number of bytes held changes, and none is held but by a step that waits. -/
theorem BlockStep.host {s t : State} (h : BlockStep s t) :
    t.env = { s.env with held := t.env.held } ∧ (s.env.held ≤ stepTakes s → t.env.held ≤ stepTakes t) := by
  have ran {u : State} (henv : u.env = (resumed s).env) :
      u.env = { s.env with held := u.env.held } ∧ (s.env.held ≤ stepTakes s → u.env.held ≤ stepTakes u) := by
    rw [henv]
    exact ⟨rfl, fun _ => Nat.zero_le _⟩
  cases h with
  | quiet => exact ⟨rfl, id⟩
  | waits u _ _ held => exact ⟨rfl, fun _ => held.le⟩
  | chunk i rest _ _ decodes _ runs => exact ran (exec_chunk_env (decodeChunk_isHeader decodes) runs).1
  | chunkShort u _ _ only => exact ran only.env
  | header w h c cs => exact ran (acceptHeader_env w h _)
  | headerShort u _ _ only => exact ran only.env
  | headerBad u _ _ only => exact ran only.env

/-- A step takes no byte past the end of the stream (R101). -/
theorem BlockStep.within {s t : State} (wf : Memory.wf s.env.input = true) (hc : s.bsCnt = 0)
    (taken : s.inCount.toNat ≤ s.env.input.length) (h : BlockStep s t) :
    t.inCount.toNat ≤ t.env.input.length := by
  have running (hp : s.phase = .header ∨ s.phase = .decoding) : t.inCount.toNat ≤ t.env.input.length := by
    obtain ⟨stream, moved⟩ := h.takes wf hc hp
    have there := stepTakes_le wf hc
    rw [pendingBytes, List.length_drop] at there
    rw [stream]
    omega
  cases h with
  | quiet => exact taken
  | waits _ phase => exact running phase
  | chunk _ _ _ phase => exact running (.inr phase)
  | chunkShort _ phase => exact running (.inr phase)
  | header _ _ _ _ _ phase => exact running (.inl phase)
  | headerShort _ phase => exact running (.inl phase)
  | headerBad _ _ phase => exact running (.inl phase)

/-! ### The invariant: what is decoded (R229, R178) -/

/-- The clauses of `Inv` on what is decoded, without those on the stream and the bytes taken of it. -/
structure DecodedInv (s : State) : Prop where
  counted : s.pixelsWritten.toNat = s.out.length
  bounded : s.pixelsWritten ≤ s.totalPixels
  owing : s.phase = .decoding → s.pixelsWritten < s.totalPixels
  complete : s.phase = .done → s.pixelsWritten = s.totalPixels
  errors : s.phase = .error ↔ s.errCode ≠ .none
  accepted : s.phase = .decoding ∨ s.phase = .done → s.hdrValid = true
  header : s.hdrValid = true → HeaderAccepted s
  fresh : s.phase = .idle ∨ s.phase = .header → AtStart s
  slots : ∀ i : Slot, readSlot i s = .transparent ∨ pixelHash (readSlot i s) = i

theorem Inv.decoded {s : State} (h : Inv s) : DecodedInv s := { h with }

theorem DecodedInv.noError {s : State} (h : DecodedInv s) (hp : s.phase ≠ .error) : s.errCode = .none :=
  not_not.1 fun set => hp (h.errors.2 set)

/-- A raise keeps the counts, the header and the cache. -/
theorem decodedInv_raise {e : ErrCode} {u : State} (code : e ≠ .none)
    (counted : u.pixelsWritten.toNat = u.out.length) (bounded : u.pixelsWritten ≤ u.totalPixels)
    (header : u.hdrValid = true → HeaderAccepted u)
    (slots : ∀ i : Slot, readSlot i u = .transparent ∨ pixelHash (readSlot i u) = i) :
    DecodedInv (raiseError e u) where
  counted := counted
  bounded := bounded
  owing := by simp
  complete := by simp
  errors := by simp [code]
  accepted := by simp
  header valid := { header valid with }
  fresh := by simp
  slots := slots

/-- So does a raise before anything is decoded. -/
theorem decodedInv_raise_undecoded {e : ErrCode} {u : State} (code : e ≠ .none) (count : u.pixelsWritten = 0)
    (out : u.out = []) (invalid : u.hdrValid = false) (cache : u.cache = Vector.replicate 64 .transparent) :
    DecodedInv (raiseError e u) := by
  refine decodedInv_raise code ?_ ?_ (fun valid => ?_) fun i => .inl (readSlot_replicate cache i)
  · rw [count, out]
    rfl
  · rw [count]
    exact Nat.zero_le _
  · simp [invalid] at valid

/-- In IDLE and HEADER the decode state is that of `Start()`. -/
theorem AtStart.decodedInv {s : State} (h : AtStart s) (hp : s.phase = .idle ∨ s.phase = .header)
    (code : s.errCode = .none) : DecodedInv s := by
  obtain ⟨notDecoding, notDone, noError⟩ : s.phase ≠ .decoding ∧ s.phase ≠ .done ∧ s.phase ≠ .error := by
    rcases hp with hp | hp <;> simp [hp]
  exact {
    counted := by rw [h.pixelsWritten, h.out]; rfl
    bounded := by rw [h.pixelsWritten]; exact Nat.zero_le _
    owing := fun decoding => absurd decoding notDecoding
    complete := fun done => absurd done notDone
    errors := iff_of_false noError (not_not.2 code)
    accepted := fun valid => absurd valid (not_or.2 ⟨notDecoding, notDone⟩)
    header := fun valid => by simp [h.hdrValid] at valid
    fresh := fun _ => h
    slots := fun i => .inl (readSlot_replicate h.cache i) }

/-- After an accepted header the phase says whether a pixel is owed. -/
theorem decodedInv_accepted {s : State} (counted : s.pixelsWritten.toNat = s.out.length)
    (ends : (s.phase = .done ∧ s.pixelsWritten = s.totalPixels) ∨
      (s.phase = .decoding ∧ s.pixelsWritten < s.totalPixels))
    (code : s.errCode = .none) (valid : s.hdrValid = true) (header : HeaderAccepted s)
    (slots : ∀ i : Slot, readSlot i s = .transparent ∨ pixelHash (readSlot i s) = i) : DecodedInv s := by
  obtain ⟨phase, all⟩ | ⟨phase, owed⟩ := ends
  · exact {
      counted, slots
      bounded := by rw [all]; exact BitVec.le_refl _
      owing := by simp [phase]
      complete := fun _ => all
      errors := by simp [phase, code]
      accepted := fun _ => valid
      header := fun _ => header
      fresh := by simp [phase] }
  · exact {
      counted, slots
      bounded := BitVec.le_of_lt owed
      owing := fun _ => owed
      complete := by simp [phase]
      errors := by simp [phase, code]
      accepted := fun _ => valid
      header := fun _ => header
      fresh := by simp [phase] }

/-- A header that ends early or fails a check leaves nothing decoded and no valid header. -/
theorem AtStart.decodedInv_raise {e : ErrCode} {s u : State} (h : AtStart s) (code : e ≠ .none)
    (only : HeaderOnly (resumed s) u) : DecodedInv (raiseError e u) := by
  rw [only]
  exact decodedInv_raise_undecoded code h.pixelsWritten h.out h.hdrValid h.cache

/-- Acceptance of a legal header, or its raise above the limit (R127). -/
theorem AtStart.decodedInv_acceptHeader {s : State} {w h : Word32} {c cs : Byte} (start : AtStart s)
    (code : s.errCode = .none) (hch : Instr.channelsOk c = true) (hcs : Instr.colorspaceOk cs = true)
    (taken : 14 ≤ (headerIn w h c cs s).inCount.toNat) : DecodedInv (acceptHeader w h (headerIn w h c cs s)) := by
  by_cases above : (headerIn w h c cs s).env.maxPixels < pixelCount w h
  · rw [acceptHeader_over above]
    exact decodedInv_raise_undecoded (by decide) start.pixelsWritten start.out start.hdrValid start.cache
  · have count : (headerIn w h c cs s).pixelsWritten = 0 := start.pixelsWritten
    have out : (headerIn w h c cs s).out = [] := start.out
    rw [acceptHeader_within above]
    refine decodedInv_accepted (by simp [count, out]) ?_ code rfl
      ⟨hch, hcs, rfl, BitVec.not_lt.1 above, taken⟩ fun i => .inl (readSlot_replicate start.cache i)
    by_cases zero : pixelCount w h = 0
    · exact .inl ⟨if_pos zero, count.trans zero.symm⟩
    · exact .inr ⟨if_neg zero, by simp only [count]; bv_omega⟩

/-- An accepted header stays so while its registers stay and bytes are only taken. -/
theorem HeaderAccepted.of_registers {s t : State} (h : HeaderAccepted s) (width : t.hdrWidth = s.hdrWidth)
    (height : t.hdrHeight = s.hdrHeight) (channels : t.hdrChannels = s.hdrChannels)
    (colorspace : t.hdrColorspace = s.hdrColorspace) (total : t.totalPixels = s.totalPixels)
    (limit : t.env.maxPixels = s.env.maxPixels) (moved : s.inCount.toNat ≤ t.inCount.toNat) : HeaderAccepted t where
  channels := by rw [channels, h.channels]
  colorspace := by rw [colorspace, h.colorspace]
  total := by rw [total, width, height, h.total]
  limit := by rw [total, limit]; exact h.limit
  taken := h.taken.trans moved

/-- A chunk cut short keeps what is decoded. -/
theorem DecodedInv.raise_fetched {s u : State} (h : DecodedInv s) (only : FetchOnly (resumed s) u)
    (moved : s.inCount.toNat ≤ u.inCount.toNat) : DecodedInv (raiseError .eoi u) := by
  refine decodedInv_raise (by decide) ?_ ?_ (fun valid => ?_) ?_
  · rw [only]; exact h.counted
  · rw [only]; exact h.bounded
  · have valid' : s.hdrValid = true := by rwa [only] at valid
    exact (h.header valid').of_registers (by rw [only]; rfl) (by rw [only]; rfl) (by rw [only]; rfl)
      (by rw [only]; rfl) (by rw [only]; rfl) (by rw [only.env]; rfl) moved
  · rw [only]; exact h.slots

/-- A whole chunk emits pixels that are owed, ends the decode exactly with the last of them, and keeps the cache at
its pixels' hashes. -/
theorem DecodedInv.exec_chunk {i : Instr} {s t : State} (h : DecodedInv s) (hp : s.phase = .decoding)
    (moved : s.inCount.toNat ≤ t.inCount.toNat) (eff : ChunkEffect (afterFetch i (resumed s)) i t) :
    DecodedInv t := by
  obtain ⟨m, -, length, count, bounded⟩ := eff.emits (h.owing hp)
  obtain ⟨code, width, height, channels, colorspace, valid, total, -, -, -, -, -, henv⟩ := eff.keeps
  have accepted : s.hdrValid = true := h.accepted (.inl hp)
  refine decodedInv_accepted ?_ ?_ ?_ (valid.trans accepted)
    ((h.header accepted).of_registers width height channels colorspace total (by rw [henv]; rfl) moved)
    (eff.hashedSlot h.slots)
  · rw [count, length]
    exact congrArg (· + m) h.counted
  · rw [eff.phase_eq]
    by_cases last : t.pixelsWritten = t.totalPixels
    · exact .inl ⟨if_pos last, last⟩
    · exact .inr ⟨(if_neg last).trans hp, by bv_omega⟩
  · exact code.trans (h.noError (by simp [hp]))

/-! ### The invariant: every step (R229) -/

/-- The block's step keeps the clauses on what is decoded. -/
theorem BlockStep.decodedInv {s t : State} (inv : Inv s) (h : BlockStep s t) : DecodedInv t := by
  have moved (hp : s.phase = .header ∨ s.phase = .decoding) (ran : t.env.held = 0) :
      s.inCount.toNat ≤ t.inCount.toNat := by
    obtain ⟨-, moved⟩ := h.takes inv.streamWf inv.aligned hp
    omega
  cases h with
  | quiet => exact inv.decoded
  | waits =>
    exact { inv.decoded with
      header := fun valid => { inv.header valid with }, fresh := fun hp => { inv.fresh hp with } }
  | chunk i rest _ phase decodes _ runs =>
    have chunk := decodeChunk_isHeader decodes
    obtain ⟨henv, -⟩ := exec_chunk_env chunk runs
    exact inv.decoded.exec_chunk phase (moved (.inr phase) (by rw [henv]; rfl)) (exec_chunk_cases chunk runs)
  | chunkShort u phase _ only =>
    exact inv.decoded.raise_fetched only (moved (.inr phase) (by rw [raiseError_env, only.env]; rfl))
  | header w h c cs rest phase bytes hch hcs =>
    obtain ⟨length, -⟩ := headerLayout bytes
    have start : AtStart (resumed s) := { inv.fresh (.inr phase) with }
    have position : (headerIn w h c cs (resumed s)).inCount.toNat = s.inCount.toNat + 14 :=
      taken_toNat (s := s) inv.streamWf length rfl
    exact start.decodedInv_acceptHeader (inv.decoded.noError (by simp [phase])) hch hcs (by omega)
  | headerShort u phase _ only => exact (inv.fresh (.inr phase)).decodedInv_raise (by decide) only
  | headerBad u k phase only => exact (inv.fresh (.inr phase)).decodedInv_raise (by decide) only

/-- Where the stream, the position in it and the bytes held are in order, `Inv` is what it says of the decode. -/
theorem DecodedInv.inv {s : State} (h : DecodedInv s) (streamWf : Memory.wf s.env.input = true)
    (ctlWf : ∀ c ∈ s.env.ctl, ∀ m, c.stream = some m → Memory.wf m = true)
    (taken : s.inCount.toNat ≤ s.env.input.length) (waiting : s.env.held ≤ stepTakes s) (aligned : s.bsCnt = 0) :
    Inv s := { h with streamWf, ctlWf, taken, waiting, aligned }

theorem BlockStep.inv {s t : State} (inv : Inv s) (h : BlockStep s t) : Inv t := by
  obtain ⟨host, waiting⟩ := h.host
  refine (h.decodedInv inv).inv ?_ ?_ (h.within inv.streamWf inv.aligned inv.taken) (waiting inv.waiting)
    (h.bsCnt inv.aligned)
  · rw [host]; exact inv.streamWf
  · rw [host]; exact inv.ctlWf

/-- A decode that has not begun: what reset and `Start()` leave. -/
theorem AtStart.inv {s : State} (h : AtStart s) (hp : s.phase = .idle ∨ s.phase = .header) (code : s.errCode = .none)
    (streamWf : Memory.wf s.env.input = true) (ctlWf : ∀ c ∈ s.env.ctl, ∀ m, c.stream = some m → Memory.wf m = true)
    (held : s.env.held = 0) (aligned : s.bsCnt = 0) : Inv s :=
  (h.decodedInv hp code).inv streamWf ctlWf (by rw [h.inCount]; exact Nat.zero_le _)
    (by rw [held]; exact Nat.zero_le _) aligned

theorem atStart_start (stream : Option Memory) (s : State) : AtStart (start stream s) := by
  constructor <;> rfl

theorem atStart_applyReset (taken : Nat) (s : State) : AtStart (applyReset taken s) := { atStart_reset with }

/-- Using up a sample keeps the invariant. -/
theorem inv_setCtl {s : State} {c : Ctl} {rest : List Ctl} (h : Inv s) (hctl : s.env.ctl = c :: rest) :
    Inv (setCtl rest s) where
  streamWf := h.streamWf
  ctlWf c' mem := h.ctlWf c' (by rw [hctl]; exact List.mem_cons_of_mem c mem)
  taken := h.taken
  waiting := h.waiting.trans_eq (stepTakes_congr h.streamWf h.aligned h.streamWf h.aligned rfl rfl)
  aligned := h.aligned
  counted := h.counted
  bounded := h.bounded
  owing := h.owing
  complete := h.complete
  errors := h.errors
  accepted := h.accepted
  header valid := { h.header valid with }
  fresh hp := { h.fresh hp with }
  slots := h.slots

/-- So does the sample itself: an `rst`, a `start` that acts, or the block's own step. -/
theorem inv_controlStep {s t : State} {c : Ctl} (h : Inv s) (stream : ∀ m, c.stream = some m → Memory.wf m = true)
    (hs : controlStep c s = .next t) : Inv t := by
  rcases controlStep_cases c s with ⟨-, reset⟩ | ⟨-, -, -, starts⟩ | ⟨-, -, own⟩
  · cases reset.symm.trans hs
    exact (atStart_applyReset _ s).inv (.inl rfl) rfl (applyReset_stream_wf _ h.streamWf) h.ctlWf rfl rfl
  · cases starts.symm.trans hs
    exact (atStart_start _ s).inv (.inr rfl) rfl (start_stream_wf h.streamWf stream) h.ctlWf rfl rfl
  · obtain ⟨u, hu, hcases⟩ := blockStep_cases h.streamWf h.aligned
    cases hu.symm.trans (own.symm.trans hs)
    exact hcases.inv h

theorem inv_step {s t : State} (h : Inv s) (hs : step s = .next t) : Inv t := by
  cases hctl : s.env.ctl with
  | nil => exact (blockStep_of_step hctl h.streamWf h.aligned hs).inv h
  | cons c rest =>
    rw [step_control hctl] at hs
    exact inv_controlStep (inv_setCtl h hctl) (h.ctlWf c (by rw [hctl]; exact List.mem_cons_self)) hs

/-! ### Decodes whose host serves (R230, R228) -/

/-- While the host serves, every step answers one of the block's own, and the host goes on serving. -/
theorem Inv.step_next {s : State} (h : Inv s) (hs : hostServes s) :
    ∃ t, step s = .next t ∧ BlockStep s t ∧ Inv t ∧ hostServes t := by
  obtain ⟨hctl, heos, hready⟩ := hs
  obtain ⟨t, ht, hcases⟩ := blockStep_cases h.streamWf h.aligned
  obtain ⟨host, -⟩ := hcases.host
  refine ⟨t, (step_no_control hctl).trans ht, hcases, hcases.inv h, ?_⟩
  rw [hostServes, host]
  exact ⟨hctl, heos, hready⟩

/-- Acceptance ends the decode or goes on to its chunks (R127). -/
theorem acceptHeader_phase_cases (w h : Word32) (s : State) :
    ended (acceptHeader w h s) = true ∨ (acceptHeader w h s).phase = .decoding := by
  by_cases above : s.env.maxPixels < pixelCount w h
  · rw [acceptHeader_over above]
    exact .inl rfl
  · rw [acceptHeader_within above]
    by_cases zero : pixelCount w h = 0
    · exact .inl (by simp [ended, zero])
    · exact .inr (if_neg zero)

/-- A step of a running decode whose host serves ends it, or goes on to a chunk with fewer bytes left (R230). -/
theorem BlockStep.ends_or_takes {s t : State} (inv : Inv s) (hs : hostServes s)
    (hp : s.phase = .header ∨ s.phase = .decoding) (h : BlockStep s t) :
    ended t = true ∨ (t.phase = .decoding ∧ (pendingBytes t).length < (pendingBytes s).length) := by
  obtain ⟨-, heos, hready⟩ := hs
  cases h with
  | quiet phase => rcases hp with hp | hp <;> simp [hp] at phase
  | waits _ _ host => simp [heos, hready] at host
  | chunk i rest _ phase decodes _ runs =>
    have chunk := decodeChunk_isHeader decodes
    obtain ⟨henv, hin⟩ := exec_chunk_env chunk runs
    rcases (exec_chunk_cases chunk runs).phase with goesOn | done
    · right
      refine ⟨goesOn.trans phase, ?_⟩
      have left : pendingBytes t = rest := (pendingBytes_congr hin henv).trans
        (pendingBytes_afterFetch (s := resumed s) inv.streamWf (encode_of_decodeChunk decodes))
      have length := decodeChunk_length decodes
      have pos := byteLength_pos i
      rw [left]
      omega
    · exact .inl (by simp [ended, done])
  | header w h c cs rest phase bytes hch hcs =>
    refine (acceptHeader_phase_cases w h (headerIn w h c cs (resumed s))).imp_right fun goesOn => ⟨goesOn, ?_⟩
    have left : pendingBytes (acceptHeader w h (headerIn w h c cs (resumed s))) = rest :=
      pendingBytes_acceptHeader (s := resumed s) inv.streamWf bytes
    rw [left, bytes, List.length_append, encode_length]
    exact Nat.lt_add_of_pos_left (byteLength_pos _)
  | chunkShort => exact .inl rfl
  | headerShort => exact .inl rfl
  | headerBad => exact .inl rfl

/-- A running decode whose host serves ends in at most one step for each byte left and one more. -/
theorem run_ends {s : State} (inv : Inv s) (hs : hostServes s) (hp : s.phase = .header ∨ s.phase = .decoding) :
    ∃ k t, k ≤ (pendingBytes s).length + 1 ∧ Host.Core.run Sys2Proof.core k s = .next t ∧ ended t = true ∧
      Inv t ∧ hostServes t := by
  induction left : (pendingBytes s).length using Nat.strong_induction_on generalizing s with
  | _ n ih =>
    obtain ⟨u, hu, hcases, inv', hs'⟩ := inv.step_next hs
    obtain stops | ⟨goesOn, fewer⟩ := hcases.ends_or_takes inv hs hp
    · exact ⟨1, u, Nat.le_add_left _ _, run_succ 0 hu, stops, inv', hs'⟩
    · obtain ⟨k, t, bound, run, rest⟩ := ih _ (left ▸ fewer) inv' hs' (.inr goesOn) rfl
      exact ⟨k + 1, t, by omega, (run_succ k hu).trans run, rest⟩

theorem inv_startState {input : Memory} (maxPixels : Word64) (wf : Memory.wf input = true) :
    Inv (startState input maxPixels) :=
  (atStart_start _ _).inv (.inr rfl) rfl wf (by simp [Env.reset]) rfl rfl

theorem hostServes_startState (input : Memory) (maxPixels : Word64) : hostServes (startState input maxPixels) :=
  ⟨rfl, rfl, rfl⟩

/-- Once a decode has ended, more steps change nothing. -/
theorem run_of_ended {s t : State} {j k : Nat} (hjk : j ≤ k) (hctl : t.env.ctl = []) (stops : ended t = true)
    (run : Host.Core.run Sys2Proof.core j s = .next t) : Host.Core.run Sys2Proof.core k s = .next t := by
  obtain ⟨d, rfl⟩ := Nat.exists_eq_add_of_le hjk
  rw [run_add j d run, run_ended d hctl stops]

/-- The steps of `decodeAll` are enough for every decode to end (R230). -/
theorem decodeAll_ends {input : Memory} (maxPixels : Word64) (wf : Memory.wf input = true) :
    ∃ t, decodeAll input maxPixels = .next t ∧ ended t = true ∧ Inv t ∧ t.env.ctl = [] := by
  obtain ⟨k, t, bound, run, stops, inv, hctl, -⟩ :=
    run_ends (inv_startState maxPixels wf) (hostServes_startState input maxPixels) (.inl rfl)
  exact ⟨t, run_of_ended bound hctl stops run, stops, inv, hctl⟩

/-! ### The chunk latch is not read (R232; log 5) -/

/-- The same end of an operation, with `c` in the chunk latch of its state. -/
def Ret.latch {α : Type} (c : Chunk) : Ret α → Ret α
  | .ok v s => .ok v (latchChunk c s)
  | .raised s => .raised (latchChunk c s)
  | .waits s => .waits (latchChunk c s)
  | .fault f => .fault f

/-- The operation does not read the chunk latch and does not write it. -/
def LatchFree {α : Type} (op : State → Ret α) : Prop := ∀ c s, op (latchChunk c s) = (op s).latch c

theorem latchFree_ok {α : Type} (v : α) : LatchFree (Ret.ok v) := fun _ _ => rfl

theorem latchFree_raised {α : Type} (e : ErrCode) : LatchFree fun s => (Ret.raised (raiseError e s) : Ret α) :=
  fun _ _ => rfl

/-- A test of anything but the latch. -/
theorem LatchFree.ite {α : Type} {p : State → Prop} [DecidablePred p] {op op' : State → Ret α} (h : LatchFree op)
    (h' : LatchFree op') (same : ∀ c s, p (latchChunk c s) ↔ p s := by exact fun _ _ => Iff.rfl) :
    LatchFree fun s => if p s then op s else op' s := by
  intro c s
  dsimp only
  by_cases hp : p s
  · rw [if_pos hp]
    exact (if_pos ((same c s).2 hp)).trans (h c s)
  · rw [if_neg hp]
    exact (if_neg (mt (same c s).1 hp)).trans (h' c s)

theorem Ret.latch_andThen {α β : Type} {c : Chunk} {r : Ret α} {next next' : α → State → Ret β}
    (follows : ∀ v s, next' v (latchChunk c s) = (next v s).latch c) :
    (r.latch c).andThen next' = (r.andThen next).latch c := by
  cases r with
  | ok v s => exact follows v s
  | raised s => rfl
  | waits s => rfl
  | fault f => rfl

theorem LatchFree.andThen {α β : Type} {op : State → Ret α} {next : α → State → Ret β} (h : LatchFree op)
    (hn : ∀ v, LatchFree (next v)) : LatchFree fun s => (op s).andThen next := by
  intro c s
  simp only [h c s]
  exact Ret.latch_andThen fun v => hn v c

/-! The bit source (R101 to R105). -/

theorem latchFree_fetchByte : LatchFree fetchByte := by
  intro c s
  obtain ⟨b, rest, hp, hs⟩ | ⟨hp, he, hs⟩ | ⟨hp, he, hs⟩ := fetchByte_cases s
  · rw [hs, fetchByte_pending (s := latchChunk c s) hp]
    rfl
  · rw [hs, fetchByte_ended (s := latchChunk c s) hp]
    exact if_pos he
  · rw [hs, fetchByte_ended (s := latchChunk c s) hp]
    exact if_neg (by simp [he])

theorem latchFree_readBits (n : Nat) : LatchFree (readBits n) := by
  refine LatchFree.ite (op := fun _ => .fault .readBitsWidth) (fun _ _ => rfl)
    (LatchFree.ite (op := fun s => .ok _ _) (fun _ _ => rfl) ?_)
  intro c s
  dsimp only
  rw [latchFree_fetchByte c s]
  exact Ret.latch_andThen fun _ _ => rfl

theorem latchFree_restore (ckInCount : Word64) : LatchFree (restore ckInCount) :=
  LatchFree.ite (op := fun s => .ok () { s with bsBuf := s.ckBuf, bsCnt := s.ckCnt })
    (op' := fun _ => .fault .restoreAcrossFetch) (fun _ _ => rfl) (fun _ _ => rfl)

/-! The header's reads (R121). -/

theorem latchFree_readWord32 : LatchFree readWord32 :=
  (latchFree_readBits 8).andThen fun _ => (latchFree_readBits 8).andThen fun _ =>
  (latchFree_readBits 8).andThen fun _ => (latchFree_readBits 8).andThen fun _ => latchFree_ok _

theorem latchFree_readMagic : LatchFree readMagic :=
  (latchFree_readBits 8).andThen fun _ => (latchFree_readBits 8).andThen fun _ =>
  (latchFree_readBits 8).andThen fun _ => (latchFree_readBits 8).andThen fun _ =>
  (latchFree_ok ()).ite (latchFree_raised .fmt)

theorem latchFree_setChannels (ch : Byte) : LatchFree (setChannels ch) :=
  LatchFree.ite (fun _ _ => rfl) (fun _ _ => rfl)

theorem latchFree_setColorspace (cs : Byte) : LatchFree (setColorspace cs) :=
  LatchFree.ite (fun _ _ => rfl) (fun _ _ => rfl)

theorem latchFree_fetchHeader : LatchFree fetchHeader :=
  latchFree_readMagic.andThen fun _ => latchFree_readWord32.andThen fun w =>
  LatchFree.andThen (fun c s => latchFree_readWord32 c (setWidth w s)) fun h =>
  LatchFree.andThen (fun c s => latchFree_readBits 8 c (setHeight h s)) fun ch =>
  (latchFree_setChannels ch).andThen fun _ => (latchFree_readBits 8).andThen fun cs =>
  (latchFree_setColorspace cs).andThen fun _ => latchFree_ok _

/-! The tag decoder and the payload extractor (R140 to R149). -/

/-- The second half of `DecodeTag()`, from a checkpoint at this `in_count`. -/
theorem latchFree_superTag (ckInCount : Word64) :
    LatchFree fun s => (readBits 6 (checkpoint s)).andThen fun x s =>
      if x = 0b111110 then .ok ChunkKind.rgb s
      else if x = 0b111111 then .ok .rgba s
      else (restore ckInCount s).andThen fun _ s => .ok .run s :=
  LatchFree.andThen (fun c s => latchFree_readBits 6 c (checkpoint s)) fun _ =>
    (latchFree_ok _).ite <| (latchFree_ok _).ite <| (latchFree_restore ckInCount).andThen fun _ => latchFree_ok _

theorem latchFree_decodeTag : LatchFree decodeTag :=
  (latchFree_readBits 2).andThen fun _ => (latchFree_ok _).ite <| (latchFree_ok _).ite <| (latchFree_ok _).ite
    fun c s => latchFree_superTag s.inCount c s

theorem latchFree_extractPayload (kind : ChunkKind) : LatchFree (extractPayload kind) := by
  cases kind with
  | index => exact (latchFree_readBits 6).andThen fun _ => latchFree_ok _
  | diff =>
    exact (latchFree_readBits 2).andThen fun _ => (latchFree_readBits 2).andThen fun _ =>
      (latchFree_readBits 2).andThen fun _ => latchFree_ok _
  | luma =>
    exact (latchFree_readBits 6).andThen fun _ => (latchFree_readBits 4).andThen fun _ =>
      (latchFree_readBits 4).andThen fun _ => latchFree_ok _
  | run => exact (latchFree_readBits 6).andThen fun _ => latchFree_ok _
  | rgb =>
    exact (latchFree_readBits 8).andThen fun _ => (latchFree_readBits 8).andThen fun _ =>
      (latchFree_readBits 8).andThen fun _ => latchFree_ok _
  | rgba =>
    exact (latchFree_readBits 8).andThen fun _ => (latchFree_readBits 8).andThen fun _ =>
      (latchFree_readBits 8).andThen fun _ => (latchFree_readBits 8).andThen fun _ => latchFree_ok _

theorem latchFree_fetchChunk : LatchFree fetchChunk :=
  latchFree_decodeTag.andThen latchFree_extractPayload

/-! The steps. -/

theorem acceptHeader_latchChunk (w h : Word32) (c : Chunk) (s : State) :
    acceptHeader w h (latchChunk c s) = latchChunk c (acceptHeader w h s) := by
  by_cases above : s.env.maxPixels < pixelCount w h
  · rw [acceptHeader_over above]
    exact acceptHeader_over (s := latchChunk c s) above
  · rw [acceptHeader_within above]
    exact acceptHeader_within (s := latchChunk c s) above

/-- HDR leaves the chunk latch; a chunk overwrites it, whatever it held. -/
theorem exec_latchChunk {i : Instr} {s t : State} (c : Chunk) (h : exec i s = .next t) :
    ∃ c', exec i (latchChunk c s) = .next (latchChunk c' t) := by
  cases i with
  | hdr w h' ch cs =>
    refine ⟨c, ?_⟩
    cases hch : Instr.channelsOk ch with
    | false =>
      rw [exec_hdr_badChannels w h' cs _ hch] at h ⊢
      cases h
      rfl
    | true =>
      cases hcs : Instr.colorspaceOk cs with
      | false =>
        rw [exec_hdr_badColorspace w h' _ hch hcs] at h ⊢
        cases h
        rfl
      | true =>
        rw [exec_hdr_legal w h' _ hch hcs] at h ⊢
        cases h
        exact congrArg Host.Outcome.next (acceptHeader_latchChunk w h' c
          { s with hdrWidth := w, hdrHeight := h', hdrChannels := ch, hdrColorspace := cs })
  | _ => exact ⟨t.chunk, h⟩

/-- An operation that does not read the latch, and what follows it in a step. -/
theorem into_latch {α : Type} {r : Ret α} {s t : State} {next next' : α → State → Host.Outcome State Fault Refusal}
    (c : Chunk) (h : r.into s next = .next t)
    (follows : ∀ v u, next v u = .next t → ∃ c', next' v (latchChunk c u) = .next (latchChunk c' t)) :
    ∃ c', (r.latch c).into (latchChunk c s) next' = .next (latchChunk c' t) := by
  cases r with
  | ok v u => exact follows v u h
  | raised u =>
    cases h
    exact ⟨c, rfl⟩
  | waits u =>
    cases h
    exact ⟨c, rfl⟩
  | fault f => cases h

theorem execWhenReady_latchChunk {s t u : State} {i : Instr} (c : Chunk) (h : execWhenReady s i u = .next t) :
    ∃ c', execWhenReady (latchChunk c s) i (latchChunk c u) = .next (latchChunk c' t) := by
  by_cases ready : u.env.pxReady = true
  · rw [execWhenReady, if_pos ready] at h
    obtain ⟨c', hx⟩ := exec_latchChunk c h
    exact ⟨c', (if_pos ready).trans hx⟩
  · rw [execWhenReady, if_neg ready] at h
    cases h
    exact ⟨c, if_neg ready⟩

/-- What the latch holds makes no difference to a step, but for what the latch holds after it. -/
theorem blockStep_latchChunk {s t : State} (c : Chunk) (h : blockStep s = .next t) :
    ∃ c', blockStep (latchChunk c s) = .next (latchChunk c' t) := by
  have quiet (hp : s.phase = .idle ∨ s.phase = .done ∨ s.phase = .error) :
      ∃ c', blockStep (latchChunk c s) = .next (latchChunk c' t) := by
    cases (blockStep_quiescent hp).symm.trans h
    exact ⟨c, blockStep_quiescent hp⟩
  cases hp : s.phase with
  | header =>
    rw [blockStep_header hp] at h
    rw [blockStep_header (s := latchChunk c s) hp]
    have latched := into_latch c h fun _ _ => exec_latchChunk c
    rwa [← latchFree_fetchHeader c (resumed s)] at latched
  | decoding =>
    rw [blockStep_decoding hp] at h
    rw [blockStep_decoding (s := latchChunk c s) hp]
    have latched := into_latch c h fun _ _ => execWhenReady_latchChunk c
    rwa [← latchFree_fetchChunk c (resumed s)] at latched
  | idle => exact quiet (.inl hp)
  | done => exact quiet (.inr (.inl hp))
  | error => exact quiet (.inr (.inr hp))

/-- Runs from two step boundaries that differ in the latch alone differ in it alone. -/
theorem run_latchChunk (k : Nat) (c : Chunk) {s : State} (inv : Inv s) (hs : hostServes s) :
    ∃ t c', Host.Core.run Sys2Proof.core k s = .next t ∧
      Host.Core.run Sys2Proof.core k (latchChunk c s) = .next (latchChunk c' t) := by
  induction k generalizing s c with
  | zero => exact ⟨s, c, rfl, rfl⟩
  | succ k ih =>
    obtain ⟨u, hu, -, inv', hs'⟩ := inv.step_next hs
    obtain ⟨hctl, -⟩ := hs
    obtain ⟨c', hu'⟩ := blockStep_latchChunk c ((step_no_control hctl).symm.trans hu)
    rw [run_succ k hu, run_succ k ((step_no_control (s := latchChunk c s) hctl).trans hu')]
    exact ih c' inv' hs'

/-- Of the state it finds, a `start` with a positioned stream keeps the latch and the host's other inputs. -/
theorem start_eq_latchChunk {s s' : State} (input : Memory) (hctl : s'.env.ctl = s.env.ctl)
    (heos : s'.env.inEos = s.env.inEos) (hready : s'.env.pxReady = s.env.pxReady)
    (limit : s'.env.maxPixels = s.env.maxPixels) :
    start (some input) s' = latchChunk s'.chunk (start (some input) s) := by
  simp only [start, latchChunk, nextStream, hctl, heos, hready, limit]

/-! ### Bytes after the last chunk (R227) -/

/-- `s` with more bytes at the end of its stream. -/
def followedBy (extra : List Byte) (s : State) : State :=
  { s with env := { s.env with input := s.env.input ++ extra } }

theorem pendingBytes_followedBy {s : State} (extra : List Byte) (taken : s.inCount.toNat ≤ s.env.input.length) :
    pendingBytes (followedBy extra s) = pendingBytes s ++ extra := List.drop_append_of_le_length taken

theorem acceptHeader_followedBy (w h : Word32) (extra : List Byte) (s : State) :
    acceptHeader w h (followedBy extra s) = followedBy extra (acceptHeader w h s) := by
  by_cases above : s.env.maxPixels < pixelCount w h
  · rw [acceptHeader_over above]
    exact acceptHeader_over (s := followedBy extra s) above
  · rw [acceptHeader_within above]
    exact acceptHeader_within (s := followedBy extra s) above

/-- A chunk's effect does not read the stream. -/
theorem exec_followedBy {s t : State} {i : Instr} (extra : List Byte) (hi : i.isHeader = false)
    (h : exec i s = .next t) : exec i (followedBy extra s) = .next (followedBy extra t) := by
  obtain ⟨-, -, -, channels, colorspace, -, -, buffer, -, ckBuffer, ckCount, -, henv⟩ := (exec_chunk_cases hi h).keeps
  have unread : unreadFrom (followedBy extra s) t = followedBy extra t := by
    simp only [unreadFrom, followedBy, ← channels, ← colorspace, ← buffer, ← ckBuffer, ← ckCount, ← henv]
  exact (exec_unreadFrom (u := followedBy extra s) hi h).trans (congrArg _ unread)

/-- A step that does not raise takes bytes that are there, whatever follows them. -/
theorem BlockStep.step_followedBy {s t : State} (extra : List Byte) (inv : Inv s) (hs : hostServes s)
    (wf : Memory.wf (s.env.input ++ extra) = true) (h : BlockStep s t) :
    t.phase = .error ∨ step (followedBy extra s) = .next (followedBy extra t) := by
  have pending := pendingBytes_followedBy extra inv.taken
  obtain ⟨hctl, heos, hready⟩ := hs
  cases h with
  | quiet phase => exact .inr ((step_no_control (s := followedBy extra s) hctl).trans (blockStep_quiescent phase))
  | waits _ _ host => simp [heos, hready] at host
  | chunk i rest _ phase decodes _ runs =>
    right
    have chunk := decodeChunk_isHeader decodes
    have decodes' : decodeChunk (pendingBytes (followedBy extra s)) = .ok (i, rest ++ extra) := by
      rw [pending, encode_of_decodeChunk decodes, List.append_assoc,
        decodeChunk_encode chunk (decodeChunk_wellFormed decodes)]
    rw [step_decoding_ready (s := followedBy extra s) hctl hready phase wf inv.aligned decodes']
    exact exec_followedBy extra chunk runs
  | header w h c cs rest phase bytes hch hcs =>
    right
    have bytes' : pendingBytes (followedBy extra s) = encode (.hdr w h c cs) ++ (rest ++ extra) := by
      rw [pending, bytes, List.append_assoc]
    rw [step_header_legal (s := followedBy extra s) hctl phase wf inv.aligned bytes' hch hcs,
      ← acceptHeader_followedBy]
    rfl
  | chunkShort => exact .inl rfl
  | headerShort => exact .inl rfl
  | headerBad => exact .inl rfl

/-- A run that reaches DONE does so whatever follows in the stream. -/
theorem run_followedBy (k : Nat) (extra : List Byte) {s t : State} (inv : Inv s) (hs : hostServes s)
    (wf : Memory.wf (s.env.input ++ extra) = true) (run : Host.Core.run Sys2Proof.core k s = .next t)
    (done : t.phase = .done) : Host.Core.run Sys2Proof.core k (followedBy extra s) = .next (followedBy extra t) := by
  induction k generalizing s with
  | zero =>
    cases run
    rfl
  | succ k ih =>
    obtain ⟨u, hu, hcases, inv', hs'⟩ := inv.step_next hs
    rw [run_succ k hu] at run
    obtain error | hu' := hcases.step_followedBy extra inv hs wf
    · have stays := run_ended k hs'.1 (by simp [ended, error])
      cases stays.symm.trans run
      simp [error] at done
    · obtain ⟨host, -⟩ := hcases.host
      rw [run_succ k hu']
      exact ih inv' hs' (by rw [host]; exact wf) run

/-! ### The statements -/

/-- Settles O46: a sample of the control inputs leaves a fresh decode or the block's own step, and every end of that
step keeps each clause. -/
theorem everyStepKeepsTheInvariant : Obligations.EveryStepKeepsTheInvariant :=
  fun _ _ => inv_step

/-- Settles O47, by induction on the bytes left: a step ends the decode or takes at least one of them. -/
theorem everyDecodeEnds : Obligations.EveryDecodeEnds := by
  intro s inv hs hp
  obtain ⟨k, t, bound, run, stops, -⟩ := run_ends inv hs hp
  exact ⟨k, t, bound, run, stops⟩

/-- Settles O48: the decode ends, and the invariant says what holds in DONE and in ERROR. -/
theorem decodeEndsInExactlyOneOfTwoWays : Obligations.DecodeEndsInExactlyOneOfTwoWays := by
  intro input maxPixels wf
  obtain ⟨t, run, stops, inv, -⟩ := decodeAll_ends maxPixels wf
  refine ⟨t, run, ?_⟩
  obtain done | error : t.phase = .done ∨ t.phase = .error := of_decide_eq_true stops
  · have valid := inv.accepted (.inr done)
    refine .inl ⟨done, inv.decoded.noError (by simp [done]), ?_, valid, ?_⟩
    · rw [← inv.counted, inv.complete done]
    · rw [(inv.header valid).total, pixelCount_toNat]
  · exact .inr ⟨error, inv.errors.1 error⟩

/-- Settles O49: after the `start` the two decodes differ in the chunk latch alone, which nothing reads. -/
theorem decodesDoNotDependOnThePast : Obligations.DecodesDoNotDependOnThePast := by
  intro s s' input wf hctl hctl' idle idle' limit heos heos' hready hready' k
  have starts {u : State} (hu : u.env.ctl = [⟨false, true, some input, 0⟩]) (quiet : busy u = false) :
      step u = .next (start (some input) (setCtl [] u)) :=
    (step_control hu).trans (controlStep_start rfl rfl quiet)
  have same : start (some input) (setCtl [] s') = latchChunk s'.chunk (start (some input) (setCtl [] s)) :=
    start_eq_latchChunk input rfl (heos'.trans heos.symm) (hready'.trans hready.symm) limit.symm
  have inv : Inv (start (some input) (setCtl [] s)) :=
    (atStart_start _ _).inv (.inr rfl) rfl wf (by simp) rfl rfl
  obtain ⟨t, c, run, run'⟩ := run_latchChunk k s'.chunk inv ⟨rfl, heos, hready⟩
  refine ⟨t, latchChunk c t, ?_, ?_, rfl⟩
  · rw [run_succ k (starts hctl idle), run]
  · rw [run_succ k (starts hctl' idle'), same, run']

/-- Settles O50: the steps up to DONE take bytes that are there, and then the decode stays as it is. -/
theorem bytesAfterTheLastChunkAreNotRead : Obligations.BytesAfterTheLastChunkAreNotRead := by
  refine ⟨fun s done => ⟨(ports_quiescent (.inr (.inl done))).1, fun hctl => ?_⟩,
    fun input extra maxPixels t wf run done => ?_⟩
  · exact (step_no_control hctl).trans (blockStep_quiescent (.inr (.inl done)))
  · have wf' : Memory.wf input = true := by
      simp only [Memory.wf, List.length_append, decide_eq_true_eq] at wf ⊢
      omega
    obtain ⟨u, ends, -, -, hctl⟩ := decodeAll_ends maxPixels wf'
    cases run.symm.trans ends
    have reached : Host.Core.run Sys2Proof.core (input.length + 1) (startState (input ++ extra) maxPixels) =
        .next (followedBy extra t) :=
      run_followedBy _ extra (inv_startState maxPixels wf') (hostServes_startState input maxPixels) wf run done
    exact ⟨followedBy extra t, run_of_ended (by simp) hctl (by simp [ended, followedBy, done]) reached, rfl⟩

/-- Settles O51: of the ends of a DECODING step only the short chunk is in ERROR, and it is a fetch and a raise. -/
theorem failingChunkEmitsNothing : Obligations.FailingChunkEmitsNothing := by
  intro s t hctl hp hc wf hs error
  cases blockStep_of_step hctl wf hc hs with
  | quiet => simp [hp] at error
  | waits => simp [hp] at error
  | chunk i rest _ _ decodes _ runs =>
    rcases (exec_chunk_cases (decodeChunk_isHeader decodes) runs).phase with same | done
    · simp [same, hp] at error
    · simp [done] at error
  | chunkShort u _ _ only => exact congrArg (raiseError .eoi) only
  | header _ _ _ _ _ phase => simp [hp] at phase
  | headerShort _ phase => simp [hp] at phase
  | headerBad _ _ phase => simp [hp] at phase

/-- Settles O58: a whole chunk takes its own bytes and emits a pixel that is owed, and a short one raises. -/
theorem chunkStepsMakeProgress : Obligations.ChunkStepsMakeProgress := by
  intro s t hctl heos hready hp hc wf owing hs
  cases blockStep_of_step hctl wf hc hs with
  | quiet phase => simp [hp] at phase
  | waits _ _ host => simp [heos, hready] at host
  | chunk i rest _ _ decodes _ runs =>
    have chunk := decodeChunk_isHeader decodes
    obtain ⟨m, pos, length, -⟩ := (exec_chunk_cases chunk runs).emits owing
    obtain ⟨-, hin⟩ := exec_chunk_env chunk runs
    right
    cases bytes : pendingBytes s with
    | nil => simp [bytes, decodeChunk] at decodes
    | cons b0 tail =>
      refine ⟨b0, tail, rfl, ?_, ?_⟩
      · rw [chunkLength_of_decodeChunk (bytes ▸ decodes)]
        exact taken_toNat wf (by rw [decodeChunk_length decodes]; omega) hin
      · rw [length]
        exact Nat.lt_add_of_pos_right pos
  | chunkShort => exact .inl rfl
  | header _ _ _ _ _ phase => simp [hp] at phase
  | headerShort => exact .inl rfl
  | headerBad => exact .inl rfl

/-- Settles O3: a `start` acts where no decode runs, and in a running decode the sample leaves the block its own
step, as a low one does. -/
theorem startSetsTheDecodeState : Obligations.StartSetsTheDecodeState := by
  intro s c rest hctl hr hs
  rw [step_control hctl]
  refine ⟨fun hp => ⟨_, controlStep_start hr hs (busy_quiescent (s := setCtl rest s) hp), startValues_start _ _⟩,
    fun hp => ?_⟩
  have running : busy (setCtl rest s) = true := (busy_iff _).2 hp
  rw [controlStep_busy hr running, step_control rfl]
  exact (controlStep_busy rfl running).symm

/-- Settles O5: with no sample left the step is the block's own, which has none in these phases. -/
theorem quiescentPhasesWait : Obligations.QuiescentPhasesWait :=
  fun _ hctl hp => (step_no_control hctl).trans (blockStep_quiescent hp)

/-- Settles O44: in HEADER the bytes are a legal header, in DECODING a whole chunk. -/
theorem stepRunsTheDecodedInstruction : Obligations.StepRunsTheDecodedInstruction := by
  intro s i rest hctl hready wf hc stands legal hd
  cases hi : i.isHeader with
  | true =>
    cases i with
    | hdr w h c cs => exact step_header_decoded hctl stands wf hc legal hd
    | _ => exact nomatch hi
  | false =>
    simp only [standsIn, decodeAs, hi] at stands hd
    exact step_decoding_ready hctl hready stands wf hc hd

end Sys2Proof.Machine
end

section
/-! PROOFS. The statements of spec/60_exceptions.md: which control input acts (R259, R280, R220), what leaves ERROR
(R260), and which step raises which error (R251 to R253, R258). -/

namespace Sys2Proof.Machine

/-! ### The step by the next control sample (R259) -/

theorem controlStep_rst {c : Ctl} (hr : c.rst = true) (s : State) :
    controlStep c s = .next (applyReset (cutTaken c.cut s) s) := if_pos hr

theorem setCtl_self (s : State) : setCtl s.env.ctl s = s := rfl

/-- A step is an `rst`, a `start` that acts, or the block's own step with the sample, if there is one, used up. -/
theorem step_cases (s : State) :
    (∃ c rest, s.env.ctl = c :: rest ∧ c.rst = true ∧
      step s = .next (applyReset (cutTaken c.cut (setCtl rest s)) (setCtl rest s))) ∨
    (∃ c rest, s.env.ctl = c :: rest ∧ c.rst = false ∧ c.start = true ∧ busy s = false ∧
      step s = .next (start c.stream (setCtl rest s))) ∨
    ((∀ c rest, s.env.ctl = c :: rest → c.rst = false ∧ (c.start = false ∨ busy s = true)) ∧
      step s = blockStep (setCtl s.env.ctl.tail s)) := by
  cases hctl : s.env.ctl with
  | nil =>
    have own : step s = blockStep (setCtl [] s) := by rw [step_no_control hctl, ← hctl, setCtl_self]
    exact .inr (.inr ⟨by simp, own⟩)
  | cons c rest =>
    rw [step_control hctl]
    rcases controlStep_cases c (setCtl rest s) with ⟨hr, reset⟩ | ⟨hr, hs, idle, starts⟩ | ⟨hr, low, own⟩
    · exact .inl ⟨c, rest, rfl, hr, reset⟩
    · exact .inr (.inl ⟨c, rest, rfl, hr, hs, idle, starts⟩)
    · refine .inr (.inr ⟨fun c' rest' same => ?_, own⟩)
      cases same
      exact ⟨hr, low⟩

/-! ### The error code (R250 to R253) -/

/-- All that a step from `s` to `t` can do to the error code. -/
inductive ErrCodeStep (s t : State) : Prop
  /-- No raise, and no new decode. -/
  | kept (same : t.errCode = s.errCode)
  /-- An `rst`, or a `start` that acts (R280, R220). -/
  | cleared (noCode : t.errCode = .none)
  /-- The stream ends in the header or in a chunk (R251). -/
  | endOfInput (code : t.errCode = .eoi) (raised : t.phase = .error)
  /-- A check of the header fails (R252). -/
  | badHeader (phase : s.phase = .header) (code : t.errCode = .fmt)
  /-- The header's image is above the limit (R253). -/
  | overLimit (w h : Word32) (phase : s.phase = .header) (above : s.env.maxPixels < pixelCount w h)
      (code : t.errCode = .alloc)

/-- Acceptance raises above the limit, and otherwise leaves the code (R127, R253). -/
theorem acceptHeader_errCode (w h : Word32) (s : State) :
    (acceptHeader w h s).errCode = if s.env.maxPixels < pixelCount w h then .alloc else s.errCode := by
  by_cases above : s.env.maxPixels < pixelCount w h
  · rw [acceptHeader_over above, if_pos above]
    rfl
  · rw [acceptHeader_within above, if_neg above]

theorem BlockStep.errCodeStep {s t : State} (h : BlockStep s t) : ErrCodeStep s t := by
  cases h with
  | quiet => exact .kept rfl
  | waits => exact .kept rfl
  | chunk i rest _ _ decodes _ runs =>
    obtain ⟨code, -⟩ := (exec_chunk_cases (decodeChunk_isHeader decodes) runs).keeps
    exact .kept code
  | chunkShort => exact .endOfInput rfl rfl
  | header w h c cs rest phase =>
    have code := acceptHeader_errCode w h (headerIn w h c cs (resumed s))
    by_cases above : s.env.maxPixels < pixelCount w h
    · exact .overLimit w h phase above (code.trans (if_pos above))
    · exact .kept (code.trans (if_neg above))
  | headerShort => exact .endOfInput rfl rfl
  | headerBad _ _ phase => exact .badHeader phase rfl

/-- The samples left bear on neither the phase, the error code nor the limit. -/
theorem ErrCodeStep.of_setCtl {s t : State} {ctl : List Ctl} (h : ErrCodeStep (setCtl ctl s) t) :
    ErrCodeStep s t := by
  cases h with
  | kept same => exact .kept same
  | cleared noCode => exact .cleared noCode
  | endOfInput code raised => exact .endOfInput code raised
  | badHeader phase code => exact .badHeader phase code
  | overLimit w h phase above code => exact .overLimit w h phase above code

theorem errCodeStep_of_step {s t : State} (hc : s.bsCnt = 0) (wf : Memory.wf s.env.input = true)
    (hs : step s = .next t) : ErrCodeStep s t := by
  rcases step_cases s with ⟨c, rest, -, -, reset⟩ | ⟨c, rest, -, -, -, -, starts⟩ | ⟨-, own⟩
  · cases reset.symm.trans hs
    exact .cleared rfl
  · cases starts.symm.trans hs
    exact .cleared rfl
  · obtain ⟨u, hu, hcases⟩ := blockStep_cases (s := setCtl s.env.ctl.tail s) wf hc
    cases (own.trans hu).symm.trans hs
    exact hcases.errCodeStep.of_setCtl

/-! ### The statements -/

/-- Settles O52: of the raises only the end of the stream is not of the HEADER step. -/
theorem chunksRaiseOnlyEndOfInput : Obligations.ChunksRaiseOnlyEndOfInput := by
  intro s t hc wf hs
  cases errCodeStep_of_step hc wf hs with
  | kept same => exact ⟨fun _ => .inr same, fun _ noError => .inl (same.trans noError)⟩
  | cleared noCode => exact ⟨by simp [noCode], fun _ _ => .inl noCode⟩
  | endOfInput code raised => exact ⟨by simp [code], fun _ _ => .inr ⟨code, raised⟩⟩
  | badHeader phase => exact ⟨fun _ => .inl phase, by simp [phase]⟩
  | overLimit _ _ phase => exact ⟨fun _ => .inl phase, by simp [phase]⟩

/-- Settles O53: no 64-bit pixel count is above 2^64 − 1. -/
theorem defaultLimitNeverRaisesAllocationFailure : Obligations.DefaultLimitNeverRaisesAllocationFailure := by
  intro s t hc wf limit noAlloc hs
  cases errCodeStep_of_step hc wf hs with
  | kept same => rwa [same]
  | cleared noCode => simp [noCode]
  | endOfInput code => simp [code]
  | badHeader _ code => simp [code]
  | overLimit w h _ above =>
    rw [limit] at above
    exact absurd above (BitVec.not_lt.2 (Nat.le_of_lt_succ (pixelCount w h).isLt))

/-- Settles O6: in ERROR no decode runs, so a `start` acts, and the block's own step changes nothing. -/
theorem errorIsLeftOnlyByStartOrRst : Obligations.ErrorIsLeftOnlyByStartOrRst := by
  intro s error
  have quiet : s.phase = .idle ∨ s.phase = .done ∨ s.phase = .error := .inr (.inr error)
  rcases step_cases s with ⟨c, rest, hctl, hr, reset⟩ | ⟨c, rest, hctl, hr, hs, -, starts⟩ | ⟨low, own⟩
  · exact ⟨_, reset, .inl ⟨c, rest, hctl, hr, rfl, rfl⟩⟩
  · exact ⟨_, starts, .inr (.inl ⟨c, rest, hctl, hr, hs, rfl, rfl⟩)⟩
  · have stays := blockStep_quiescent (s := setCtl s.env.ctl.tail s) quiet
    refine ⟨_, own.trans stays, .inr (.inr ⟨rfl, fun c rest hctl => ?_⟩)⟩
    obtain ⟨hr, hs⟩ := low c rest hctl
    exact ⟨hr, hs.resolve_right (by simp [busy_quiescent quiet])⟩

/-- Settles O2: `rst` is looked at first, and then a `start` where no decode runs; that a running decode ignores a
`start` is the second clause of O3. -/
theorem rstWinsAndStartActsOnlyWhenNoDecodeRuns : Obligations.RstWinsAndStartActsOnlyWhenNoDecodeRuns := by
  intro s c rest hctl
  refine ⟨fun hr => ?_, fun hr hs notHeader notDecoding => ?_, fun hr hs running => ?_⟩
  · rw [step_control hctl, controlStep_rst hr]
  · have idle : busy (setCtl rest s) = false := by simp [busy, notHeader, notDecoding]
    rw [step_control hctl, controlStep_start hr hs idle]
  · exact (startSetsTheDecodeState s c rest hctl hr hs).2 running

end Sys2Proof.Machine
end

section
/-! PROOFS. The statements of spec/70_reset_and_hazards.md: which bytes of the host's stream come after an `rst`, a
`start` and every other step (R283, R285, R57), and a host that never answers (R292, R293). -/

namespace Sys2Proof.Machine

/-! ### The bytes the host has not given (R57, R285) -/

/-- Beyond the bytes held, taking more is dropping from the bytes not given. -/
theorem streamAfter_held_add (k : Nat) (s : State) :
    streamAfter (s.env.held + k) s = (ungivenBytes s).drop k := by
  rw [ungivenBytes, streamAfter, streamAfter, List.drop_drop, Nat.add_assoc]

theorem ungivenBytes_applyReset (taken : Nat) (s : State) :
    ungivenBytes (applyReset taken s) = streamAfter taken s := rfl

theorem ungivenBytes_start_none (s : State) : ungivenBytes (start none s) = ungivenBytes s := rfl

theorem stepTakes_setCtl {s : State} (inv : Inv s) (ctl : List Ctl) : stepTakes (setCtl ctl s) = stepTakes s :=
  stepTakes_congr inv.streamWf inv.aligned inv.streamWf inv.aligned rfl rfl

/-- The block's own step takes what it takes of the stream, whether it completes, raises or waits; where none runs,
no byte is held and none is taken. -/
theorem ungivenBytes_blockStep {s t : State} (wf : Memory.wf s.env.input = true) (hc : s.bsCnt = 0)
    (waiting : s.env.held ≤ stepTakes s) (hs : blockStep s = .next t) :
    ungivenBytes t = streamAfter (stepTakes s) s := by
  have running (hp : s.phase = .header ∨ s.phase = .decoding) : ungivenBytes t = streamAfter (stepTakes s) s := by
    obtain ⟨u, hu, hcases⟩ := blockStep_cases wf hc
    cases hu.symm.trans hs
    obtain ⟨stream, moved⟩ := hcases.takes wf hc hp
    rw [ungivenBytes, streamAfter, streamAfter, stream, moved]
  have quiescent (hp : s.phase = .idle ∨ s.phase = .done ∨ s.phase = .error) :
      ungivenBytes t = streamAfter (stepTakes s) s := by
    cases (blockStep_quiescent hp).symm.trans hs
    have takesNone : stepTakes s = 0 := stepTakes_quiescent hp
    rw [ungivenBytes, show s.env.held = stepTakes s by omega]
  cases hp : s.phase with
  | idle => exact quiescent (.inl hp)
  | header => exact running (.inl hp)
  | decoding => exact running (.inr hp)
  | done => exact quiescent (.inr (.inl hp))
  | error => exact quiescent (.inr (.inr hp))

/-- Every step but a `start` that acts on a positioned stream leaves the stream some `n` bytes on: at least those
held, at most all that the step takes, and exactly those with no control input. -/
theorem ungivenBytes_step {s t : State} (inv : Inv s) (hs : step s = .next t)
    (unpositioned : ∀ c rest, s.env.ctl = c :: rest → c.rst = false → c.start = true → busy s = false →
      c.stream = none) :
    ∃ n, ungivenBytes t = streamAfter n s ∧ s.env.held ≤ n ∧ n ≤ stepTakes s ∧
      (s.env.ctl = [] → n = stepTakes s) := by
  rcases step_cases s with ⟨c, rest, hctl, -, reset⟩ | ⟨c, rest, hctl, hr, hstart, idle, starts⟩ | ⟨-, own⟩
  · cases reset.symm.trans hs
    obtain ⟨least, most⟩ := cutTaken_bounds (cut := c.cut) (inv_setCtl inv hctl).waiting
    rw [stepTakes_setCtl inv] at most
    exact ⟨_, ungivenBytes_applyReset _ _, least, most, by simp [hctl]⟩
  · rw [unpositioned c rest hctl hr hstart idle] at starts
    cases starts.symm.trans hs
    exact ⟨s.env.held, ungivenBytes_start_none _, le_rfl, inv.waiting, by simp [hctl]⟩
  · have takes := stepTakes_setCtl inv s.env.ctl.tail
    have moved := ungivenBytes_blockStep (s := setCtl s.env.ctl.tail s) inv.streamWf inv.aligned
      (inv.waiting.trans_eq takes.symm) (own.symm.trans hs)
    rw [takes] at moved
    exact ⟨stepTakes s, moved, inv.waiting, le_rfl, fun _ => rfl⟩

/-! ### A host that never answers (R292, R293) -/

/-- Steps from a state that its step answers again. -/
theorem run_of_step_self {s : State} (k : Nat) (h : step s = .next s) :
    Host.Core.run Sys2Proof.core k s = .next s := by
  induction k with
  | zero => rfl
  | succ k ih => rw [run_succ k h, ih]

/-- A chunk step whose host does not answer waits for good: run again, it takes the same bytes. -/
theorem run_decoding_waits {s : State} (hctl : s.env.ctl = []) (hp : s.phase = .decoding)
    (wf : Memory.wf s.env.input = true) (hc : s.bsCnt = 0)
    (noByte : ∀ e, decodeChunk (pendingBytes s) = .error e → s.env.inEos = false)
    (noTaker : ∀ i rest, decodeChunk (pendingBytes s) = .ok (i, rest) → s.env.pxReady = false) (k : Nat) :
    Host.Core.run Sys2Proof.core (k + 1) s = .next (holding (chunkTakes (pendingBytes s)) s) := by
  have again : step (holding (chunkTakes (pendingBytes s)) s) = .next (holding (chunkTakes (pendingBytes s)) s) :=
    step_decoding_waits (s := holding (chunkTakes (pendingBytes s)) s) hctl hp wf hc noByte noTaker
  rw [run_succ k (step_decoding_waits hctl hp wf hc noByte noTaker), run_of_step_self k again]

/-! ### The statements -/

/-- Settles O59: the bytes taken are those held and `k` more, for an `rst`, a `start` and the block's own step. -/
theorem takenBytesAreNeverGivenAgain : Obligations.TakenBytesAreNeverGivenAgain := by
  intro s t inv hs excluded
  have unpositioned : ∀ c rest, s.env.ctl = c :: rest → c.rst = false → c.start = true → busy s = false →
      c.stream = none := by
    intro c rest hctl hr hstart idle
    have notRunning : ¬(s.phase = .header ∨ s.phase = .decoding) := by simp [← busy_iff, idle]
    simpa [hr, hstart, notRunning] using excluded c rest hctl
  obtain ⟨n, moved, least, most, exactly⟩ := ungivenBytes_step inv hs unpositioned
  obtain ⟨k, rfl⟩ := Nat.exists_eq_add_of_le least
  exact ⟨k, moved.trans (streamAfter_held_add k s), most, exactly⟩

/-- Settles O57: a chunk cut short holds all that is left, and a whole one its own bytes. -/
theorem blockWaitsForAHostThatNeverAnswers : Obligations.BlockWaitsForAHostThatNeverAnswers := by
  intro s hctl hp hc wf
  refine ⟨fun e short noEnd k => ?_, fun i rest whole noTaker k => ?_⟩
  · have takes : chunkTakes (pendingBytes s) = (pendingBytes s).length := by simp [chunkTakes, short]
    rw [run_decoding_waits hctl hp wf hc (fun _ _ => noEnd) (by simp [short]) k, takes, holding]
  · have takes : chunkTakes (pendingBytes s) = i.byteLength := by simp [chunkTakes, whole]
    rw [run_decoding_waits hctl hp wf hc (by simp [whole]) (fun _ _ _ => noTaker) k, takes, holding]

/-- Settles O4: what `rst` and a `start` that acts leave of the host's side, the sample being used up. -/
theorem newDecodesReadTheHostsNextBytes : Obligations.NewDecodesReadTheHostsNextBytes := by
  intro s c rest hctl
  refine ⟨fun hr => ?_, fun hr hstart notHeader notDecoding => ?_⟩
  · exact ⟨_, (step_control hctl).trans (controlStep_rst hr _), rfl, rfl, rfl, rfl⟩
  · have idle : busy (setCtl rest s) = false := by simp [busy, notHeader, notDecoding]
    refine ⟨_, (step_control hctl).trans (controlStep_start hr hstart idle), rfl, rfl, rfl, ?_, ?_⟩
    · intro unpositioned
      rw [unpositioned]
      rfl
    · intro m positioned
      rw [positioned]
      rfl

end Sys2Proof.Machine
end
